-- ==== Sys2Proof/Word.lean ====
section
/-! DEFINITION. The word types of the display-link block: bytes, 16-bit halves (coordinates, colours) and 32-bit words. -/

namespace Sys2Proof

/-- One byte on the wire, a command byte or a parameter byte. -/
abbrev Byte := BitVec 8

/-- A 16-bit value: a port `a`, `b`, `c`, `d`, `v`, a coordinate. -/
abbrev Half := BitVec 16

/-- A 16-bit RGB565 colour (00_scope section 7, "Color"). -/
abbrev Colour := BitVec 16

/-- A 32-bit value: `N`, `CNT`, `PTR`, `FINFO`, `PAYLEN`. -/
abbrev Word := BitVec 32

end Sys2Proof
end

