-- ==== Sys2Proof/Config.lean ====
section
/-! DEFINITION. The configuration record (00_scope R10, 10_state R20): fixed before block reset, written by nothing. -/

namespace Sys2Proof

/-- One entry of `INIT_TABLE`: a command byte and its parameter bytes (00_scope R10, 42_controller_protocol R161). -/
structure InitEntry where
  cmd : Byte
  params : List Byte
  deriving DecidableEq, Repr, Inhabited

/-- The parameters of one display-link block (00_scope R10). The four delays are not here: the source fixes them. -/
structure Config where
  /-- `WIDTH`, panel width in pixels. -/
  width : Nat
  /-- `HEIGHT`, panel height in pixels. -/
  height : Nat
  /-- `CHUNK_PIXELS`, capacity of the chunk buffer in pixels. -/
  chunkPixels : Nat
  /-- `CLK_HZ`, the SPI clock rate; no rule of the machine depends on it. -/
  clkHz : Nat
  /-- `PIN_CS`; no rule depends on it. -/
  pinCs : Nat
  /-- `PIN_DC`; no rule depends on it. -/
  pinDc : Nat
  /-- `PIN_RST`; no rule depends on it. -/
  pinRst : Nat
  /-- `BUS`, the bus reference; no rule depends on it. -/
  bus : Nat
  cmdCaset : Byte
  cmdPaset : Byte
  cmdRamwr : Byte
  cmdPixfmt : Byte
  /-- `PIXFMT_16BPP`, the parameter byte that selects 16 bits per pixel. -/
  pixfmt16bpp : Byte
  cmdMadctl : Byte
  /-- `MADCTL_VALUE`, the parameter byte of memory-access-control. -/
  madctlValue : Byte
  cmdSlpout : Byte
  cmdDispon : Byte
  /-- `INIT_TABLE`. -/
  initTable : List InitEntry
  deriving DecidableEq, Repr

/-- The seven command bytes of 30_encoding R115. -/
def Config.commands (c : Config) : List Byte :=
  [c.cmdSlpout, c.cmdDispon, c.cmdCaset, c.cmdPaset, c.cmdRamwr, c.cmdMadctl, c.cmdPixfmt]

/-- The constraints of 00_scope R10 and R11 on a configuration. -/
abbrev Config.Valid (c : Config) : Prop :=
  (1 ≤ c.width ∧ c.width ≤ 32767) ∧ (1 ≤ c.height ∧ c.height ≤ 32767) ∧ 1 ≤ c.chunkPixels ∧
    1000000 ≤ c.clkHz ∧ [c.pinCs, c.pinDc, c.pinRst].Nodup ∧ c.commands.Nodup

/-- `T_RST_SETTLE` in milliseconds (R10). -/
def tRstSettle : Nat := 5
/-- `T_RST_PULSE` in milliseconds (R10). -/
def tRstPulse : Nat := 20
/-- `T_RST_INIT` in milliseconds (R10). -/
def tRstInit : Nat := 150
/-- `T_SLPOUT` in milliseconds (R10). -/
def tSlpout : Nat := 120

/-! The OPEN parameters with no default (R10): free values, nothing is known of them (log entry 3). -/

/-- `CHUNK_PIXELS` less one. -/
opaque Config.openChunk : Nat
/-- `CLK_HZ` less 1000000. -/
opaque Config.openClk : Nat
/-- `PIN_CS`. -/
opaque Config.openPinCs : Nat
/-- The place of `PIN_DC` among the identifiers other than `PIN_CS`. -/
opaque Config.openPinDc : Nat
/-- The place of `PIN_RST` among the identifiers other than `PIN_CS` and `PIN_DC`. -/
opaque Config.openPinRst : Nat
/-- `BUS`. -/
opaque Config.openBus : Nat
/-- `MADCTL_VALUE`. -/
opaque Config.openMadctl : Byte
/-- `INIT_TABLE`. -/
opaque Config.openInitTable : List InitEntry

/-- The `n`-th natural number other than `t`: how the free pin identifiers are kept distinct (R10). -/
def Config.skip (t n : Nat) : Nat := if n < t then n else n + 1

/-- The configuration after block reset: the defaults of R10, and a free value where R10 gives no default. -/
def Config.default : Config where
  width := 320
  height := 240
  chunkPixels := Config.openChunk + 1
  clkHz := 1000000 + Config.openClk
  pinCs := Config.openPinCs
  pinDc := Config.skip Config.openPinCs Config.openPinDc
  pinRst :=
    let cs := Config.openPinCs
    let dc := Config.skip Config.openPinCs Config.openPinDc
    Config.skip (max cs dc) (Config.skip (min cs dc) Config.openPinRst)
  bus := Config.openBus
  cmdCaset := 0x2A#8
  cmdPaset := 0x2B#8
  cmdRamwr := 0x2C#8
  cmdPixfmt := 0x3A#8
  pixfmt16bpp := 0x55#8
  cmdMadctl := 0x36#8
  madctlValue := Config.openMadctl
  cmdSlpout := 0x11#8
  cmdDispon := 0x29#8
  initTable := Config.openInitTable

end Sys2Proof
end

