-- ==== Sys2Proof/Syntax.lean ====
section
/-! DEFINITION. What the machine takes: the request tuple (30_encoding R100), wire words (R111, R112), and `Instr`, one constructor per row of the opcode table. -/

namespace Sys2Proof

/-- The operand ports of a request, and the operand registers `A`, `B`, `C`, `D`, `V`, `N` they are loaded into
(30_encoding R100, 10_state R30). -/
structure Ports where
  a : Half
  b : Half
  c : Half
  d : Half
  v : Half
  n : Word
  deriving DecidableEq, Repr

/-- All ports at 0. -/
def Ports.zero : Ports := ⟨0, 0, 0, 0, 0, 0⟩

/-- A request as the host presents it (R100): the operation number, the ports and the payload's items, each item a value on
the payload read port. `PAYLEN` is the payload's length (20_memory R65). -/
structure Request where
  op : BitVec 4
  ports : Ports
  pay : List Half
  deriving DecidableEq, Repr

/-- Where the bytes of a wire instruction come from (30_encoding R112, R115, R116): one of the seven named commands, an entry
of `INIT_TABLE`, the operand of a raw SEND_CMD, or pixel data. The wire itself does not carry this. -/
inductive WireSource where
  | named
  | table
  | raw
  | pixels
  deriving DecidableEq, Repr

/-- The bytes of a wire instruction in wire order: the command byte and its parameters, or the two bytes of a pixel. -/
structure WireWord where
  source : WireSource
  bytes : List Byte
  deriving DecidableEq, Repr

/-- What stands on the input: a request, or a wire instruction on its own (log entry 16). -/
inductive Item where
  | request (r : Request)
  | wire (w : WireWord)
  deriving DecidableEq, Repr

/-- One constructor per row of spec/opcode_table.json. A request carries all its ports, since acceptance loads all six
operand registers whatever the operation uses (10_state R31). -/
inductive Instr where
  -- bus transport, 41_bus_transport R145 to R151
  | sendCmd (p : Ports)
  | sendData (p : Ports)
  | sendData16 (p : Ports)
  | sendStream (p : Ports) (pay : List Byte)
  | rstAssert (p : Ports)
  | rstRelease (p : Ports)
  | resetSeq (p : Ports)
  -- controller protocol, 42_controller_protocol R161, R165, R168
  | init (p : Ports)
  | setWindow (p : Ports)
  | fillScreen (p : Ports)
  -- pixel stream, 43_pixel_stream R184, R185, R188, R181
  | drawPixel (p : Ports)
  | fillRect (p : Ports)
  | drawBitmap (p : Ports) (pay : List Colour)
  | color565 (p : Ports)
  -- reserved, 30_encoding R120
  | reserved14 (p : Ports)
  | reserved15 (p : Ports)
  -- wire instructions, 30_encoding R112, R115, R116, R118
  | slpout
  | dispon
  | caset (first last : Half)
  | paset (first last : Half)
  | ramwr
  | madctl (param : Byte)
  | pixfmt (param : Byte)
  | tableEntry (cmd : Byte) (params : List Byte)
  | rawCmd (cmd : Byte)
  | pixel (r : BitVec 5) (g : BitVec 6) (b : BitVec 5)
  deriving DecidableEq, Repr

/-- The `op` number of a request (30_encoding R102); a wire instruction has none. -/
def Instr.op? : Instr → Option (BitVec 4)
  | .sendCmd _ => some 0
  | .sendData _ => some 1
  | .sendData16 _ => some 2
  | .sendStream _ _ => some 3
  | .rstAssert _ => some 4
  | .rstRelease _ => some 5
  | .resetSeq _ => some 6
  | .init _ => some 7
  | .setWindow _ => some 8
  | .fillScreen _ => some 9
  | .drawPixel _ => some 10
  | .fillRect _ => some 11
  | .drawBitmap _ _ => some 12
  | .color565 _ => some 13
  | .reserved14 _ => some 14
  | .reserved15 _ => some 15
  | .slpout => none
  | .dispon => none
  | .caset _ _ => none
  | .paset _ _ => none
  | .ramwr => none
  | .madctl _ => none
  | .pixfmt _ => none
  | .tableEntry _ _ => none
  | .rawCmd _ => none
  | .pixel _ _ _ => none

/-- The ports a request presents; a wire instruction presents none. -/
def Instr.ports? : Instr → Option Ports
  | .sendCmd p => some p
  | .sendData p => some p
  | .sendData16 p => some p
  | .sendStream p _ => some p
  | .rstAssert p => some p
  | .rstRelease p => some p
  | .resetSeq p => some p
  | .init p => some p
  | .setWindow p => some p
  | .fillScreen p => some p
  | .drawPixel p => some p
  | .fillRect p => some p
  | .drawBitmap p _ => some p
  | .color565 p => some p
  | .reserved14 p => some p
  | .reserved15 p => some p
  | .slpout => none
  | .dispon => none
  | .caset _ _ => none
  | .paset _ _ => none
  | .ramwr => none
  | .madctl _ => none
  | .pixfmt _ => none
  | .tableEntry _ _ => none
  | .rawCmd _ => none
  | .pixel _ _ _ => none

end Sys2Proof
end

