-- ==== Sys2Proof/WellFormed.lean ====
section
/-! DEFINITION. Which instructions can be presented: `pay_len` is a 32-bit port (30_encoding R100), so a payload of 2^32 items or more has no request. -/

namespace Sys2Proof

/-- A payload's length fits the port `pay_len[31:0]` (30_encoding R100). -/
def payloadFits (n : Nat) : Bool := n < 2 ^ 32

/-- The check on an instruction. Every other operand is of the width its port or field has. -/
def Instr.wellFormed : Instr → Bool
  | .sendCmd _ => true
  | .sendData _ => true
  | .sendData16 _ => true
  | .sendStream _ pay => payloadFits pay.length
  | .rstAssert _ => true
  | .rstRelease _ => true
  | .resetSeq _ => true
  | .init _ => true
  | .setWindow _ => true
  | .fillScreen _ => true
  | .drawPixel _ => true
  | .fillRect _ => true
  | .drawBitmap _ pay => payloadFits pay.length
  | .color565 _ => true
  | .reserved14 _ => true
  | .reserved15 _ => true
  | .slpout => true
  | .dispon => true
  | .caset _ _ => true
  | .paset _ _ => true
  | .ramwr => true
  | .madctl _ => true
  | .pixfmt _ => true
  | .tableEntry _ _ => true
  | .rawCmd _ => true
  | .pixel _ _ _ => true

end Sys2Proof
end

