-- ==== Sys2Proof/Decode.lean ====
section
/-! DEFINITION. Decoding of what stands on the input, and the encoder written from the same tables (30_encoding R100 to R118). -/

namespace Sys2Proof

/-! ### Byte order (20_memory R61, R64) -/

/-- `hi8(v) = v[15:8]`. -/
def hi8 (v : Half) : Byte := v.extractLsb' 8 8

/-- `lo8(v) = v[7:0]`. -/
def lo8 (v : Half) : Byte := v.extractLsb' 0 8

/-- `{hi, lo}`, hi in the more significant position. -/
def join16 (hi lo : Byte) : Half := hi ++ lo

/-- A colour's channels, red in bits 15:11, green in 10:5, blue in 4:0 (30_encoding R117). -/
def packColour (r : BitVec 5) (g : BitVec 6) (b : BitVec 5) : Colour := (r ++ g) ++ b

def redOf (v : Colour) : BitVec 5 := v.extractLsb' 11 5
def greenOf (v : Colour) : BitVec 6 := v.extractLsb' 5 6
def blueOf (v : Colour) : BitVec 5 := v.extractLsb' 0 5

/-! ### Decoding -/

/-- Why a wire word is no wire instruction. -/
inductive DecodeError where
  /-- a word with no command byte, or a pixel with no byte -/
  | noBytes
  /-- a named command whose byte is none of the seven of R115 -/
  | unknownCommand (c : Byte)
  /-- fewer bytes than the format has -/
  | missingBytes
  /-- bytes left over after the format's last -/
  | trailingBytes
  deriving DecidableEq, Repr

/-- The instruction of a request: `op` alone selects it (R102, R103); a payload given to an operation that takes none is
ignored (R121); a byte item is the low byte of the payload read port (R66, log entry 18). -/
def decodeRequest (r : Request) : Instr :=
  match r.op.toNat with
  | 0 => .sendCmd r.ports
  | 1 => .sendData r.ports
  | 2 => .sendData16 r.ports
  | 3 => .sendStream r.ports (r.pay.map lo8)
  | 4 => .rstAssert r.ports
  | 5 => .rstRelease r.ports
  | 6 => .resetSeq r.ports
  | 7 => .init r.ports
  | 8 => .setWindow r.ports
  | 9 => .fillScreen r.ports
  | 10 => .drawPixel r.ports
  | 11 => .fillRect r.ports
  | 12 => .drawBitmap r.ports r.pay
  | 13 => .color565 r.ports
  | 14 => .reserved14 r.ports
  | _ => .reserved15 r.ports

/-- A format W1: one parameter byte. -/
def decodeW1 (f : Byte → Instr) : List Byte → Except DecodeError (Instr × List Byte)
  | p :: rest => .ok (f p, rest)
  | [] => .error .missingBytes

/-- A format W4: two big-endian coordinates (20_memory R64). -/
def decodeW4 (f : Half → Half → Instr) : List Byte → Except DecodeError (Instr × List Byte)
  | h0 :: l0 :: h1 :: l1 :: rest => .ok (f (join16 h0 l0) (join16 h1 l1), rest)
  | _ => .error .missingBytes

/-- A named command: its byte selects the format (R115), and the parameters follow (R112). -/
def decodeNamed (cfg : Config) (c : Byte) (rest : List Byte) : Except DecodeError (Instr × List Byte) :=
  if c = cfg.cmdSlpout then .ok (.slpout, rest)
  else if c = cfg.cmdDispon then .ok (.dispon, rest)
  else if c = cfg.cmdCaset then decodeW4 .caset rest
  else if c = cfg.cmdPaset then decodeW4 .paset rest
  else if c = cfg.cmdRamwr then .ok (.ramwr, rest)
  else if c = cfg.cmdMadctl then decodeW1 .madctl rest
  else if c = cfg.cmdPixfmt then decodeW1 .pixfmt rest
  else .error (.unknownCommand c)

/-- A wire word: the instruction its bytes begin with, and the bytes left over. A table entry takes every byte that follows
its command byte, since a parameter run ends only at the next command (R111). -/
def decodeWire (cfg : Config) (w : WireWord) : Except DecodeError (Instr × List Byte) :=
  match w.source, w.bytes with
  | .named, c :: rest => decodeNamed cfg c rest
  | .table, c :: rest => .ok (.tableEntry c rest, [])
  | .raw, c :: rest => .ok (.rawCmd c, rest)
  | .pixels, h :: l :: rest =>
    .ok (.pixel (redOf (join16 h l)) (greenOf (join16 h l)) (blueOf (join16 h l)), rest)
  | .pixels, [_] => .error .missingBytes
  | _, [] => .error .noBytes

/-- The instruction that stands on the input. -/
def decode (cfg : Config) : Item → Except DecodeError Instr
  | .request r => .ok (decodeRequest r)
  | .wire w =>
    match decodeWire cfg w with
    | .ok (i, []) => .ok i
    | .ok (_, _ :: _) => .error .trailingBytes
    | .error e => .error e

/-! ### Encoding -/

/-- The request of an operation number, its ports and its payload. -/
def request (op : BitVec 4) (p : Ports) (pay : List Half) : Item := .request ⟨op, p, pay⟩

/-- The wire word of a named command. -/
def named (bytes : List Byte) : Item := .wire ⟨.named, bytes⟩

/-- The four parameter bytes of a format W4 (20_memory R64). -/
def w4Params (first last : Half) : List Byte := [hi8 first, lo8 first, hi8 last, lo8 last]

/-- An instruction as it stands on the input (R102, R112, R115). -/
def encode (cfg : Config) : Instr → Item
  | .sendCmd p => request 0 p []
  | .sendData p => request 1 p []
  | .sendData16 p => request 2 p []
  | .sendStream p pay => request 3 p (pay.map (BitVec.zeroExtend 16))
  | .rstAssert p => request 4 p []
  | .rstRelease p => request 5 p []
  | .resetSeq p => request 6 p []
  | .init p => request 7 p []
  | .setWindow p => request 8 p []
  | .fillScreen p => request 9 p []
  | .drawPixel p => request 10 p []
  | .fillRect p => request 11 p []
  | .drawBitmap p pay => request 12 p pay
  | .color565 p => request 13 p []
  | .reserved14 p => request 14 p []
  | .reserved15 p => request 15 p []
  | .slpout => named [cfg.cmdSlpout]
  | .dispon => named [cfg.cmdDispon]
  | .caset first last => named (cfg.cmdCaset :: w4Params first last)
  | .paset first last => named (cfg.cmdPaset :: w4Params first last)
  | .ramwr => named [cfg.cmdRamwr]
  | .madctl p => named [cfg.cmdMadctl, p]
  | .pixfmt p => named [cfg.cmdPixfmt, p]
  | .tableEntry c ps => .wire ⟨.table, c :: ps⟩
  | .rawCmd c => .wire ⟨.raw, [c]⟩
  | .pixel r g b => .wire ⟨.pixels, [hi8 (packColour r g b), lo8 (packColour r g b)]⟩

/-! ### The opcode table's own numbering of bits -/

/-- The word of the opcode table with bits `w` laid out on the input, every bit above `nbits` zero. The table numbers the 4-bit
`op` of a request and the byte of a wire command from bit 0 alike and does not say which it is, so this function tells them
apart by value (log entry 17): a byte below 16 is a request's `op`, any other byte a command byte, and 16 bits are a pixel. -/
def tableItem (cfg : Config) (nbits w : Nat) : Option Item :=
  if nbits ≤ 8 then
    if w < 16 then some (request (BitVec.ofNat 4 w) Ports.zero [])
    else
      let c := BitVec.ofNat 8 w
      if c = cfg.cmdCaset ∨ c = cfg.cmdPaset then some (named (c :: w4Params 0 0))
      else if c = cfg.cmdMadctl ∨ c = cfg.cmdPixfmt then some (named [c, 0])
      else if c = cfg.cmdSlpout ∨ c = cfg.cmdDispon ∨ c = cfg.cmdRamwr then some (named [c])
      else some (.wire ⟨.raw, [c]⟩)
  else if nbits ≤ 16 then
    some (.wire ⟨.pixels, [hi8 (BitVec.ofNat 16 w), lo8 (BitVec.ofNat 16 w)]⟩)
  else none

/-- What the decoder gives for a word of the opcode table, with the default command bytes. -/
def decodeTableWord (nbits w : Nat) : Option Instr :=
  match tableItem Config.default nbits w with
  | some it => (decode Config.default it).toOption
  | none => none

end Sys2Proof
end

