-- ==== Sys2Proof/Machine/State.lean ====
section
/-! DEFINITION. The state of the machine, plain data: DLB's registers, pins and flags, the trace, and the controller as the receiver model has it (10_state, 20_memory R75). -/

namespace Sys2Proof.Machine

/-! ### Wire events and what accompanies them -/

/-- The alphabet of the trace (00_scope R12). A level is `true` for 1. -/
inductive Event where
  /-- the data/command-select pin is driven to a level: 0 command, 1 data -/
  | dc (level : Bool)
  /-- the chip-select pin is driven to a level: 0 selected, 1 released -/
  | cs (level : Bool)
  /-- one byte is shifted out -/
  | tx (b : Byte)
  /-- the reset pin is driven to a level: 0 asserted, 1 released -/
  | rst (level : Bool)
  /-- at least this many milliseconds pass with no other event -/
  | wait (ms : Nat)
  deriving DecidableEq, Repr

/-- The register transfers an operation makes beside its events (10_state R33, R34, R37). -/
inductive Xfer where
  /-- `WX0 <- x0; WY0 <- y0; WX1 <- x1; WY1 <- y1` -/
  | window (x0 y0 x1 y1 : Half)
  /-- `CNT <- v` -/
  | cnt (v : Word)
  /-- `PTR <- v` -/
  | ptr (v : Word)
  /-- the whole chunk buffer filled with a colour's two bytes (R186) -/
  | cbFill (c : Colour)
  /-- a prefix of the chunk buffer refilled with pixels (R187) -/
  | cbLoad (ps : List Colour)
  /-- `INIT_DONE <- 1` (R161) -/
  | initDone
  deriving DecidableEq, Repr

/-- One element of an operation's event list, with the register transfers just before and just after it. -/
structure Beat where
  pre : List Xfer
  ev : Event
  post : List Xfer
  deriving DecidableEq, Repr

/-! ### Registers -/

/-- The five output pins (10_state R21 to R25). -/
structure Pins where
  cs : Bool
  dc : Bool
  rst : Bool
  sck : Bool
  mosi : Bool
  deriving DecidableEq, Repr

/-- The shift register and the bit counter (10_state R35). -/
structure Shifter where
  sr : BitVec 8
  bc : BitVec 3
  deriving DecidableEq, Repr

/-- The working registers and the chunk buffer (10_state R33, R34). -/
structure Work where
  wx0 : Half
  wy0 : Half
  wx1 : Half
  wy1 : Half
  cnt : Word
  ptr : Word
  cb : List Byte
  deriving DecidableEq, Repr

/-- Memory as bytes by address, addresses strictly rising; what is not listed is unknown (20_memory R76). -/
abbrev Memory := List Host.Cell

/-- The receiver state (20_memory R75). `none` of a window bound or of a cursor coordinate is the spec's "unknown"; `none` of
`cmd` and of `hold` is the spec's "none". -/
structure Rx where
  cs : Bool
  dc : Bool
  cmd : Option Byte
  pn : Nat
  p0 : Byte
  p1 : Byte
  p2 : Byte
  p3 : Byte
  sc : Option Half
  ec : Option Half
  sp : Option Half
  ep : Option Half
  col : Option Nat
  row : Option Nat
  hold : Option Byte
  gram : Memory
  deriving DecidableEq, Repr

/-- Which of the two readings of a request the step takes (00_scope R15, log entry 5). -/
inductive Grain where
  /-- one step runs a request whole (R15, R101 last part) -/
  | whole
  /-- one step accepts a request, and each further step emits one event (R36) -/
  | perEvent
  deriving DecidableEq, Repr

/-- The fault causes (60_exceptions R230). -/
inductive FaultCode where
  | opcode
  | uninit
  | reinit
  | window
  | length
  deriving DecidableEq, Repr

/-- The state of the machine: DLB, the trace, the controller, and the model's own fields. -/
structure State where
  /-- the configuration record (10_state R20) -/
  cfg : Config
  /-- the pins (R21) -/
  pins : Pins
  /-- the operand registers `A`, `B`, `C`, `D`, `V`, `N` (R30) -/
  regs : Ports
  /-- the working registers (R33, R34) -/
  work : Work
  /-- the shifter (R35) -/
  shifter : Shifter
  /-- `PH`, the sequencer phase; `none` is IDLE (R36) -/
  ph : Option Nat
  /-- `INIT_DONE` (R37) -/
  initDone : Bool
  /-- `BUSY` (R38) -/
  busy : Bool
  /-- `FAULT` (R39) -/
  fault : BitVec 3
  /-- `FINFO` (R39) -/
  finfo : Word
  /-- `RSP` (R40) -/
  rsp : Half
  /-- `T`, every event since block reset, oldest first (R43) -/
  trace : List Event
  /-- the controller (R42, 20_memory R75) -/
  rx : Rx
  /-- the model's own: the event list of the request in flight, fixed at acceptance (R36, log entry 7) -/
  prog : List Beat
  /-- the model's own: what the host has still to present (R44, log entry 4) -/
  input : List Item
  /-- the model's own: the reading the step takes (log entry 5) -/
  grain : Grain
  /-- the model's own: the level of the port `done` after the step (30_encoding R101, log entry 6) -/
  done : Bool
  deriving DecidableEq, Repr

/-! ### Stops -/

/-- The reasons a step stops with a fault. The architectural faults `F_OPCODE` to `F_LENGTH` are none of these: they are next
states with `FAULT` and `FINFO` written (60_exceptions R236). -/
inductive Fault where
  /-- Raised by a step in a state with `BUSY` = 1 whose `PH` is IDLE or is no index of the event list: no state of the hardware
  (10_state R36). Safe: no step leads from a state that meets the invariant to such a state (log entry 25). -/
  | phaseOutOfRange
  deriving DecidableEq, Repr

/-- The reasons a step is refused. -/
inductive Refusal where
  /-- Raised by an arm of `exec` that has no meaning yet: none has this now. Safe. -/
  | notModelled (mnemonic : String)
  /-- Raised by a step whose input is a wire word that is no wire instruction (log entry 28). A request never raises it. Safe. -/
  | undecodable (why : DecodeError)
  deriving DecidableEq, Repr

/-! ### Block reset -/

/-- The receiver after block reset (20_memory R76), seeing the pin levels of `State.reset`. -/
def Rx.reset : Rx where
  cs := true
  dc := false
  cmd := none
  pn := 0
  p0 := 0
  p1 := 0
  p2 := 0
  p3 := 0
  sc := none
  ec := none
  sp := none
  ep := none
  col := none
  row := none
  hold := none
  gram := []

/-- The state after block reset (10_state R45, 70_reset_and_hazards R260). What R45 leaves unspecified is zero (log entry 8). -/
def State.reset : State where
  cfg := Config.default
  pins := { cs := true, dc := false, rst := false, sck := false, mosi := false }
  regs := Ports.zero
  work := { wx0 := 0, wy0 := 0, wx1 := 0, wy1 := 0, cnt := 0, ptr := 0,
            cb := List.replicate (2 * Config.default.chunkPixels) 0 }
  shifter := { sr := 0, bc := 0 }
  ph := none
  initDone := false
  busy := false
  fault := 0
  finfo := 0
  rsp := 0
  trace := []
  rx := Rx.reset
  prog := []
  input := []
  grain := .whole
  done := false

end Sys2Proof.Machine
end

