-- ==== Sys2Proof/Machine/Operands.lean ====
section
/-! DEFINITION. Operand forms, the window test and the clip unit (30_encoding R104, 42_controller_protocol R166, 43_pixel_stream R189). -/

namespace Sys2Proof.Machine

/-- An 8-bit operand: bits 7:0 of a port, bits 15:8 ignored (R104). -/
def lowByte (v : Half) : Byte := lo8 v

/-- `signed_16(x)` (R104). -/
def signed16 (v : Half) : Int := v.toInt

/-- An unsigned 16-bit coordinate as an integer (10_state R32). -/
def unsigned16 (v : Half) : Int := (v.toNat : Int)

/-- An integer coordinate on the wire, 16 bits (20_memory R61). -/
def coord (x : Int) : Half := BitVec.ofInt 16 x

/-- `WindowOK` (R166). -/
def windowOK (cfg : Config) (x0 y0 x1 y1 : Int) : Bool :=
  decide (0 ≤ x0) && decide (x0 ≤ x1) && decide (x1 ≤ (cfg.width : Int) - 1) &&
    (decide (0 ≤ y0) && decide (y0 ≤ y1) && decide (y1 ≤ (cfg.height : Int) - 1))

/-- Whether a point lies on the panel: columns 0 to WIDTH-1, rows 0 to HEIGHT-1 (20_memory R73). -/
def onPanel (cfg : Config) (x y : Int) : Bool :=
  !(decide (x < 0) || decide (x ≥ (cfg.width : Int)) || decide (y < 0) || decide (y ≥ (cfg.height : Int)))

/-- A rectangle by its origin and extent. -/
structure Rect where
  x : Int
  y : Int
  w : Int
  h : Int
  deriving DecidableEq, Repr

/-- `ClipRect` (R189): nothing to draw, or a rectangle wholly in the panel, the origin never moved. -/
def clipRect (cfg : Config) (x y w h : Int) : Option Rect :=
  if !onPanel cfg x y then none
  else if w ≤ 0 ∨ h ≤ 0 then none
  else some { x := x, y := y, w := min w ((cfg.width : Int) - x), h := min h ((cfg.height : Int) - y) }

end Sys2Proof.Machine
end

