-- ==== Sys2Proof/Machine/Flags.lean ====
section
/-! DEFINITION. Fault codes and info words, the modes, and the result of COLOR565 (60_exceptions R230 to R240, 43_pixel_stream R181). -/

namespace Sys2Proof.Machine

/-- The number in `FAULT` of a cause (R230). -/
def faultCode : FaultCode → BitVec 3
  | .opcode => 1
  | .uninit => 2
  | .reinit => 3
  | .window => 4
  | .length => 5

/-- `zext_32(op)` of an operation number, the info word of `F_OPCODE` and `F_UNINIT` (R231, R232). -/
def opInfo (op : BitVec 4) : Word := op.zeroExtend 32

/-- One bit of a mask. -/
def maskBit (b : Prop) [Decidable b] (i : Nat) : Word := if b then BitVec.twoPow 32 i else 0

/-- The info word of `F_WINDOW` (R234). -/
def windowMask (cfg : Config) (x0 y0 x1 y1 : Int) : Word :=
  maskBit (x0 > x1) 0 ||| maskBit (x1 > (cfg.width : Int) - 1) 1 ||| maskBit (y0 > y1) 2 |||
    maskBit (y1 > (cfg.height : Int) - 1) 3 ||| maskBit (x0 < 0) 4 ||| maskBit (y0 < 0) 5

/-- The info word of `F_LENGTH`: `PAYLEN` (R235). -/
def lengthInfo (paylen : Nat) : Word := BitVec.ofNat 32 paylen

/-- The three modes (R240). -/
inductive Mode where
  | uninit
  | ready
  | faulted
  deriving DecidableEq, Repr

/-- The mode of a state, a function of `FAULT` and `INIT_DONE` (R240). -/
def modeOf (s : State) : Mode :=
  if s.fault ≠ 0 then .faulted else if s.initDone then .ready else .uninit

/-- `req_ready` = 1 exactly when `BUSY` = 0 (30_encoding R101). -/
def reqReady (s : State) : Bool := !s.busy

/-- The result of COLOR565: each channel truncated to its width (R181). -/
def color565 (r g b : Byte) : Colour :=
  packColour (r.extractLsb' 3 5) (g.extractLsb' 2 6) (b.extractLsb' 3 5)

end Sys2Proof.Machine
end

