-- ==== Sys2Proof/Machine/Gram.lean ====
section
/-! DEFINITION. Byte memory in canonical form, and the controller's pixel memory GRAM over it (20_memory R60, R73, R75). -/

namespace Sys2Proof.Machine

/-- What an address that is not listed reads as: unknown (R76). -/
def unlisted : Option Byte := none

/-- The byte at an address, or unknown. -/
def memRead (a : Nat) : Memory → Option Byte
  | [] => unlisted
  | c :: rest => if c.1 = a then some c.2 else memRead a rest

/-- The memory with a byte stored at an address, addresses kept strictly rising. -/
def memWrite (a : Nat) (v : Byte) : Memory → Memory
  | [] => [(a, v)]
  | c :: rest =>
    if a < c.1 then (a, v) :: c :: rest
    else if a = c.1 then (a, v) :: rest
    else c :: memWrite a v rest

/-- Every address of the memory is above a bound and they rise strictly. -/
def memAbove (lo : Nat) : Memory → Bool
  | [] => true
  | c :: rest => decide (lo < c.1) && memAbove c.1 rest

/-- The canonical form: addresses strictly rising. No entry can equal what an unlisted address reads as, which is no byte. -/
def Memory.wf : Memory → Bool
  | [] => true
  | c :: rest => memAbove c.1 rest

/-- Every byte unknown. -/
def memForget : Memory := []

/-- The byte address of the first byte of a pixel in the list. The spec gives GRAM no linear addresses: the key is the model's
(log entry 11). -/
def pixelKey (row col : Nat) : Nat := 2 * (row * 65536 + col)

/-- Whether (row, col) is an address of GRAM (R60, R73). -/
def gramAddress (cfg : Config) (row col : Nat) : Bool := decide (row < cfg.height) && decide (col < cfg.width)

/-- `GRAM[(row, col)]`, or unknown. -/
def gramRead (m : Memory) (row col : Nat) : Option Colour :=
  match memRead (pixelKey row col) m, memRead (pixelKey row col + 1) m with
  | some h, some l => some (join16 h l)
  | some _, none => none
  | none, _ => none

/-- `MemWrite((row, col), 2, v)` (R82). -/
def gramWrite (row col : Nat) (v : Colour) (m : Memory) : Memory :=
  memWrite (pixelKey row col + 1) (lo8 v) (memWrite (pixelKey row col) (hi8 v) m)

end Sys2Proof.Machine
end

