-- ==== Sys2Proof/Machine/Receiver.lean ====
section
/-! DEFINITION. The controller as the source describes it: what each wire event does to the receiver (20_memory R75 to R88). -/

namespace Sys2Proof.Machine

/-- The window is valid: all four bounds known, ordered and on the panel (R84). -/
def rxWindowValid (cfg : Config) (r : Rx) : Bool :=
  match r.sc, r.ec, r.sp, r.ep with
  | some sc, some ec, some sp, some ep =>
    decide (sc.toNat ≤ ec.toNat) && decide (ec.toNat < cfg.width) &&
      (decide (sp.toNat ≤ ep.toNat) && decide (ep.toNat < cfg.height))
  | _, _, _, _ => false

/-- The cursor becomes unknown. -/
def rxLoseCursor (r : Rx) : Rx := { r with col := none, row := none }

/-- The window becomes unknown. -/
def rxLoseWindow (r : Rx) : Rx := { r with sc := none, ec := none, sp := none, ep := none }

/-- `RST(0)`: everything but the pin levels and the stored parameter bytes is forgotten (R76). -/
def rxForget (r : Rx) : Rx :=
  { rxLoseCursor (rxLoseWindow r) with cmd := none, pn := 0, hold := none, gram := memForget }

/-- The cursor set to the window's first pixel (R78). -/
def rxHome (r : Rx) : Rx :=
  { r with col := r.sc.map BitVec.toNat, row := r.sp.map BitVec.toNat }

/-- A command byte (R78). -/
def rxCommand (cfg : Config) (b : Byte) (r : Rx) : Rx :=
  let r := { r with cmd := some b, pn := 0, hold := none }
  if b = cfg.cmdRamwr then
    if rxWindowValid cfg r then rxHome r else rxLoseCursor r
  else if b = cfg.cmdCaset ∨ b = cfg.cmdPaset then r
  else rxLoseCursor (rxLoseWindow r)

/-- `rx.p[rx.pn] <- b` for `rx.pn` < 4 (R80). -/
def rxSetParam (b : Byte) (r : Rx) : Rx :=
  match r.pn with
  | 0 => { r with p0 := b }
  | 1 => { r with p1 := b }
  | 2 => { r with p2 := b }
  | 3 => { r with p3 := b }
  | _ + 4 => r

/-- A data byte under column-address-set, before `rx.pn` is counted (R80). -/
def rxColumnByte (b : Byte) (r : Rx) : Rx :=
  let q := rxSetParam b r
  if r.pn = 3 then { q with sc := some (join16 q.p0 q.p1), ec := some (join16 q.p2 q.p3) } else q

/-- A data byte under row-address-set, before `rx.pn` is counted (R81). -/
def rxRowByte (b : Byte) (r : Rx) : Rx :=
  let q := rxSetParam b r
  if r.pn = 3 then { q with sp := some (join16 q.p0 q.p1), ep := some (join16 q.p2 q.p3) } else q

/-- The cursor advances: column within row, row within window, wrapping at the window's edges (R82). With a bound unknown,
which no run reaches, the cursor becomes unknown (log entry 12). -/
def rxAdvance (col row : Nat) (r : Rx) : Rx :=
  match r.sc, r.ec, r.sp, r.ep with
  | some sc, some ec, some sp, some ep =>
    if col < ec.toNat then { r with col := some (col + 1), row := some row }
    else { r with col := some sc.toNat, row := some (if row < ep.toNat then row + 1 else sp.toNat) }
  | _, _, _, _ => rxLoseCursor r

/-- The pixel is complete: it is written at the cursor, and the cursor advances (R82). A cursor that is no address of GRAM, which
no run reaches, makes all of GRAM unknown (log entry 12). -/
def rxPixel (cfg : Config) (col row : Nat) (hi lo : Byte) (r : Rx) : Rx :=
  let gram := if gramAddress cfg row col then gramWrite row col (join16 hi lo) r.gram else memForget
  rxAdvance col row { r with gram := gram, hold := none }

/-- A data byte under memory-write, before `rx.pn` is counted (R82). -/
def rxPixelByte (cfg : Config) (b : Byte) (r : Rx) : Rx :=
  match r.col, r.row with
  | some col, some row =>
    match r.hold with
    | none => { r with hold := some b }
    | some h => rxPixel cfg col row h b r
  | _, _ => { r with gram := memForget }

/-- A data byte for the command in effect (R79 to R83). -/
def rxData (cfg : Config) (b : Byte) (r : Rx) : Rx :=
  match r.cmd with
  | none => r
  | some c =>
    let q :=
      if c = cfg.cmdRamwr then rxPixelByte cfg b r
      else if c = cfg.cmdCaset then rxColumnByte b r
      else if c = cfg.cmdPaset then rxRowByte b r
      else r
    { q with pn := r.pn + 1 }

/-- Half a pixel is lost (R85). -/
def rxResyncPixel (r : Rx) : Rx :=
  match r.hold with
  | some _ => rxLoseCursor { r with hold := none }
  | none => r

/-- Half a coordinate is lost: the range the command sets becomes unknown (R85, log entry 13). -/
def rxResyncParam (cfg : Config) (r : Rx) : Rx :=
  if r.pn = 1 ∨ r.pn = 3 then
    if r.cmd = some cfg.cmdCaset then { r with sc := none, ec := none, pn := 4 }
    else if r.cmd = some cfg.cmdPaset then { r with sp := none, ep := none, pn := 4 }
    else r
  else r

/-- What one wire event does to the receiver (R76 to R85). -/
def rxEvent (cfg : Config) (e : Event) (r : Rx) : Rx :=
  match e with
  | .dc l => { r with dc := l }
  | .cs false => { r with cs := false }
  | .cs true => rxResyncParam cfg (rxResyncPixel { r with cs := true })
  | .tx b => if r.cs then r else if r.dc then rxData cfg b r else rxCommand cfg b r
  | .rst false => rxForget r
  | .rst true => r
  | .wait _ => r

/-- What a list of wire events does to the receiver, each completely before the next (R90). -/
def rxRun (cfg : Config) (es : List Event) (r : Rx) : Rx :=
  es.foldl (fun q e => rxEvent cfg e q) r

end Sys2Proof.Machine
end

