-- ==== Sys2Proof/Machine/Ops.lean ====
section
/-! DEFINITION. The shared operations: emitting an event, register transfers, frames, raising a fault, and taking a request, whole or event by event (00_scope R12 to R16, 10_state R27 to R39, 60_exceptions R236, R237). -/

namespace Sys2Proof.Machine

/-! ### The bit level of TX (41_bus_transport R141) -/

/-- One drive of a shifter pin. -/
inductive PinDrive where
  | mosi (level : Bool)
  | sck (level : Bool)
  deriving DecidableEq, Repr

/-- One clock pulse with one data bit: data while the clock is low, then the clock high, then low (R141). -/
def pulse (bit : Bool) : List PinDrive := [.mosi bit, .sck true, .sck false]

/-- `k` pulses of the shifter: each drives the register's most significant bit, shifts it left once and counts (R141). -/
def shiftPulses : Nat → Shifter → List PinDrive × Shifter
  | 0, sh => ([], sh)
  | k + 1, sh =>
    let r := shiftPulses k { sr := sh.sr <<< 1, bc := sh.bc + 1 }
    (pulse sh.sr.msb ++ r.1, r.2)

/-- A byte shifted out: `SR` loaded, `BC` at 0, eight pulses (R141, log entry 19). -/
def shiftOut (b : Byte) : List PinDrive × Shifter := shiftPulses 8 { sr := b, bc := 0 }

/-- What one drive does to the pins. -/
def drivePin (p : Pins) : PinDrive → Pins
  | .mosi l => { p with mosi := l }
  | .sck l => { p with sck := l }

/-! ### Events -/

/-- What an event does to the pins: a level event sets its latch (R27), a byte goes through the shifter (R141), a wait moves
nothing (60_exceptions R250). -/
def drivePins (e : Event) (p : Pins) : Pins :=
  match e with
  | .dc l => { p with dc := l }
  | .cs l => { p with cs := l }
  | .rst l => { p with rst := l }
  | .tx b => (shiftOut b).1.foldl drivePin p
  | .wait _ => p

/-- What an event does to the shifter (R35, R141). -/
def driveShifter (e : Event) (sh : Shifter) : Shifter :=
  match e with
  | .tx b => (shiftOut b).2
  | .dc _ => sh
  | .cs _ => sh
  | .rst _ => sh
  | .wait _ => sh

/-- `emit(e)` (00_scope R12, 10_state R27): the pins move, the event is appended to the trace, and the controller receives it at
once (20_memory R90). -/
def emit (e : Event) (s : State) : State :=
  { s with pins := drivePins e s.pins, shifter := driveShifter e s.shifter, trace := s.trace ++ [e],
           rx := rxEvent s.cfg e s.rx }

/-! ### Register transfers -/

/-- A colour's two bytes, most significant first (20_memory R61). -/
def pixelBytes (v : Colour) : List Byte := [hi8 v, lo8 v]

/-- The bytes of a list of pixels. -/
def pixelsBytes (ps : List Colour) : List Byte := ps.flatMap pixelBytes

/-- The chunk buffer filled with a colour (43_pixel_stream R186). -/
def fillPattern (chunk : Nat) (c : Colour) : List Byte := pixelsBytes (List.replicate chunk c)

/-- A prefix of the chunk buffer refilled, the rest left (R187). -/
def loadPrefix (bs cb : List Byte) : List Byte := bs ++ cb.drop bs.length

/-- A register transfer. -/
def applyXfer (x : Xfer) (s : State) : State :=
  match x with
  | .window x0 y0 x1 y1 => { s with work := { s.work with wx0 := x0, wy0 := y0, wx1 := x1, wy1 := y1 } }
  | .cnt v => { s with work := { s.work with cnt := v } }
  | .ptr v => { s with work := { s.work with ptr := v } }
  | .cbFill c => { s with work := { s.work with cb := fillPattern s.cfg.chunkPixels c } }
  | .cbLoad ps => { s with work := { s.work with cb := loadPrefix (pixelsBytes ps) s.work.cb } }
  | .initDone => { s with initDone := true }

/-- Register transfers in order. -/
def applyXfers (xs : List Xfer) (s : State) : State := xs.foldl (fun t x => applyXfer x t) s

/-- One beat: the transfers before the event, the event, the transfers after it. -/
def runBeat (b : Beat) (s : State) : State := applyXfers b.post (emit b.ev (applyXfers b.pre s))

/-- Beats in order. -/
def runBeats (bs : List Beat) (s : State) : State := bs.foldl (fun t b => runBeat b t) s

/-- The event list `E` of a list of beats (R36). -/
def eventsOf (bs : List Beat) : List Event := bs.map Beat.ev

/-! ### Frames (00_scope R13, 30_encoding R112) -/

/-- An event with no register transfer. -/
def bare (e : Event) : Beat := { pre := [], ev := e, post := [] }

/-- `Frame(dc, bs)` (R13), with register transfers before its first and after its last event. -/
def frameWith (pre : List Xfer) (dc : Bool) (bs : List Byte) (post : List Xfer) : List Beat :=
  { pre := pre, ev := .dc dc, post := [] } :: bare (.cs false) ::
    (bs.map (fun b => bare (.tx b)) ++ [{ pre := [], ev := .cs true, post := post }])

/-- `Frame(dc, bs)` (R13). -/
def frame (dc : Bool) (bs : List Byte) : List Beat := frameWith [] dc bs []

/-- `K(c)`: a command frame (R112). -/
def frameK (c : Byte) : List Beat := frame false [c]

/-- `Q(b)`: a data frame of one byte (R112). -/
def frameQ (b : Byte) : List Beat := frame true [b]

/-- `P(v)`: a data frame of one 16-bit value (R112). -/
def frameP (v : Half) : List Beat := frame true [hi8 v, lo8 v]

/-! ### Taking a request -/

/-- What the checks and the operation's rule give for a request (00_scope R15). -/
inductive Verdict where
  /-- a check failed: the cause and its info word -/
  | fault (cause : FaultCode) (info : Word)
  /-- a response value and no event (30_encoding R105) -/
  | respond (v : Half)
  /-- the event list with its register transfers, empty for a no-op -/
  | run (bs : List Beat)
  deriving DecidableEq, Repr

/-- What acceptance fixes (30_encoding R101): the ports to load, none for a wire instruction, and the verdict. -/
structure Job where
  ports : Option Ports
  verdict : Verdict
  deriving DecidableEq, Repr

/-- The operand registers loaded, all six at once (10_state R31). -/
def loadPorts (p : Option Ports) (s : State) : State :=
  match p with
  | some q => { s with regs := q }
  | none => s

/-- `raise F_X(info)` (60_exceptions R236): `FAULT` and `FINFO` written, nothing else. -/
def raiseFault (cause : FaultCode) (info : Word) (s : State) : State :=
  { s with fault := faultCode cause, finfo := info }

/-- The request carried out whole (R15). -/
def settle (v : Verdict) (s : State) : State :=
  match v with
  | .fault cause info => raiseFault cause info s
  | .respond x => { s with rsp := x }
  | .run bs => runBeats bs s

/-- A request taken whole (R15, R101). With `BUSY` = 1 it is not accepted and nothing happens (R101, log entry 15). With `FAULT`
not 0 it is accepted and refused: nothing changes and it completes (60_exceptions R237, log entry 14). -/
def perform (j : Job) (s : State) : Host.Outcome State Fault Refusal :=
  .next (
    if s.busy then s
    else if s.fault ≠ 0 then { s with done := true }
    else { settle j.verdict (loadPorts j.ports s) with done := true })

/-- A request accepted, its events still to be emitted (R101, 10_state R36); one with no event completes at acceptance. -/
def accept (j : Job) (s : State) : Host.Outcome State Fault Refusal :=
  match j.verdict with
  | .run (b :: bs) =>
    .next (
      if s.busy then s
      else if s.fault ≠ 0 then { s with done := true }
      else { loadPorts j.ports s with busy := true, ph := some 0, prog := b :: bs, done := false })
  | .run [] => perform j s
  | .fault _ _ => perform j s
  | .respond _ => perform j s

/-- One step of DLB in phase i: event i is emitted, and the phase moves on, or to IDLE with `BUSY` cleared and `done` pulsed after
the last (10_state R36, 30_encoding R101). -/
def tick (s : State) : Host.Outcome State Fault Refusal :=
  match s.ph with
  | none => .fault .phaseOutOfRange
  | some i =>
    match s.prog[i]? with
    | none => .fault .phaseOutOfRange
    | some b =>
      if i + 1 < s.prog.length then
        .next { runBeat b s with ph := some (i + 1), done := false }
      else
        .next { runBeat b s with ph := none, busy := false, prog := [], done := true }

/-! ### Checks shared by operations -/

/-- The mode check of a draw-class operation (R232, R240), then the rest. -/
def needInit (op : BitVec 4) (s : State) (rest : Verdict) : Verdict :=
  if s.initDone then rest else .fault .uninit (opInfo op)

/-- The window check (R166, R234), then the rest. -/
def needWindow (cfg : Config) (x0 y0 x1 y1 : Int) (rest : Verdict) : Verdict :=
  if windowOK cfg x0 y0 x1 y1 then rest else .fault .window (windowMask cfg x0 y0 x1 y1)

/-- The payload length check (R235), then the rest. -/
def needLength (paylen : Nat) (count : Int) (rest : Verdict) : Verdict :=
  if (paylen : Int) = count then rest else .fault .length (lengthInfo paylen)

end Sys2Proof.Machine
end

