-- ==== Sys2Proof/Machine/Stream.lean ====
section
/-! DEFINITION. The two engines of the pixel-stream writer (43_pixel_stream R186, R187). -/

namespace Sys2Proof.Machine

/-- The chunks of StreamFill while `CNT` bytes are left, each a prefix of the filled buffer (R186). `fuel` bounds the loop, which a
chunk of at least one pixel ends before. -/
def fillChunks (cb : List Byte) (chunk : Nat) (pre : List Xfer) : Nat → Nat → List Beat
  | 0, _ => []
  | fuel + 1, cnt =>
    if cnt = 0 then []
    else
      let n := min cnt (2 * chunk)
      frameWith pre true (cb.take n) [.cnt (BitVec.ofNat 32 (cnt - n))] ++ fillChunks cb chunk [] fuel (cnt - n)

/-- `StreamFill(color, npix)` (R186). -/
def streamFill (chunk : Nat) (c : Colour) (npix : Nat) : List Beat :=
  fillChunks (fillPattern chunk c) chunk [.cbFill c, .cnt (BitVec.ofNat 32 (2 * npix))] npix (2 * npix)

/-- The chunks of StreamPixels from payload item `ptr` on (R187). -/
def pixelChunks (chunk : Nat) (pre : List Xfer) : Nat → Nat → List Colour → List Beat
  | 0, _, _ => []
  | fuel + 1, ptr, pay =>
    if pay = [] then []
    else
      let m := min pay.length chunk
      frameWith (pre ++ [.cbLoad (pay.take m)]) true (pixelsBytes (pay.take m))
          [.ptr (BitVec.ofNat 32 (ptr + m)), .cnt (BitVec.ofNat 32 (2 * (pay.length - m)))] ++
        pixelChunks chunk [] fuel (ptr + m) (pay.drop m)

/-- `StreamPixels(PAY, npix)` with `PAYLEN` = npix (R187). -/
def streamPixels (chunk : Nat) (pay : List Colour) : List Beat :=
  pixelChunks chunk [.ptr 0, .cnt (BitVec.ofNat 32 (2 * pay.length))] pay.length 0 pay

end Sys2Proof.Machine
end

