-- ==== Sys2Proof/Machine/Transport.lean ====
section
/-! DEFINITION. The bus transport operations (41_bus_transport R145 to R151). -/

namespace Sys2Proof.Machine

/-- SEND_CMD (R145). -/
def jobSendCmd (p : Ports) (_ : State) : Job := ⟨some p, .run (frameK (lowByte p.v))⟩

def execSendCmd (p : Ports) (s : State) : Host.Outcome State Fault Refusal := perform (jobSendCmd p s) s

/-- SEND_DATA (R146). -/
def jobSendData (p : Ports) (_ : State) : Job := ⟨some p, .run (frameQ (lowByte p.v))⟩

def execSendData (p : Ports) (s : State) : Host.Outcome State Fault Refusal := perform (jobSendData p s) s

/-- SEND_DATA16 (R147). -/
def jobSendData16 (p : Ports) (_ : State) : Job := ⟨some p, .run (frameP p.v)⟩

def execSendData16 (p : Ports) (s : State) : Host.Outcome State Fault Refusal := perform (jobSendData16 p s) s

/-- The bytes of a stream from item `i` on: after each, `PTR` has risen and `CNT` fallen by one (R148). -/
def streamBytes : Nat → List Byte → List Beat
  | _, [] => []
  | i, b :: bs =>
    { pre := [], ev := .tx b, post := [.ptr (BitVec.ofNat 32 (i + 1)), .cnt (BitVec.ofNat 32 bs.length)] } ::
      streamBytes (i + 1) bs

/-- The one frame of a stream (R148). -/
def streamFrame (bs : List Byte) : List Beat :=
  { pre := [.ptr 0, .cnt (BitVec.ofNat 32 bs.length)], ev := .dc true, post := [] } :: bare (.cs false) ::
    (streamBytes 0 bs ++ [bare (.cs true)])

/-- SEND_STREAM (R148). -/
def jobSendStream (p : Ports) (pay : List Byte) (_ : State) : Job :=
  ⟨some p, needLength pay.length (p.n.toNat : Int) (.run (streamFrame pay))⟩

def execSendStream (p : Ports) (pay : List Byte) (s : State) : Host.Outcome State Fault Refusal :=
  perform (jobSendStream p pay s) s

/-- RST_ASSERT (R149). -/
def jobRstAssert (p : Ports) (_ : State) : Job := ⟨some p, .run [bare (.rst false)]⟩

def execRstAssert (p : Ports) (s : State) : Host.Outcome State Fault Refusal := perform (jobRstAssert p s) s

/-- RST_RELEASE (R150). -/
def jobRstRelease (p : Ports) (_ : State) : Job := ⟨some p, .run [bare (.rst true)]⟩

def execRstRelease (p : Ports) (s : State) : Host.Outcome State Fault Refusal := perform (jobRstRelease p s) s

/-- The controller reset sequence (R151). -/
def resetBeats : List Beat :=
  [bare (.rst true), bare (.wait tRstSettle), bare (.rst false), bare (.wait tRstPulse), bare (.rst true),
   bare (.wait tRstInit)]

/-- RESET_SEQ (R151). -/
def jobResetSeq (p : Ports) (_ : State) : Job := ⟨some p, .run resetBeats⟩

def execResetSeq (p : Ports) (s : State) : Host.Outcome State Fault Refusal := perform (jobResetSeq p s) s

end Sys2Proof.Machine
end

