-- ==== Sys2Proof/Machine/Wire.lean ====
section
/-! DEFINITION. The wire instructions: their frames cross the wire (30_encoding R112) and the controller takes them (20_memory R77 to R85). They load no operand register; log entry 16 says when one runs by itself. -/

namespace Sys2Proof.Machine

/-- Sleep-out, format W0 (R115). -/
def beatsSlpout (cfg : Config) : List Beat := frameK cfg.cmdSlpout

def jobSlpout (s : State) : Job := ⟨none, .run (beatsSlpout s.cfg)⟩

def execSlpout (s : State) : Host.Outcome State Fault Refusal := perform (jobSlpout s) s

/-- Display-on, format W0 (R115), with the register transfers its sender makes after it. -/
def beatsDispon (cfg : Config) (post : List Xfer) : List Beat := frameWith [] false [cfg.cmdDispon] post

def jobDispon (s : State) : Job := ⟨none, .run (beatsDispon s.cfg [])⟩

def execDispon (s : State) : Host.Outcome State Fault Refusal := perform (jobDispon s) s

/-- Column-address-set, format W4 (R115, 20_memory R64), with the register transfers its sender makes before it. -/
def beatsCaset (cfg : Config) (pre : List Xfer) (first last : Half) : List Beat :=
  frameWith pre false [cfg.cmdCaset] [] ++ frameP first ++ frameP last

def jobCaset (first last : Half) (s : State) : Job := ⟨none, .run (beatsCaset s.cfg [] first last)⟩

def execCaset (first last : Half) (s : State) : Host.Outcome State Fault Refusal :=
  perform (jobCaset first last s) s

/-- Row-address-set, format W4 (R115, 20_memory R64). -/
def beatsPaset (cfg : Config) (first last : Half) : List Beat :=
  frameK cfg.cmdPaset ++ frameP first ++ frameP last

def jobPaset (first last : Half) (s : State) : Job := ⟨none, .run (beatsPaset s.cfg first last)⟩

def execPaset (first last : Half) (s : State) : Host.Outcome State Fault Refusal :=
  perform (jobPaset first last s) s

/-- Memory-write, format W0 (R115): no data bytes of its own. -/
def beatsRamwr (cfg : Config) : List Beat := frameK cfg.cmdRamwr

def jobRamwr (s : State) : Job := ⟨none, .run (beatsRamwr s.cfg)⟩

def execRamwr (s : State) : Host.Outcome State Fault Refusal := perform (jobRamwr s) s

/-- Memory-access-control, format W1 (R115). -/
def beatsMadctl (cfg : Config) (param : Byte) : List Beat := frameK cfg.cmdMadctl ++ frameQ param

def jobMadctl (param : Byte) (s : State) : Job := ⟨none, .run (beatsMadctl s.cfg param)⟩

def execMadctl (param : Byte) (s : State) : Host.Outcome State Fault Refusal := perform (jobMadctl param s) s

/-- Pixel-format selection, format W1 (R115). -/
def beatsPixfmt (cfg : Config) (param : Byte) : List Beat := frameK cfg.cmdPixfmt ++ frameQ param

def jobPixfmt (param : Byte) (s : State) : Job := ⟨none, .run (beatsPixfmt s.cfg param)⟩

def execPixfmt (param : Byte) (s : State) : Host.Outcome State Fault Refusal := perform (jobPixfmt param s) s

/-- An entry of `INIT_TABLE`, format WT: each parameter byte a frame of its own (R112, R113, R116). -/
def beatsTableEntry (cmd : Byte) (params : List Byte) : List Beat := frameK cmd ++ params.flatMap frameQ

def jobTableEntry (cmd : Byte) (params : List Byte) (_ : State) : Job := ⟨none, .run (beatsTableEntry cmd params)⟩

def execTableEntry (cmd : Byte) (params : List Byte) (s : State) : Host.Outcome State Fault Refusal :=
  perform (jobTableEntry cmd params s) s

/-- The command byte of a raw SEND_CMD, format W0, any byte (R116, R122). -/
def beatsRawCmd (cmd : Byte) : List Beat := frameK cmd

def jobRawCmd (cmd : Byte) (_ : State) : Job := ⟨none, .run (beatsRawCmd cmd)⟩

def execRawCmd (cmd : Byte) (s : State) : Host.Outcome State Fault Refusal := perform (jobRawCmd cmd s) s

/-- One pixel, format WD: its two bytes in one frame (R118). -/
def beatsPixel (v : Colour) : List Beat := frameP v

def jobPixel (r : BitVec 5) (g : BitVec 6) (b : BitVec 5) (_ : State) : Job := ⟨none, .run (beatsPixel (packColour r g b))⟩

def execPixel (r : BitVec 5) (g : BitVec 6) (b : BitVec 5) (s : State) : Host.Outcome State Fault Refusal :=
  perform (jobPixel r g b s) s

end Sys2Proof.Machine
end

