-- ==== Sys2Proof/Machine/Protocol.lean ====
section
/-! DEFINITION. The controller protocol operations (42_controller_protocol R161, R165, R168). -/

namespace Sys2Proof.Machine

/-- The events of INIT: reset, the table in order, pixel format, memory-access-control, sleep-out, the settle, display-on; then
`INIT_DONE` (R161). -/
def initBeats (cfg : Config) : List Beat :=
  resetBeats ++ cfg.initTable.flatMap (fun e => beatsTableEntry e.cmd e.params) ++
    beatsPixfmt cfg cfg.pixfmt16bpp ++ beatsMadctl cfg cfg.madctlValue ++ beatsSlpout cfg ++
    [bare (.wait tSlpout)] ++ beatsDispon cfg [.initDone]

/-- INIT (R161). -/
def jobInit (p : Ports) (s : State) : Job :=
  ⟨some p, if s.initDone then .fault .reinit 0 else .run (initBeats s.cfg)⟩

def execInit (p : Ports) (s : State) : Host.Outcome State Fault Refusal := perform (jobInit p s) s

/-- SET_WINDOW's events: column range, row range, memory-write, the four coordinates latched first (R165). -/
def windowBeats (cfg : Config) (x0 y0 x1 y1 : Int) : List Beat :=
  beatsCaset cfg [.window (coord x0) (coord y0) (coord x1) (coord y1)] (coord x0) (coord x1) ++
    beatsPaset cfg (coord y0) (coord y1) ++ beatsRamwr cfg

/-- SET_WINDOW called by another operation, with its own window check, then the rest of that operation's events (00_scope R16). -/
def windowThen (cfg : Config) (x0 y0 x1 y1 : Int) (rest : List Beat) : Verdict :=
  needWindow cfg x0 y0 x1 y1 (.run (windowBeats cfg x0 y0 x1 y1 ++ rest))

/-- SET_WINDOW (R165). -/
def jobSetWindow (p : Ports) (s : State) : Job :=
  ⟨some p, needInit 8 s
    (windowThen s.cfg (unsigned16 p.a) (unsigned16 p.b) (unsigned16 p.c) (unsigned16 p.d) [])⟩

def execSetWindow (p : Ports) (s : State) : Host.Outcome State Fault Refusal := perform (jobSetWindow p s) s

/-- FILL_SCREEN (R168). -/
def jobFillScreen (p : Ports) (s : State) : Job :=
  ⟨some p, needInit 9 s
    (windowThen s.cfg 0 0 ((s.cfg.width : Int) - 1) ((s.cfg.height : Int) - 1)
      (streamFill s.cfg.chunkPixels p.v (s.cfg.width * s.cfg.height)))⟩

def execFillScreen (p : Ports) (s : State) : Host.Outcome State Fault Refusal := perform (jobFillScreen p s) s

end Sys2Proof.Machine
end

