-- ==== Sys2Proof/Machine/Pixel.lean ====
section
/-! DEFINITION. COLOR565 and the drawing operations of the pixel-stream writer (43_pixel_stream R181, R184, R185, R188). -/

namespace Sys2Proof.Machine

/-- DRAW_PIXEL (R184). -/
def jobDrawPixel (p : Ports) (s : State) : Job :=
  let x := signed16 p.a
  let y := signed16 p.b
  ⟨some p, needInit 10 s
    (if onPanel s.cfg x y then windowThen s.cfg x y x y (frameP p.v) else .run [])⟩

def execDrawPixel (p : Ports) (s : State) : Host.Outcome State Fault Refusal := perform (jobDrawPixel p s) s

/-- FILL_RECT (R185). -/
def jobFillRect (p : Ports) (s : State) : Job :=
  ⟨some p, needInit 11 s
    (match clipRect s.cfg (signed16 p.a) (signed16 p.b) (signed16 p.c) (signed16 p.d) with
      | none => .run []
      | some r =>
        windowThen s.cfg r.x r.y (r.x + r.w - 1) (r.y + r.h - 1)
          (streamFill s.cfg.chunkPixels p.v (r.w * r.h).toNat))⟩

def execFillRect (p : Ports) (s : State) : Host.Outcome State Fault Refusal := perform (jobFillRect p s) s

/-- DRAW_BITMAP (R188): mode, then window, then length; no clipping. -/
def jobDrawBitmap (p : Ports) (pay : List Colour) (s : State) : Job :=
  let x := signed16 p.a
  let y := signed16 p.b
  let w := signed16 p.c
  let h := signed16 p.d
  ⟨some p, needInit 12 s
    (needWindow s.cfg x y (x + w - 1) (y + h - 1)
      (needLength pay.length (w * h)
        (windowThen s.cfg x y (x + w - 1) (y + h - 1) (streamPixels s.cfg.chunkPixels pay))))⟩

def execDrawBitmap (p : Ports) (pay : List Colour) (s : State) : Host.Outcome State Fault Refusal :=
  perform (jobDrawBitmap p pay s) s

/-- COLOR565 (R181). -/
def jobColor565 (p : Ports) (_ : State) : Job :=
  ⟨some p, .respond (color565 (lowByte p.a) (lowByte p.b) (lowByte p.c))⟩

def execColor565 (p : Ports) (s : State) : Host.Outcome State Fault Refusal := perform (jobColor565 p s) s

end Sys2Proof.Machine
end

