-- ==== Sys2Proof/Machine/Reserved.lean ====
section
/-! DEFINITION. The reserved operation numbers 14 and 15 (30_encoding R120, 60_exceptions R231). -/

namespace Sys2Proof.Machine

/-- Reserved `op` 14 raises `F_OPCODE` (R231). -/
def jobReserved14 (p : Ports) (_ : State) : Job := ⟨some p, .fault .opcode (opInfo 14)⟩

def execReserved14 (p : Ports) (s : State) : Host.Outcome State Fault Refusal := perform (jobReserved14 p s) s

/-- Reserved `op` 15 raises `F_OPCODE` (R231). -/
def jobReserved15 (p : Ports) (_ : State) : Job := ⟨some p, .fault .opcode (opInfo 15)⟩

def execReserved15 (p : Ports) (s : State) : Host.Outcome State Fault Refusal := perform (jobReserved15 p s) s

end Sys2Proof.Machine
end

