-- ==== Sys2Proof/Machine/Jobs.lean ====
section
/-! DEFINITION. What acceptance fixes for each instruction (30_encoding R101): the ports to load and the verdict of the checks and of the operation's rule. -/

namespace Sys2Proof.Machine

/-- The job of an instruction: for every instruction, its meaning performs this job, and the event-by-event reading accepts it. -/
def jobOf (i : Instr) (s : State) : Job :=
  match i with
  | .sendCmd p => jobSendCmd p s
  | .sendData p => jobSendData p s
  | .sendData16 p => jobSendData16 p s
  | .sendStream p pay => jobSendStream p pay s
  | .rstAssert p => jobRstAssert p s
  | .rstRelease p => jobRstRelease p s
  | .resetSeq p => jobResetSeq p s
  | .init p => jobInit p s
  | .setWindow p => jobSetWindow p s
  | .fillScreen p => jobFillScreen p s
  | .drawPixel p => jobDrawPixel p s
  | .fillRect p => jobFillRect p s
  | .drawBitmap p pay => jobDrawBitmap p pay s
  | .color565 p => jobColor565 p s
  | .reserved14 p => jobReserved14 p s
  | .reserved15 p => jobReserved15 p s
  | .slpout => jobSlpout s
  | .dispon => jobDispon s
  | .caset first last => jobCaset first last s
  | .paset first last => jobPaset first last s
  | .ramwr => jobRamwr s
  | .madctl param => jobMadctl param s
  | .pixfmt param => jobPixfmt param s
  | .tableEntry cmd params => jobTableEntry cmd params s
  | .rawCmd cmd => jobRawCmd cmd s
  | .pixel r g b => jobPixel r g b s

/-! ### The input (30_encoding R101, log entry 4) -/

/-- Nothing is presented: DLB does nothing (70_reset_and_hazards R260). -/
def waitForItem (s : State) : Host.Outcome State Fault Refusal := .next { s with done := false }

/-- The item first on the input has been taken off, the rest still to be presented. -/
def takeItem (rest : List Item) (s : State) : State := { s with input := rest, done := false }

/-- An item presented to an idle block ahead of all others, to be taken whole. -/
def placeItem (it : Item) (s : State) : State :=
  { s with input := it :: s.input, busy := false, ph := none, prog := [], grain := .whole }

end Sys2Proof.Machine
end

