-- ==== Sys2Proof/Machine/Dispatch.lean ====
section
/-! DEFINITION. The one match from instructions to their meanings. -/

namespace Sys2Proof.Machine

/-- The meaning of an instruction: the big-step function of 00_scope R15. -/
def exec (i : Instr) (s : State) : Host.Outcome State Fault Refusal :=
  match i with
  | .sendCmd p => Sys2Proof.Machine.execSendCmd p s
  | .sendData p => Sys2Proof.Machine.execSendData p s
  | .sendData16 p => Sys2Proof.Machine.execSendData16 p s
  | .sendStream p pay => Sys2Proof.Machine.execSendStream p pay s
  | .rstAssert p => Sys2Proof.Machine.execRstAssert p s
  | .rstRelease p => Sys2Proof.Machine.execRstRelease p s
  | .resetSeq p => Sys2Proof.Machine.execResetSeq p s
  | .init p => Sys2Proof.Machine.execInit p s
  | .setWindow p => Sys2Proof.Machine.execSetWindow p s
  | .fillScreen p => Sys2Proof.Machine.execFillScreen p s
  | .drawPixel p => Sys2Proof.Machine.execDrawPixel p s
  | .fillRect p => Sys2Proof.Machine.execFillRect p s
  | .drawBitmap p pay => Sys2Proof.Machine.execDrawBitmap p pay s
  | .color565 p => Sys2Proof.Machine.execColor565 p s
  | .reserved14 p => Sys2Proof.Machine.execReserved14 p s
  | .reserved15 p => Sys2Proof.Machine.execReserved15 p s
  | .slpout => Sys2Proof.Machine.execSlpout s
  | .dispon => Sys2Proof.Machine.execDispon s
  | .caset first last => Sys2Proof.Machine.execCaset first last s
  | .paset first last => Sys2Proof.Machine.execPaset first last s
  | .ramwr => Sys2Proof.Machine.execRamwr s
  | .madctl param => Sys2Proof.Machine.execMadctl param s
  | .pixfmt param => Sys2Proof.Machine.execPixfmt param s
  | .tableEntry cmd params => Sys2Proof.Machine.execTableEntry cmd params s
  | .rawCmd cmd => Sys2Proof.Machine.execRawCmd cmd s
  | .pixel r g b => Sys2Proof.Machine.execPixel r g b s

end Sys2Proof.Machine
end

