-- ==== Sys2Proof/Machine/Step.lean ====
section
/-! DEFINITION. One step of the machine. -/

namespace Sys2Proof.Machine

/-- One step. With `BUSY` = 1 the sequencer emits the next event (10_state R36). Otherwise what stands first on the input is
decoded and taken, whole or by acceptance alone, as the reading says (00_scope R15, log entry 5); with nothing on the input DLB does
nothing (70_reset_and_hazards R260). -/
def step (s : State) : Host.Outcome State Fault Refusal :=
  if s.busy then tick s
  else
    match s.input with
    | [] => waitForItem s
    | it :: rest =>
      match decode s.cfg it with
      | .error why => .refused (.undecodable why)
      | .ok i =>
        match s.grain with
        | .whole => exec i (takeItem rest s)
        | .perEvent => accept (jobOf i (takeItem rest s)) (takeItem rest s)

/-- The state with a word of the opcode table first on the input, presented to an idle block and to be taken whole. -/
def State.withFetchWord (s : State) (nbits w : Nat) : State :=
  match tableItem Config.default nbits w with
  | some it => placeItem it s
  | none => s

end Sys2Proof.Machine
end

