-- ==== Sys2Proof/Machine/Client.lean ====
section
/-! DEFINITION. The client layer, host software above the block: the requests each drawing and text call issues (44_client_layer R210 to R217). What the source leaves open is an argument that carries what the source determines of it, or is named in log entries 23, 31, 32 and 33. -/

namespace Sys2Proof.Machine

/-- A request a client call issues, with integer coordinates (R210). -/
inductive ClientReq where
  /-- DRAW_PIXEL -/
  | pixel (x y : Int) (c : Colour)
  /-- FILL_RECT -/
  | rect (x y w h : Int) (c : Colour)
  deriving DecidableEq, Repr

/-- Whether an integer can be presented on a signed 16-bit port (R210). -/
def presentable (x : Int) : Bool := decide (-32768 ≤ x) && decide (x ≤ 32767)

/-- The request on DLB's ports; a coordinate outside -32768..32767 cannot be presented (R210). The ports the
request does not use, `c`, `d` and `n` of DRAW_PIXEL and `n` of FILL_RECT, carry 0: the model's choice (log entry 33), since 30_encoding R102
and R121 leave them open. -/
def clientItem : ClientReq → Option Item
  | .pixel x y c =>
    if presentable x && presentable y then
      some (request 10 { Ports.zero with a := coord x, b := coord y, v := c } [])
    else none
  | .rect x y w h c =>
    if presentable x && presentable y && (presentable w && presentable h) then
      some (request 11 { a := coord x, b := coord y, c := coord w, d := coord h, v := c, n := 0 } [])
    else none

/-- A line algorithm, with what R211 determines of it: the points of a line in the order they are issued, both end points among them, and
exactly one point for a line that is one point. The rest is the algorithm's own (R211). -/
structure LineAlg where
  points : Int → Int → Int → Int → List (Int × Int)
  first : ∀ x0 y0 x1 y1 : Int, (x0, y0) ∈ points x0 y0 x1 y1
  last : ∀ x0 y0 x1 y1 : Int, (x1, y1) ∈ points x0 y0 x1 y1
  single : ∀ x y : Int, points x y x y = [(x, y)]

/-- `draw_line` with a given line algorithm: one DRAW_PIXEL for each of its points, all of one colour (R211). -/
def drawLine (alg : LineAlg) (x0 y0 x1 y1 : Int) (c : Colour) : List ClientReq :=
  (alg.points x0 y0 x1 y1).map (fun p => .pixel p.1 p.2 c)

/-- The usual all-octant loop of R211, at most `fuel` points. -/
def bresenhamLoop (x1 y1 dx dy sx sy : Int) : Nat → Int → Int → Int → List (Int × Int)
  | 0, _, _, _ => []
  | fuel + 1, x, y, err =>
    (x, y) ::
      if x = x1 ∧ y = y1 then []
      else
        let e2 := 2 * err
        let stepX := decide (e2 ≥ dy)
        let stepY := decide (e2 ≤ dx)
        bresenhamLoop x1 y1 dx dy sx sy fuel (if stepX then x + sx else x) (if stepY then y + sy else y)
          (err + (if stepX then dy else 0) + (if stepY then dx else 0))

/-- The points of the usual line algorithm (R211). -/
def bresenhamPoints (x0 y0 x1 y1 : Int) : List (Int × Int) :=
  let dx : Int := (x1 - x0).natAbs
  let dy : Int := -((y1 - y0).natAbs : Int)
  bresenhamLoop x1 y1 dx dy (if x0 < x1 then 1 else -1) (if y0 < y1 then 1 else -1)
    (max (x1 - x0).natAbs (y1 - y0).natAbs + 1) x0 y0 (dx + dy)

/-- The loop issues the point it stands on first. -/
theorem mem_bresenhamLoop_head (x1 y1 dx dy sx sy : Int) (fuel : Nat) (x y err : Int) :
    (x, y) ∈ bresenhamLoop x1 y1 dx dy sx sy (fuel + 1) x y err := by
  simp [bresenhamLoop]

/-- A line at least as wide as high: after `i` steps right and `j` steps up the ideal line is within half a point of `j`, so every step
goes right and the last one reaches the end point. -/
theorem bresenhamLoop_reaches_wide {x1 y1 a b sx sy : Int} (ha : 0 < a) (hb : b ≤ a) (hb0 : 0 ≤ b) :
    ∀ (fuel : Nat) (x y err i j : Int), x1 = x + sx * (a - i) → y1 = y + sy * (b - j) →
      err = (j + 1) * a - (i + 1) * b → (2 * j - 1) * a ≤ 2 * i * b → 2 * i * b < (2 * j + 1) * a →
      i ≤ a → a - i < fuel → (x1, y1) ∈ bresenhamLoop x1 y1 a (-b) sx sy fuel x y err := by
  intro fuel
  induction fuel with
  | zero => intro x y err i j _ _ _ _ _ hi hf; push_cast at hf; omega
  | succ fuel ih =>
    intro x y err i j hx hy he hlo hhi hi hf
    by_cases hstop : x = x1 ∧ y = y1
    · rw [← hstop.1, ← hstop.2]; exact mem_bresenhamLoop_head _ _ _ _ _ _ _ _ _ _
    have hlt : i < a := by
      refine lt_of_le_of_ne hi fun hia => hstop ?_
      subst hia
      have h1 : 2 * j - 1 ≤ 2 * b := le_of_mul_le_mul_right (by linarith) ha
      have h2 : 2 * b < 2 * j + 1 := lt_of_mul_lt_mul_right (by linarith) ha.le
      obtain rfl : j = b := by omega
      exact ⟨by simp [hx], by simp [hy]⟩
    have hright : 2 * err ≥ -b := by rw [he]; linarith
    have hrest : ((a - (i + 1) : Int)) < fuel := by push_cast at hf; omega
    simp only [bresenhamLoop, if_neg hstop, List.mem_cons, decide_eq_true_eq, if_pos hright]
    right
    by_cases hup : 2 * err ≤ a
    · simp only [if_pos hup]
      exact ih _ _ _ (i + 1) (j + 1) (by rw [hx]; ring) (by rw [hy]; ring) (by rw [he]; ring)
        (by rw [he] at hup; linarith) (by linarith) (by omega) hrest
    · simp only [if_neg hup]
      exact ih _ _ _ (i + 1) j (by rw [hx]; ring) hy (by rw [he]; ring)
        (by linarith) (by rw [he] at hup; linarith) (by omega) hrest

/-- A line at least as high as wide: every step goes up and the last one reaches the end point. -/
theorem bresenhamLoop_reaches_high {x1 y1 a b sx sy : Int} (hb : 0 < b) (ha : a ≤ b) (ha0 : 0 ≤ a) :
    ∀ (fuel : Nat) (x y err i j : Int), x1 = x + sx * (a - i) → y1 = y + sy * (b - j) →
      err = (j + 1) * a - (i + 1) * b → (2 * i - 1) * b ≤ 2 * j * a → 2 * j * a < (2 * i + 1) * b →
      j ≤ b → b - j < fuel → (x1, y1) ∈ bresenhamLoop x1 y1 a (-b) sx sy fuel x y err := by
  intro fuel
  induction fuel with
  | zero => intro x y err i j _ _ _ _ _ hj hf; push_cast at hf; omega
  | succ fuel ih =>
    intro x y err i j hx hy he hlo hhi hj hf
    by_cases hstop : x = x1 ∧ y = y1
    · rw [← hstop.1, ← hstop.2]; exact mem_bresenhamLoop_head _ _ _ _ _ _ _ _ _ _
    have hlt : j < b := by
      refine lt_of_le_of_ne hj fun hjb => hstop ?_
      subst hjb
      have h1 : 2 * i - 1 ≤ 2 * a := le_of_mul_le_mul_right (by linarith) hb
      have h2 : 2 * a < 2 * i + 1 := lt_of_mul_lt_mul_right (by linarith) hb.le
      obtain rfl : i = a := by omega
      exact ⟨by simp [hx], by simp [hy]⟩
    have hup : 2 * err ≤ a := by rw [he]; linarith
    have hrest : ((b - (j + 1) : Int)) < fuel := by push_cast at hf; omega
    simp only [bresenhamLoop, if_neg hstop, List.mem_cons, decide_eq_true_eq, if_pos hup]
    right
    by_cases hright : 2 * err ≥ -b
    · simp only [if_pos hright]
      exact ih _ _ _ (i + 1) (j + 1) (by rw [hx]; ring) (by rw [hy]; ring) (by rw [he]; ring)
        (by rw [he] at hright; linarith) (by linarith) (by omega) hrest
    · simp only [if_neg hright]
      exact ih _ _ _ i (j + 1) hx (by rw [hy]; ring) (by rw [he]; ring)
        (by linarith) (by rw [he] at hright; linarith) (by omega) hrest

/-- The end of a segment is its start and its signed length. -/
theorem segment_end (u v : Int) : v = u + (if u < v then 1 else -1) * ((v - u).natAbs - 0 : Int) := by
  split <;> omega

/-- The usual line algorithm reaches its far end point (R211). -/
theorem bresenhamPoints_last (x0 y0 x1 y1 : Int) : (x1, y1) ∈ bresenhamPoints x0 y0 x1 y1 := by
  simp only [bresenhamPoints]
  by_cases hzero : x0 = x1 ∧ y0 = y1
  · rw [hzero.1, hzero.2]; exact mem_bresenhamLoop_head _ _ _ _ _ _ _ _ _ _
  have hx := segment_end x0 x1
  have hy := segment_end y0 y1
  rcases le_total (y1 - y0).natAbs (x1 - x0).natAbs with h | h
  · exact bresenhamLoop_reaches_wide (by omega) (by omega) (by omega) _ _ _ _ 0 0 hx hy (by ring) (by omega) (by omega)
      (by omega) (by push_cast; omega)
  · exact bresenhamLoop_reaches_high (by omega) (by omega) (by omega) _ _ _ _ 0 0 hx hy (by ring) (by omega) (by omega)
      (by omega) (by push_cast; omega)

/-- The usual line algorithm, general knowledge (R211, 93_implementation_defined G5). It issues its points from (x0, y0) on. -/
def bresenham : LineAlg where
  points := bresenhamPoints
  first _ _ _ _ := mem_bresenhamLoop_head _ _ _ _ _ _ _ _ _ _
  last := bresenhamPoints_last
  single x y := by simp [bresenhamPoints, bresenhamLoop]

/-- `draw_rect`: four lines, on the reading consistent with FILL_RECT's extent (R212). The order of the four calls (top, bottom, left,
right), the direction of each line (rightwards, downwards) and the four lines drawn all the same for w <= 0 or h <= 0, their far ends
then before the origin, are the model's choice (log entries 23 and 31): R212 does not determine them. -/
def drawRect (alg : LineAlg) (x y w h : Int) (c : Colour) : List ClientReq :=
  drawLine alg x y (x + w - 1) y c ++ drawLine alg x (y + h - 1) (x + w - 1) (y + h - 1) c ++
    drawLine alg x y x (y + h - 1) c ++ drawLine alg (x + w - 1) y (x + w - 1) (y + h - 1) c

/-- The offsets of the four cardinal points, in R213's order. -/
def cardinals (r : Int) : List (Int × Int) := [(0, r), (0, -r), (r, 0), (-r, 0)]

/-- A list of offsets is closed under the three mirrorings of R213 (90_conflicts C4). -/
def Mirrored (ds : List (Int × Int)) : Prop :=
  ∀ dx dy : Int, (dx, dy) ∈ ds → (-dx, dy) ∈ ds ∧ (dx, -dy) ∈ ds ∧ (-dx, -dy) ∈ ds

/-- A circle algorithm, with what R213 determines of it: the offsets plotted after the four cardinal points, the plotted set closed under
the three mirrorings for every radius that R213 speaks of. The rest is the algorithm's own (R213). -/
structure CircleAlg where
  offsets : Int → List (Int × Int)
  mirrored : ∀ r : Int, 0 < r → Mirrored (cardinals r ++ offsets r)

/-- `draw_circle`: the cardinal points first, then the algorithm's points, outline only (R213). That r <= 0 issues the four cardinal points
as any radius does, and then what the algorithm gives, is the model's choice (log entry 32): R213 does not determine it. -/
def drawCircle (alg : CircleAlg) (x0 y0 r : Int) (c : Colour) : List ClientReq :=
  (cardinals r ++ alg.offsets r).map (fun d => .pixel (x0 + d.1) (y0 + d.2) c)

/-- The eight mirror images of an offset, in R213's order. -/
def mirrors (dx dy : Int) : List (Int × Int) :=
  [(dx, dy), (-dx, dy), (dx, -dy), (-dx, -dy), (dy, dx), (-dy, dx), (dy, -dx), (-dy, -dx)]

/-- The usual midpoint loop of R213, at most `fuel` steps. -/
def midpointLoop : Nat → Int → Int → Int → Int → Int → List (Int × Int)
  | 0, _, _, _, _, _ => []
  | fuel + 1, f, ddx, ddy, dx, dy =>
    if dx < dy then
      let inward := decide (f ≥ 0)
      let dy' := if inward then dy - 1 else dy
      let ddy' := if inward then ddy + 2 else ddy
      let f' := if inward then f + ddy' else f
      let dx' := dx + 1
      let ddx' := ddx + 2
      mirrors dx' dy' ++ midpointLoop fuel (f' + ddx') ddx' ddy' dx' dy'
    else []

/-- The offsets of the usual circle algorithm after the cardinal points (R213): none for r <= 0. -/
def midpointOffsets (r : Int) : List (Int × Int) := midpointLoop r.toNat (1 - r) 1 (-2 * r) 0 r

theorem mirrored_nil : Mirrored [] := fun _ _ h => by cases h

theorem Mirrored.append {ds es : List (Int × Int)} (hd : Mirrored ds) (he : Mirrored es) : Mirrored (ds ++ es) := by
  intro dx dy h
  rcases List.mem_append.mp h with h | h
  · obtain ⟨h1, h2, h3⟩ := hd dx dy h
    exact ⟨List.mem_append_left _ h1, List.mem_append_left _ h2, List.mem_append_left _ h3⟩
  · obtain ⟨h1, h2, h3⟩ := he dx dy h
    exact ⟨List.mem_append_right _ h1, List.mem_append_right _ h2, List.mem_append_right _ h3⟩

theorem mirrored_cardinals (r : Int) : Mirrored (cardinals r) := by
  intro dx dy h
  simp only [cardinals, List.mem_cons, List.not_mem_nil, Prod.mk.injEq, or_false] at h ⊢
  omega

/-- An offset is a mirror image of `(u, v)` exactly when it has its absolute values, in either order. -/
theorem mem_mirrors {u v dx dy : Int} :
    (dx, dy) ∈ mirrors u v ↔
      dx.natAbs = u.natAbs ∧ dy.natAbs = v.natAbs ∨ dx.natAbs = v.natAbs ∧ dy.natAbs = u.natAbs := by
  simp only [mirrors, List.mem_cons, List.not_mem_nil, Prod.mk.injEq, or_false, Int.natAbs_eq_natAbs_iff]
  tauto

theorem mirrored_mirrors (u v : Int) : Mirrored (mirrors u v) := by
  intro dx dy
  simp only [mem_mirrors, Int.natAbs_neg]
  exact fun h => ⟨h, h, h⟩

/-- Every step of the loop plots the mirror images of what it plots. -/
theorem mirrored_midpointLoop (fuel : Nat) (f ddx ddy dx dy : Int) : Mirrored (midpointLoop fuel f ddx ddy dx dy) := by
  induction fuel generalizing f ddx ddy dx dy with
  | zero => exact mirrored_nil
  | succ fuel ih =>
    simp only [midpointLoop]
    split
    · exact (mirrored_mirrors _ _).append (ih _ _ _ _ _)
    · exact mirrored_nil

/-- The usual circle algorithm, general knowledge (R213, 93_implementation_defined G5). -/
def midpoint : CircleAlg where
  offsets := midpointOffsets
  mirrored r _ := (mirrored_cardinals r).append (mirrored_midpointLoop _ _ _ _ _ _)

/-- The integers from `-r` to `r`. -/
def spanInts (r : Int) : List Int := (List.range (2 * r + 1).toNat).map (fun (k : Nat) => (k : Int) - r)

/-- `fill_circle`: the bounding square scanned, a point plotted when it lies within the radius (R214). -/
def fillCircle (x0 y0 r : Int) (c : Colour) : List ClientReq :=
  (spanInts r).flatMap (fun dy =>
    ((spanInts r).filter (fun dx => decide (dx * dx + dy * dy ≤ r * r))).map (fun dx => .pixel (x0 + dx) (y0 + dy) c))

/-- The glyph table: code, column 0 to 4, row 0 to 7 (R215). -/
abbrev GlyphTable := Nat → Nat → Nat → Bool

/-- The code whose glyph is drawn: out of 32 to 126 the fallback `?` (R215). -/
def glyphCode (ch : Nat) : Nat := if 32 ≤ ch ∧ ch ≤ 126 then ch else 63

/-- The request of one cell of a character, if it has one (R216). -/
def drawCell (x y : Int) (bit : Bool) (fg bg : Colour) (scale : Nat) (i j : Nat) : List ClientReq :=
  if !bit && bg == fg then []
  else
    let colour := if bit then fg else bg
    if scale = 1 then [.pixel (x + i) (y + j) colour]
    else [.rect (x + i * scale) (y + j * scale) scale scale colour]

/-- `draw_char` for a scale of at least 1 (R216). -/
def drawChar (glyphs : GlyphTable) (x y : Int) (ch : Nat) (fg bg : Colour) (scale : Nat) : List ClientReq :=
  (List.range 5).flatMap (fun i =>
    (List.range 8).flatMap (fun j => drawCell x y (glyphs (glyphCode ch) i j) fg bg scale i j))

/-- `draw_string` for a scale of at least 1: the cursor advances by `6*scale` a character (R217). -/
def drawString (glyphs : GlyphTable) (x y : Int) (fg bg : Colour) (scale : Nat) : List Nat → List ClientReq
  | [] => []
  | ch :: text =>
    drawChar glyphs x y ch fg bg scale ++ drawString glyphs (x + 6 * scale) y fg bg scale text

end Sys2Proof.Machine
end

