-- ==== Sys2Proof/Machine/Trace.lean ====
section
/-! DEFINITION. Views of a trace: the logical trace (00_scope R14), whole frames (R13, 10_state R28), and the counts and lower bounds of 70_reset_and_hazards R281 and R282. -/

namespace Sys2Proof.Machine

/-- An entry of the logical trace: a byte with the level it is sent under, or a reset or wait event kept as it is (R14). -/
inductive LogEntry where
  | byte (dc : Bool) (b : Byte)
  | rst (level : Bool)
  | wait (ms : Nat)
  deriving DecidableEq, Repr

/-- `L(T)` (R14), with the level of the data/command-select pin before the list. -/
def logical : Bool → List Event → List LogEntry
  | _, [] => []
  | _, .dc l :: es => logical l es
  | d, .cs _ :: es => logical d es
  | d, .tx b :: es => .byte d b :: logical d es
  | d, .rst l :: es => .rst l :: logical d es
  | d, .wait ms :: es => .wait ms :: logical d es

/-- Where a trace stands with respect to frames (R13). -/
inductive FramePos where
  /-- between frames: chip-select released -/
  | between
  /-- the data/command-select pin of a frame has been driven, chip-select not yet -/
  | driven
  /-- inside a frame: chip-select low -/
  | inside
  deriving DecidableEq, Repr

/-- One event's place in the frame grammar of R13 and R28, none where the event cannot stand. -/
def frameStep : FramePos → Event → Option FramePos
  | .between, .dc _ => some .driven
  | .between, .rst _ => some .between
  | .between, .wait _ => some .between
  | .between, .cs _ => none
  | .between, .tx _ => none
  | .driven, .cs false => some .inside
  | .driven, .cs true => none
  | .driven, .dc _ => none
  | .driven, .tx _ => none
  | .driven, .rst _ => none
  | .driven, .wait _ => none
  | .inside, .tx _ => some .inside
  | .inside, .cs true => some .between
  | .inside, .cs false => none
  | .inside, .dc _ => none
  | .inside, .rst _ => none
  | .inside, .wait _ => none

/-- A list of events read from a place in the frame grammar, none where it breaks the grammar. -/
def frameScan : FramePos → List Event → Option FramePos
  | p, [] => some p
  | p, e :: es =>
    match frameStep p e with
    | some q => frameScan q es
    | none => none

/-- A list of events is a concatenation of whole frames, reset and wait events (10_state R28). -/
def wholeFrames (es : List Event) : Bool := frameScan .between es == some .between

/-- The number of bytes sent (R281). -/
def txCount : List Event → Nat
  | [] => 0
  | .tx _ :: es => txCount es + 1
  | .dc _ :: es => txCount es
  | .cs _ :: es => txCount es
  | .rst _ :: es => txCount es
  | .wait _ :: es => txCount es

/-- The number of frames: chip-select falls. -/
def frameCount : List Event → Nat
  | [] => 0
  | .cs false :: es => frameCount es + 1
  | .cs true :: es => frameCount es
  | .dc _ :: es => frameCount es
  | .tx _ :: es => frameCount es
  | .rst _ :: es => frameCount es
  | .wait _ :: es => frameCount es

/-- The sum of the minimum delays requested, in milliseconds (R281). -/
def waitTotal : List Event → Nat
  | [] => 0
  | .wait ms :: es => waitTotal es + ms
  | .dc _ :: es => waitTotal es
  | .cs _ :: es => waitTotal es
  | .tx _ :: es => waitTotal es
  | .rst _ :: es => waitTotal es

/-- The lower bound on the duration of a list of events, as a count of periods of `1 / (1000 * CLK_HZ)` seconds: eight clock
periods a byte, and the delays (R282). -/
def minPeriods (clkHz : Nat) (es : List Event) : Nat := 8 * txCount es * 1000 + waitTotal es * clkHz

/-- The number of chunks of `npix` pixels (R281). -/
def chunkCount (chunk npix : Nat) : Nat := npix / chunk + (if npix % chunk > 0 then 1 else 0)

/-- The number of events INIT emits for its table (R281). -/
def tableEvents (t : List InitEntry) : Nat := (t.map (fun e => 4 + 4 * e.params.length)).sum

/-- The number of bytes INIT sends for its table (R281). -/
def tableBytes (t : List InitEntry) : Nat := (t.map (fun e => 1 + e.params.length)).sum

end Sys2Proof.Machine
end

