-- ==== Sys2Proof/Safety.lean ====
section
/-! DEFINITION. What counts as a safe state and a safe run, in the terms the statements use: when a request runs, what a request leaves alone, the event lists of the spec written out, and the invariants of the machine. -/

namespace Sys2Proof.Safety

open Sys2Proof.Machine

/-! ### When a request runs (60_exceptions R240) -/

/-- Neither busy nor faulted: modes UNINIT and READY between requests. -/
def Accepts (s : State) : Prop := s.busy = false ∧ s.fault = 0

/-- Mode READY between requests. -/
def Ready (s : State) : Prop := Accepts s ∧ s.initDone = true

/-- Mode UNINIT between requests. -/
def Uninit (s : State) : Prop := Accepts s ∧ s.initDone = false

/-! ### What a request leaves alone -/

/-- The configuration, the flags, the sequencer and the model's own fields but `done` are unchanged (10_state R20, R37 to R41). -/
structure SameStatus (s t : State) : Prop where
  cfg : t.cfg = s.cfg
  initDone : t.initDone = s.initDone
  busy : t.busy = s.busy
  fault : t.fault = s.fault
  finfo : t.finfo = s.finfo
  rsp : t.rsp = s.rsp
  ph : t.ph = s.ph
  prog : t.prog = s.prog
  input : t.input = s.input
  grain : t.grain = s.grain

/-- The request's ports are in the operand registers, `done` has pulsed, and the status is unchanged. -/
structure Completes (p : Ports) (s t : State) : Prop where
  status : SameStatus s t
  regs : t.regs = p
  done : t.done = true

/-- The events were appended to the trace and received by the controller in order (20_memory R90). -/
structure Emits (es : List Event) (s t : State) : Prop where
  trace : t.trace = s.trace ++ es
  received : t.rx = rxRun s.cfg es s.rx

/-- A wire instruction by itself: no operand register is loaded and no working register moves (log entry 16), its frames cross the wire,
and the status is unchanged. -/
structure Crosses (es : List Event) (s t : State) : Prop where
  status : SameStatus s t
  regs : t.regs = s.regs
  work : t.work = s.work
  done : t.done = true
  emits : Emits es s t

/-- The pins after a list of events whose last byte is `b`, sent under level `dc` (10_state R22, R23, R25). -/
def pinsAfter (p : Pins) (dc : Bool) (b : Byte) : Pins :=
  { p with cs := true, dc := dc, sck := false, mosi := b.getLsbD 0 }

/-! ### Event lists written out -/

/-- `Frame(0, [c])` (00_scope R13). -/
def commandFrame (c : Byte) : List Event := [.dc false, .cs false, .tx c, .cs true]

/-- `Frame(1, bs)` (00_scope R13). -/
def dataFrame (bs : List Byte) : List Event := [.dc true, .cs false] ++ bs.map .tx ++ [.cs true]

/-- The events of SET_WINDOW (42_controller_protocol R165, "In events"). -/
def windowEvents (cfg : Config) (x0 y0 x1 y1 : Half) : List Event :=
  [.dc false, .cs false, .tx cfg.cmdCaset, .cs true,
   .dc true, .cs false, .tx (hi8 x0), .tx (lo8 x0), .cs true,
   .dc true, .cs false, .tx (hi8 x1), .tx (lo8 x1), .cs true,
   .dc false, .cs false, .tx cfg.cmdPaset, .cs true,
   .dc true, .cs false, .tx (hi8 y0), .tx (lo8 y0), .cs true,
   .dc true, .cs false, .tx (hi8 y1), .tx (lo8 y1), .cs true,
   .dc false, .cs false, .tx cfg.cmdRamwr, .cs true]

/-- The events of RESET_SEQ (41_bus_transport R151). -/
def resetEvents : List Event := [.rst true, .wait 5, .rst false, .wait 20, .rst true, .wait 150]

/-- The events of INIT (42_controller_protocol R161). -/
def initEvents (cfg : Config) : List Event :=
  resetEvents ++
    cfg.initTable.flatMap (fun e => commandFrame e.cmd ++ e.params.flatMap (fun b => dataFrame [b])) ++
    (commandFrame cfg.cmdPixfmt ++ dataFrame [cfg.pixfmt16bpp]) ++
    (commandFrame cfg.cmdMadctl ++ dataFrame [cfg.madctlValue]) ++
    commandFrame cfg.cmdSlpout ++ [.wait 120] ++ commandFrame cfg.cmdDispon

/-- The bytes of a list of colours, each most significant byte first (20_memory R61). -/
def colourBytes (ps : List Colour) : List Byte := ps.flatMap (fun v => [hi8 v, lo8 v])

/-- A pixel stream in data frames of `chunk` pixels, the last one of what is left (43_pixel_stream R186, R187). -/
def streamEvents (chunk : Nat) (ps : List Colour) : List Event :=
  (List.range (chunkCount chunk ps.length)).flatMap
    (fun k => dataFrame (colourBytes ((ps.drop (k * chunk)).take chunk)))

/-! ### Windows and faults -/

/-- `FINFO` of `F_WINDOW` bit by bit (60_exceptions R234). -/
structure WindowInfo (m : Word) (cfg : Config) (x0 y0 x1 y1 : Int) : Prop where
  bit0 : m.getLsbD 0 = decide (x0 > x1)
  bit1 : m.getLsbD 1 = decide (x1 > (cfg.width : Int) - 1)
  bit2 : m.getLsbD 2 = decide (y0 > y1)
  bit3 : m.getLsbD 3 = decide (y1 > (cfg.height : Int) - 1)
  bit4 : m.getLsbD 4 = decide (x0 < 0)
  bit5 : m.getLsbD 5 = decide (y0 < 0)
  rest : ∀ i, 6 ≤ i → m.getLsbD i = false
  some : m ≠ 0

/-- `WindowOK` (42_controller_protocol R166). -/
def WindowFits (cfg : Config) (x0 y0 x1 y1 : Int) : Prop :=
  (0 ≤ x0 ∧ x0 ≤ x1 ∧ x1 ≤ (cfg.width : Int) - 1) ∧ (0 ≤ y0 ∧ y0 ≤ y1 ∧ y1 ≤ (cfg.height : Int) - 1)

/-- The request raised a fault: its ports are in the operand registers, `FAULT` and `FINFO` are written, nothing else changed
(60_exceptions R236). -/
def Raises (code : BitVec 3) (info : Word) (p : Ports) (s t : State) : Prop :=
  t = { s with regs := p, fault := code, finfo := info, done := true }

/-- The instruction is refused while `FAULT` is not 0: nothing changes and it completes (60_exceptions R237). -/
def RefusedWhenFaulted (i : Instr) : Prop :=
  ∀ s : State, s.busy = false → s.fault ≠ 0 → exec i s = .next { s with done := true }

/-- A request with this operation number decodes to this instruction, with the ports it presents (30_encoding R102). -/
def HasOp (op : BitVec 4) (mk : Ports → Instr) : Prop :=
  ∀ (cfg : Config) (r : Request), r.op = op → decode cfg (.request r) = .ok (mk r.ports)

/-- Everything the controller held is forgotten (20_memory R76). -/
structure Forgotten (r : Rx) : Prop where
  cmd : r.cmd = none
  pn : r.pn = 0
  hold : r.hold = none
  window : r.sc = none ∧ r.ec = none ∧ r.sp = none ∧ r.ep = none
  cursor : r.col = none ∧ r.row = none
  gram : ∀ a, memRead a r.gram = none

/-- The request completed with no event, no fault and no flag (43_pixel_stream R182). -/
def NoOp (p : Ports) (s t : State) : Prop := t = { s with regs := p, done := true }

/-! ### Invariants -/

/-- `PH` is IDLE between requests and an index of the event list while busy (10_state R36). -/
def PhaseOk (s : State) : Prop :=
  match s.busy, s.ph with
  | true, some i => i < s.prog.length
  | false, none => s.prog = []
  | true, none => False
  | false, some _ => False

/-- The events of the request in flight that are still to be emitted. -/
def remaining (s : State) : List Event := eventsOf (s.prog.drop (s.ph.getD 0))

/-- Every refill of the chunk buffer still to be made fits it (10_state R34). -/
def LoadsFit (s : State) : Prop :=
  ∀ b ∈ s.prog, ∀ ps, Xfer.cbLoad ps ∈ b.pre ++ b.post → ps.length ≤ s.cfg.chunkPixels

/-- The trace and what is still to be emitted are whole frames, reset and wait events; the `CS` latch is low exactly inside a frame
(10_state R28). -/
def TraceOk (s : State) : Prop :=
  wholeFrames (s.trace ++ remaining s) = true ∧
    (frameScan .between s.trace).map (fun q => q != .inside) = some s.pins.cs

/-- The invariant of DLB itself. -/
structure SequencerInv (s : State) : Prop where
  faultCode : s.fault.toNat ≤ 5
  buffer : s.work.cb.length = 2 * s.cfg.chunkPixels
  clock : s.pins.sck = false
  phase : PhaseOk s
  loads : LoadsFit s
  trace : TraceOk s

/-- The cursor lies in a valid window while memory-write is in effect (20_memory R78, R82, R84). -/
def CursorOk (cfg : Config) (r : Rx) : Prop :=
  r.cmd = some cfg.cmdRamwr → ∀ col row, r.col = some col → r.row = some row →
    ∃ sc ec sp ep, r.sc = some sc ∧ r.ec = some ec ∧ r.sp = some sp ∧ r.ep = some ep ∧
      sc.toNat ≤ col ∧ col ≤ ec.toNat ∧ ec.toNat < cfg.width ∧
      sp.toNat ≤ row ∧ row ≤ ep.toNat ∧ ep.toNat < cfg.height

/-- The bytes of GRAM belong to pixels of the panel, and a pixel is known whole or not at all (20_memory R60, R75). -/
structure GramOk (cfg : Config) (m : Memory) : Prop where
  canonical : Memory.wf m = true
  onPanel : ∀ c ∈ m, gramAddress cfg (c.1 / 2 / 65536) (c.1 / 2 % 65536) = true
  whole : ∀ row col, (memRead (pixelKey row col) m).isSome = (memRead (pixelKey row col + 1) m).isSome

/-- The invariant of the controller. -/
structure ReceiverInv (s : State) : Prop where
  cs : s.rx.cs = s.pins.cs
  dc : s.rx.dc = s.pins.dc
  gram : GramOk s.cfg s.rx.gram
  cursor : CursorOk s.cfg s.rx
  both : s.rx.col.isSome = s.rx.row.isSome
  hold : s.rx.hold.isSome = true → s.rx.cs = false ∧ s.rx.cmd = some s.cfg.cmdRamwr ∧ s.rx.col.isSome = true

/-! ### Hazards the host must respect, which DLB does not check (70_reset_and_hazards R273, R276) -/

/-- The controller is as a draw expects it: DLB is READY and the controller has not been reset since its window was set. -/
def Drawable (s : State) : Prop := Ready s ∧ rxWindowValid s.cfg s.rx = true ∧ s.rx.cmd = some s.cfg.cmdRamwr

end Sys2Proof.Safety
end

