-- ==== Sys2Proof/Certificates/Slice0/Obligations.lean ====
section
/-! DEFINITION. The statements for the provers, from the numbered rules of the spec. -/

open Sys2Proof Sys2Proof.Machine Sys2Proof.Safety

/-! ### Encoding -/

/-- Decoding an encoded instruction gives it back, for every instruction and every configuration whose seven command bytes are
pairwise distinct (30_encoding R100 to R118, 00_scope R11). -/
def Obligations.DecodeInvertsEncode : Prop :=
  ∀ (cfg : Config) (i : Instr), cfg.commands.Nodup → decode cfg (encode cfg i) = .ok i

/-- A wire word has one meaning: encoding the instruction it decodes to gives the word back (30_encoding R112, R115, R116). -/
def Obligations.EncodeInvertsDecodeOnTheWire : Prop :=
  ∀ (cfg : Config) (w : WireWord) (i : Instr), decode cfg (.wire w) = .ok i → encode cfg i = .wire w

/-- `op` alone selects a request's operation, every request is one, its ports are kept whole, and a payload given to an operation
that takes none is dropped (30_encoding R102, R103, R121). The low byte of an item of SEND_STREAM is the model's choice (log entry 18). -/
def Obligations.RequestDecodesByItsOperationNumber : Prop :=
  ∀ (cfg : Config) (r : Request), ∃ i, decode cfg (.request r) = .ok i ∧ i.op? = some r.op ∧ i.ports? = some r.ports ∧
    (r.op = 3 → i = .sendStream r.ports (r.pay.map lo8)) ∧ (r.op = 12 → i = .drawBitmap r.ports r.pay) ∧
    (r.op ≠ 3 → r.op ≠ 12 → encode cfg i = .request { r with pay := [] })

/-- A few words written out from the tables of 30_encoding R102, R112 and R115 decode to what they stand for. In the four clauses in the
opcode table's numbering, that a byte below 16 is an `op` and that ports the table gives no bits are 0 is the model's choice (log entry
17), and the command bytes are the presumed defaults of log entry 2, as they are in the last two clauses. -/
def Obligations.KnownWordsDecode : Prop :=
  decodeTableWord 8 0x0A = some (.drawPixel Ports.zero) ∧
  decodeTableWord 8 0x0F = some (.reserved15 Ports.zero) ∧
  decodeTableWord 8 0x2C = some .ramwr ∧
  decodeTableWord 16 0xF800 = some (.pixel 31 0 0) ∧
  decode Config.default (.wire ⟨.named, [0x2A, 0x00, 0x0A, 0x01, 0x3F]⟩) = .ok (.caset 10 319) ∧
  decode Config.default (.wire ⟨.table, [0xCB, 0x39, 0x2C]⟩) = .ok (.tableEntry 0xCB [0x39, 0x2C])

/-- A named command whose byte is none of the seven of R115 is no wire instruction: the step refuses it by name, the model's own
stop (log entry 28). -/
def Obligations.UnknownCommandIsRefused : Prop :=
  ∀ (s : State) (c : Byte) (ps : List Byte) (rest : List Item), s.busy = false → c ∉ s.cfg.commands →
    s.input = .wire ⟨.named, c :: ps⟩ :: rest → step s = .refused (.undecodable (.unknownCommand c))

/-! ### The step -/

/-- A step of an idle block whose input begins with a decodable item runs the decoded instruction: it is `exec` of it at the state with
the item taken off the input and `done` low (30_encoding R101, 00_scope R15). -/
def Obligations.StepRunsTheDecodedInstruction : Prop :=
  ∀ (s : State) (it : Item) (rest : List Item) (i : Instr), s.busy = false → s.grain = .whole →
    s.input = it :: rest → decode s.cfg it = .ok i → step s = exec i { s with input := rest, done := false }

/-- With nothing on the input an idle block does nothing (70_reset_and_hazards R260). -/
def Obligations.StepWaitsForARequest : Prop :=
  ∀ s : State, s.busy = false → s.input = [] → step s = .next { s with done := false }

/-- A step in phase i emits event i and moves the phase to i+1, or to IDLE with `BUSY` cleared and `done` pulsed when it was the last
(10_state R36). The operand registers, `FAULT`, `FINFO` and `RSP` do not move. -/
def Obligations.BusyStepEmitsTheNextEvent : Prop :=
  ∀ (s : State) (i : Nat) (b : Beat), s.busy = true → s.ph = some i → s.prog[i]? = some b →
    ∃ t, step s = .next t ∧ Emits [b.ev] s t ∧ t.cfg = s.cfg ∧ t.regs = s.regs ∧ t.fault = s.fault ∧ t.finfo = s.finfo ∧
      t.rsp = s.rsp ∧ t.input = s.input ∧ t.grain = s.grain ∧
      (i + 1 < s.prog.length → t.ph = some (i + 1) ∧ t.busy = true ∧ t.prog = s.prog ∧ t.done = false) ∧
      (i + 1 = s.prog.length → t.ph = none ∧ t.busy = false ∧ t.prog = [] ∧ t.done = true)

/-- Acceptance fixes the event list: a request whose big-step meaning appends no event completes in the accepting step; any other is
taken with `BUSY` 1 and phase 0, its event list exactly the events its big-step meaning appends, none of them emitted yet
(30_encoding R101, 10_state R36). -/
def Obligations.AcceptanceFixesTheEventList : Prop :=
  ∀ (s : State) (it : Item) (rest : List Item) (i : Instr), s.busy = false → s.grain = .perEvent →
    s.input = it :: rest → decode s.cfg it = .ok i →
    ∃ t es, exec i { s with input := rest, done := false } = .next t ∧ t.trace = s.trace ++ es ∧
      (es = [] → step s = .next t) ∧
      (es ≠ [] → ∃ u, step s = .next u ∧ u.busy = true ∧ u.ph = some 0 ∧ eventsOf u.prog = es ∧ u.trace = s.trace ∧
        u.rx = s.rx ∧ u.pins = s.pins ∧ u.regs = t.regs ∧ u.initDone = s.initDone ∧ u.done = false)

/-- The event-by-event reading reaches exactly the state of the big-step meaning, after one accepting step and one step an event
(00_scope R15, 10_state R36). -/
def Obligations.EventByEventReachesTheBigStep : Prop :=
  ∀ (s t : State) (it : Item) (rest : List Item) (i : Instr), s.busy = false → s.ph = none → s.prog = [] →
    s.grain = .perEvent → s.input = it :: rest → decode s.cfg it = .ok i →
    exec i { s with input := rest, done := false } = .next t →
    Host.Core.run Sys2Proof.core (1 + (t.trace.length - s.trace.length)) s = .next t

/-! ### Invariants and whole-machine rules -/

/-- Every step keeps DLB's invariant: `FAULT` is a code, the chunk buffer has its size, the clock rests low, the phase is an index of
the event list exactly while busy, and the trace with what is still to come is whole frames with the `CS` latch low exactly inside
one (10_state R28, R34, R36, R39). -/
def Obligations.SequencerInvariantIsKept : Prop :=
  ∀ s t : State, SequencerInv s → s.cfg.Valid → step s = .next t → SequencerInv t

/-- Every step keeps the controller's invariant: it sees the pin levels, GRAM is in canonical form and on the panel, the cursor lies in a
valid window while memory-write is in effect, and half a pixel is held only inside a frame (20_memory R75 to R85). -/
def Obligations.ReceiverInvariantIsKept : Prop :=
  ∀ s t : State, ReceiverInv s → s.cfg.Valid → step s = .next t → ReceiverInv t

/-- What block reset leaves (10_state R45, 20_memory R76): mode UNINIT, nothing emitted, the controller unknown; and that state meets both
invariants with a valid configuration. That the panel is 320 by 240 is no effect of block reset, which does not set the configuration (R20,
70_reset_and_hazards R260): it is the presumed default of log entry 2. That the configuration is valid rests on log entries 2 and 3 too, and
the clauses of the invariants about what R45 and R76 leave unspecified rest on log entries 8 and 9. -/
def Obligations.ResetMeetsTheInvariants : Prop :=
  (State.reset.initDone = false ∧ State.reset.busy = false ∧ State.reset.fault = 0 ∧ State.reset.finfo = 0 ∧
    State.reset.ph = none ∧ State.reset.pins.cs = true ∧ State.reset.pins.sck = false ∧ State.reset.trace = [] ∧
    modeOf State.reset = .uninit ∧ Forgotten State.reset.rx ∧ State.reset.cfg.width = 320 ∧ State.reset.cfg.height = 240) ∧
  SequencerInv State.reset ∧ ReceiverInv State.reset ∧ State.reset.cfg.Valid

/-- No operation writes the configuration (10_state R20). -/
def Obligations.ConfigurationNeverChanges : Prop :=
  ∀ s t : State, step s = .next t → t.cfg = s.cfg

/-- `INIT_DONE` is set only by INIT and never cleared (10_state R37). -/
def Obligations.InitDoneRisesOnlyByInit : Prop :=
  (∀ (i : Instr) (s t : State), exec i s = .next t → t.initDone ≠ s.initDone →
    s.initDone = false ∧ t.initDone = true ∧ ∃ p, i = .init p) ∧
  (∀ s t : State, step s = .next t → s.initDone = true → t.initDone = true)

/-- `RSP` is written only by COLOR565 (10_state R40). -/
def Obligations.ResponseIsWrittenOnlyByColor565 : Prop :=
  ∀ (i : Instr) (s t : State), exec i s = .next t → t.rsp ≠ s.rsp → ∃ p, i = .color565 p

/-- The operand registers are written only at acceptance, all six at once, from the request's ports: a request that is accepted and not
refused loads them, and a step of a busy block does not (10_state R31). That a refused request loads nothing is log entry 14. -/
def Obligations.OperandRegistersAreLoadedAtAcceptance : Prop :=
  (∀ (i : Instr) (s t : State), Accepts s → exec i s = .next t → t.regs = (i.ports?).getD s.regs) ∧
  (∀ s t : State, s.busy = true → step s = .next t → t.regs = s.regs)

/-- While `FAULT` is not 0 every request of any `op` is accepted, emits nothing, changes no state and completes; no step changes a `FAULT`
that is not 0, nor its `FINFO` (60_exceptions R237; log entry 14 says how it is read beside R101). R237 speaks of requests: that a wire
instruction by itself is refused alike is the model's choice (log entry 16). -/
def Obligations.FaultIsSticky : Prop :=
  (∀ i : Instr, RefusedWhenFaulted i) ∧
  (∀ s t : State, step s = .next t → s.fault ≠ 0 → t.fault = s.fault ∧ t.finfo = s.finfo)

/-- A request that faults has emitted nothing: the operand registers hold its ports, `FAULT` and `FINFO` are written, and no other state
has changed (60_exceptions R236). -/
def Obligations.FaultsArePrecise : Prop :=
  ∀ (i : Instr) (s t : State), Accepts s → exec i s = .next t → t.fault ≠ 0 →
    ∃ p, i.ports? = some p ∧ Raises t.fault t.finfo p s t

/-- Which fault each operation can raise, by its code in `FAULT` (60_exceptions R239): in particular DRAW_PIXEL, FILL_RECT and FILL_SCREEN
never raise `F_WINDOW` (R234). -/
def Obligations.WhichFaultsEachOperationRaises : Prop :=
  ∀ (i : Instr) (s t : State), s.cfg.Valid → Accepts s → exec i s = .next t → t.fault ≠ 0 →
    (t.fault = 1 ∧ ((∃ p, i = .reserved14 p) ∨ ∃ p, i = .reserved15 p)) ∨
    (t.fault = 2 ∧ ((∃ p, i = .setWindow p) ∨ (∃ p, i = .fillScreen p) ∨ (∃ p, i = .drawPixel p) ∨
      (∃ p, i = .fillRect p) ∨ ∃ p pay, i = .drawBitmap p pay)) ∨
    (t.fault = 3 ∧ ∃ p, i = .init p) ∨
    (t.fault = 4 ∧ ((∃ p, i = .setWindow p) ∨ ∃ p pay, i = .drawBitmap p pay)) ∨
    (t.fault = 5 ∧ ((∃ p pay, i = .sendStream p pay) ∨ ∃ p pay, i = .drawBitmap p pay))

/-- The modes: UNINIT becomes READY only by INIT, a fault moves UNINIT or READY to FAULTED, READY never goes back to UNINIT, and nothing
leaves FAULTED (60_exceptions R240). -/
def Obligations.ModeChanges : Prop :=
  ∀ (i : Instr) (s t : State), exec i s = .next t →
    (modeOf s = .uninit → modeOf t = .ready → ∃ p, i = .init p) ∧
    (modeOf s = .ready → modeOf t ≠ .uninit) ∧
    (modeOf s = .faulted → modeOf t = .faulted)

/-- Every instruction appends whole frames, reset and wait events to the trace and nothing else, and the controller has received exactly
those, in order (00_scope R13, 10_state R28, 20_memory R90). -/
def Obligations.InstructionsEmitWholeFrames : Prop :=
  ∀ (i : Instr) (s t : State), exec i s = .next t → ∃ es, wholeFrames es = true ∧ Emits es s t

/-- DLB never reads the controller: two states that differ only in it step alike and differ afterwards only in it
(00_scope R5, R8, 20_memory R87). -/
def Obligations.ReceiverIsNeverRead : Prop :=
  ∀ (s : State) (r : Rx),
    match step s, step { s with rx := r } with
    | .next t, .next u => { u with rx := t.rx } = t
    | .fault a, .fault b => a = b
    | .refused a, .refused b => a = b
    | .next _, .fault _ => False
    | .next _, .refused _ => False
    | .fault _, .next _ => False
    | .fault _, .refused _ => False
    | .refused _, .next _ => False
    | .refused _, .fault _ => False

/-- What block reset leaves unspecified is never read before it is written: two idle states that agree on the configuration, `FAULT` and
`INIT_DONE` alone emit the same events, raise the same fault and agree on `INIT_DONE` (10_state R45, 60_exceptions R236). -/
def Obligations.UnspecifiedValuesAreNeverRead : Prop :=
  ∀ (i : Instr) (s u : State), s.busy = false → u.busy = false → s.cfg = u.cfg → s.fault = u.fault →
    s.initDone = u.initDone →
    ∃ es t v, exec i s = .next t ∧ exec i u = .next v ∧ t.trace = s.trace ++ es ∧ v.trace = u.trace ++ es ∧
      t.fault = v.fault ∧ t.initDone = v.initDone ∧ (s.finfo = u.finfo → t.finfo = v.finfo) ∧ (s.rsp = u.rsp → t.rsp = v.rsp)

/-! ### Bus transport -/

/-- SEND_CMD (41_bus_transport R145): one command frame of the low byte of `V`, no flag, no fault, any byte; the controller takes it as a
command, and no pixel changes. That last clause, for a byte other than the three addressing commands, is the spec's own assumption in
20_memory R78 (log entry 26) and not R145's. -/
def Obligations.SendCmdSendsOneCommandFrame : Prop :=
  HasOp 0 .sendCmd ∧ (∀ p, RefusedWhenFaulted (.sendCmd p)) ∧
  ∀ (p : Ports) (s : State), Accepts s → ∃ t, exec (.sendCmd p) s = .next t ∧ Completes p s t ∧
    Emits (commandFrame (p.v.extractLsb' 0 8)) s t ∧ t.work = s.work ∧
    t.pins = pinsAfter s.pins false (p.v.extractLsb' 0 8) ∧ t.rx.cmd = some (p.v.extractLsb' 0 8) ∧
    ∀ a, memRead a t.rx.gram = memRead a s.rx.gram

/-- SEND_DATA (R146): one data frame of the low byte of `V`, no flag, no fault; under a memory-write it is half a pixel, and the controller
loses its cursor and no pixel. -/
def Obligations.SendDataSendsOneByte : Prop :=
  HasOp 1 .sendData ∧ (∀ p, RefusedWhenFaulted (.sendData p)) ∧
  ∀ (p : Ports) (s : State), Accepts s → ∃ t, exec (.sendData p) s = .next t ∧ Completes p s t ∧
    Emits (dataFrame [p.v.extractLsb' 0 8]) s t ∧ t.work = s.work ∧
    t.pins = pinsAfter s.pins true (p.v.extractLsb' 0 8) ∧
    (s.cfg.Valid → s.rx.cmd = some s.cfg.cmdRamwr → s.rx.hold = none → s.rx.col.isSome = true → s.rx.row.isSome = true →
      t.rx.hold = none ∧ t.rx.col = none ∧ t.rx.row = none ∧ t.rx.gram = s.rx.gram)

/-- SEND_DATA16 (R147): one data frame of the two bytes of `V`, most significant first, both always sent, no flag, no fault. -/
def Obligations.SendData16SendsTwoBytesInOneFrame : Prop :=
  HasOp 2 .sendData16 ∧ (∀ p, RefusedWhenFaulted (.sendData16 p)) ∧
  ∀ (p : Ports) (s : State), Accepts s → ∃ t, exec (.sendData16 p) s = .next t ∧ Completes p s t ∧
    Emits (dataFrame [p.v.extractLsb' 8 8, p.v.extractLsb' 0 8]) s t ∧ t.work = s.work ∧
    t.pins = pinsAfter s.pins true (p.v.extractLsb' 0 8)

/-- SEND_STREAM (R148, 60_exceptions R235): the whole payload in one data frame, in order, the empty frame for a count of 0; a payload
whose length is not the count raises `F_LENGTH` before any event. `CNT` and `PTR` as they stand at the end of R148's runs. -/
def Obligations.SendStreamSendsOneFrame : Prop :=
  ∀ (p : Ports) (pay : List Byte) (s : State), Accepts s →
    (pay.length = p.n.toNat → ∃ t, exec (.sendStream p pay) s = .next t ∧ Completes p s t ∧ Emits (dataFrame pay) s t ∧
      t.work = { s.work with cnt := 0, ptr := p.n } ∧
      (pay = [] → t.pins = { s.pins with cs := true, dc := true }) ∧
      (∀ b, pay.getLast? = some b → t.pins = pinsAfter s.pins true b)) ∧
    (pay.length ≠ p.n.toNat → ∃ t, exec (.sendStream p pay) s = .next t ∧ Raises 5 (BitVec.ofNat 32 pay.length) p s t)

/-- RST_ASSERT and RST_RELEASE (R149, R150): the reset line driven low or high, again even when it is there already; `INIT_DONE` and every
other flag kept, no other pin moves; the controller forgets everything on the low level and does not change on the high one
(20_memory R76). -/
def Obligations.ResetLineIsDriven : Prop :=
  HasOp 4 .rstAssert ∧ HasOp 5 .rstRelease ∧
  ∀ (p : Ports) (s : State), Accepts s →
    (∃ t, exec (.rstAssert p) s = .next t ∧ Completes p s t ∧ Emits [.rst false] s t ∧ t.work = s.work ∧
      t.shifter = s.shifter ∧ t.pins = { s.pins with rst := false } ∧ Forgotten t.rx) ∧
    (∃ t, exec (.rstRelease p) s = .next t ∧ Completes p s t ∧ Emits [.rst true] s t ∧ t.work = s.work ∧
      t.shifter = s.shifter ∧ t.pins = { s.pins with rst := true } ∧ t.rx = s.rx)

/-- RESET_SEQ (R151): three levels and three minimum delays, whatever the configuration and the line's level before; no frame, no other
pin, `INIT_DONE` kept; the controller forgets everything. -/
def Obligations.ResetSeqHoldsTheThreeDelays : Prop :=
  HasOp 6 .resetSeq ∧
  ∀ (p : Ports) (s : State), Accepts s → ∃ t, exec (.resetSeq p) s = .next t ∧ Completes p s t ∧
    Emits [.rst true, .wait 5, .rst false, .wait 20, .rst true, .wait 150] s t ∧ t.work = s.work ∧
    t.shifter = s.shifter ∧ t.pins = { s.pins with rst := true } ∧ Forgotten t.rx

/-- The bit level of a byte (R141, general knowledge in the spec, log entry 27): for each bit from 7 down to 0 the data pin is driven, then the clock high, then low; the clock rests low
and the data pin keeps the last bit. -/
def Obligations.BytesShiftOutMostSignificantBitFirst : Prop :=
  ∀ (b : Byte) (p : Pins),
    (shiftOut b).1 = [7, 6, 5, 4, 3, 2, 1, 0].flatMap (fun i => [.mosi (b.getLsbD i), .sck true, .sck false]) ∧
    drivePins (.tx b) p = { p with sck := false, mosi := b.getLsbD 0 }

/-! ### Controller protocol -/

/-- INIT (42_controller_protocol R161): in mode UNINIT the reset sequence, the table in order, pixel format, memory-access-control, sleep-out,
120 ms, display-on, then `INIT_DONE`; in mode READY `F_REINIT` and nothing emitted. -/
def Obligations.InitSendsThePowerUpSequence : Prop :=
  HasOp 7 .init ∧
  ∀ (p : Ports) (s : State),
    (Uninit s → ∃ t, exec (.init p) s = .next t ∧ Completes p { s with initDone := true } t ∧
      Emits (initEvents s.cfg) s t ∧ t.initDone = true ∧ t.work = s.work ∧
      t.pins = { pinsAfter s.pins false s.cfg.cmdDispon with rst := true }) ∧
    (Ready s → ∃ t, exec (.init p) s = .next t ∧ Raises 3 0 p s t)

/-- INIT does not clear the screen: whatever `INIT_TABLE` holds, after it every pixel is unknown, the window and the cursor are unknown and
display-on is the command in effect (70_reset_and_hazards R266, 20_memory R76, R78, R85). -/
def Obligations.InitLeavesThePanelUnknown : Prop :=
  ∀ (p : Ports) (s t : State), s.cfg.Valid → Uninit s → exec (.init p) s = .next t →
    (∀ a, memRead a t.rx.gram = none) ∧ t.rx.cmd = some s.cfg.cmdDispon ∧ t.rx.hold = none ∧
      t.rx.sc = none ∧ t.rx.ec = none ∧ t.rx.sp = none ∧ t.rx.ep = none ∧ t.rx.col = none ∧ t.rx.row = none

/-- SET_WINDOW (R165): in mode READY, with a window that is ordered and on the panel, the 32 events of the column range, the row range and
memory-write, and the four coordinates latched; with any other window `F_WINDOW` and nothing emitted; in mode UNINIT `F_UNINIT`. -/
def Obligations.SetWindowSendsTheWindow : Prop :=
  HasOp 8 .setWindow ∧
  ∀ (p : Ports) (s : State),
    (Ready s → WindowFits s.cfg p.a.toNat p.b.toNat p.c.toNat p.d.toNat →
      ∃ t, exec (.setWindow p) s = .next t ∧ Completes p s t ∧ Emits (windowEvents s.cfg p.a p.b p.c p.d) s t ∧
        t.work = { s.work with wx0 := p.a, wy0 := p.b, wx1 := p.c, wy1 := p.d } ∧
        t.pins = pinsAfter s.pins false s.cfg.cmdRamwr) ∧
    (Ready s → ¬ WindowFits s.cfg p.a.toNat p.b.toNat p.c.toNat p.d.toNat →
      ∃ t info, exec (.setWindow p) s = .next t ∧ Raises 4 info p s t ∧
        WindowInfo info s.cfg p.a.toNat p.b.toNat p.c.toNat p.d.toNat) ∧
    (Uninit s → ∃ t, exec (.setWindow p) s = .next t ∧ Raises 2 8 p s t)

/-- What SET_WINDOW promises of the controller (R167, the spec's own derivation): its window is the one sent, memory-write is in effect, the cursor is on the window's
first pixel, and no pixel changes. -/
def Obligations.SetWindowAimsTheController : Prop :=
  ∀ (p : Ports) (s : State), s.cfg.Valid → Ready s → WindowFits s.cfg p.a.toNat p.b.toNat p.c.toNat p.d.toNat →
    ∃ t, exec (.setWindow p) s = .next t ∧ Drawable t ∧
      t.rx.sc = some p.a ∧ t.rx.ec = some p.c ∧ t.rx.sp = some p.b ∧ t.rx.ep = some p.d ∧
      t.rx.col = some p.a.toNat ∧ t.rx.row = some p.b.toNat ∧ t.rx.hold = none ∧ t.rx.gram = s.rx.gram

/-- FILL_SCREEN (R168): in mode READY the full-panel window and then WIDTH*HEIGHT pixels of the colour in chunks; in mode UNINIT
`F_UNINIT`. -/
def Obligations.FillScreenStreamsThePanel : Prop :=
  HasOp 9 .fillScreen ∧
  ∀ (p : Ports) (s : State), s.cfg.Valid →
    (Ready s → ∃ t, exec (.fillScreen p) s = .next t ∧ Completes p s t ∧
      Emits (windowEvents s.cfg 0 0 (BitVec.ofNat 16 (s.cfg.width - 1)) (BitVec.ofNat 16 (s.cfg.height - 1)) ++
        streamEvents s.cfg.chunkPixels (List.replicate (s.cfg.width * s.cfg.height) p.v)) s t ∧
      t.work = { s.work with
        wx0 := 0, wy0 := 0, wx1 := BitVec.ofNat 16 (s.cfg.width - 1), wy1 := BitVec.ofNat 16 (s.cfg.height - 1),
        cnt := 0, cb := colourBytes (List.replicate s.cfg.chunkPixels p.v) } ∧
      t.pins = pinsAfter s.pins true (p.v.extractLsb' 0 8)) ∧
    (Uninit s → ∃ t, exec (.fillScreen p) s = .next t ∧ Raises 2 9 p s t)

/-! ### Pixel stream -/

/-- COLOR565 (43_pixel_stream R181): the three low bytes truncated to 5, 6 and 5 bits and packed red high; only `RSP`, the operand registers
and `done` are written, no event, no fault, in both modes; extraction of the fields gives the truncated channels. -/
def Obligations.Color565TruncatesAndPacks : Prop :=
  HasOp 13 .color565 ∧ (∀ p, RefusedWhenFaulted (.color565 p)) ∧
  ∀ (p : Ports) (s : State), Accepts s → ∃ v : Half,
    exec (.color565 p) s = .next { s with regs := p, rsp := v, done := true } ∧
    v.toNat = p.a.toNat % 256 / 8 * 2048 + p.b.toNat % 256 / 4 * 32 + p.c.toNat % 256 / 8 ∧
    v.toNat / 2048 = p.a.toNat % 256 / 8 ∧ v.toNat / 32 % 64 = p.b.toNat % 256 / 4 ∧
    v.toNat % 32 = p.c.toNat % 256 / 8

/-- DRAW_PIXEL (R184): in mode READY one pixel in its one-pixel window, or no event at all when the point is off the panel on any side;
in mode UNINIT `F_UNINIT`, on the panel or off it. -/
def Obligations.DrawPixelSendsOnePixel : Prop :=
  HasOp 10 .drawPixel ∧
  ∀ (p : Ports) (s : State),
    (Ready s → 0 ≤ p.a.toInt ∧ p.a.toInt < s.cfg.width ∧ 0 ≤ p.b.toInt ∧ p.b.toInt < s.cfg.height →
      ∃ t, exec (.drawPixel p) s = .next t ∧ Completes p s t ∧
        Emits (windowEvents s.cfg p.a p.b p.a p.b ++ dataFrame [p.v.extractLsb' 8 8, p.v.extractLsb' 0 8]) s t ∧
        t.work = { s.work with wx0 := p.a, wy0 := p.b, wx1 := p.a, wy1 := p.b } ∧
        t.pins = pinsAfter s.pins true (p.v.extractLsb' 0 8)) ∧
    (Ready s → p.a.toInt < 0 ∨ p.a.toInt ≥ s.cfg.width ∨ p.b.toInt < 0 ∨ p.b.toInt ≥ s.cfg.height →
      ∃ t, exec (.drawPixel p) s = .next t ∧ NoOp p s t) ∧
    (Uninit s → ∃ t, exec (.drawPixel p) s = .next t ∧ Raises 2 10 p s t)

/-- FILL_RECT (R185, R189): in mode READY, with the origin on the panel and an extent not empty, the window of the rectangle clipped at the
far edges and then its pixels in chunks; otherwise no event at all; in mode UNINIT `F_UNINIT`, clipped to nothing or not. -/
def Obligations.FillRectClipsAndStreams : Prop :=
  HasOp 11 .fillRect ∧
  ∀ (p : Ports) (s : State), s.cfg.Valid →
    (Ready s → onPanel s.cfg p.a.toInt p.b.toInt = true ∧ 0 < p.c.toInt ∧ 0 < p.d.toInt →
      ∃ t w h, exec (.fillRect p) s = .next t ∧ w = min p.c.toInt (s.cfg.width - p.a.toInt) ∧
        h = min p.d.toInt (s.cfg.height - p.b.toInt) ∧ Completes p s t ∧
        Emits (windowEvents s.cfg p.a p.b (BitVec.ofInt 16 (p.a.toInt + w - 1)) (BitVec.ofInt 16 (p.b.toInt + h - 1)) ++
          streamEvents s.cfg.chunkPixels (List.replicate (w * h).toNat p.v)) s t ∧
        t.work = { s.work with
          wx0 := p.a, wy0 := p.b, wx1 := BitVec.ofInt 16 (p.a.toInt + w - 1), wy1 := BitVec.ofInt 16 (p.b.toInt + h - 1),
          cnt := 0, cb := colourBytes (List.replicate s.cfg.chunkPixels p.v) } ∧
        t.pins = pinsAfter s.pins true (p.v.extractLsb' 0 8)) ∧
    (Ready s → ¬ (onPanel s.cfg p.a.toInt p.b.toInt = true ∧ 0 < p.c.toInt ∧ 0 < p.d.toInt) →
      ∃ t, exec (.fillRect p) s = .next t ∧ NoOp p s t) ∧
    (Uninit s → ∃ t, exec (.fillRect p) s = .next t ∧ Raises 2 11 p s t)

/-- DRAW_BITMAP (R188): in mode READY the window of the exact extent and then the colours verbatim in order, in chunks; an extent not wholly
on the panel is `F_WINDOW`, and only then a payload of another length than w*h is `F_LENGTH`; in mode UNINIT `F_UNINIT`. -/
def Obligations.DrawBitmapStreamsThePayload : Prop :=
  (∀ (cfg : Config) (r : Request), r.op = 12 → decode cfg (.request r) = .ok (.drawBitmap r.ports r.pay)) ∧
  ∀ (p : Ports) (pay : List Colour) (s : State), s.cfg.Valid →
    (Ready s → WindowFits s.cfg p.a.toInt p.b.toInt (p.a.toInt + p.c.toInt - 1) (p.b.toInt + p.d.toInt - 1) →
      (pay.length : Int) = p.c.toInt * p.d.toInt →
      ∃ t, exec (.drawBitmap p pay) s = .next t ∧ Completes p s t ∧
        Emits (windowEvents s.cfg p.a p.b (p.a + p.c - 1) (p.b + p.d - 1) ++ streamEvents s.cfg.chunkPixels pay) s t ∧
        t.work = { s.work with
          wx0 := p.a, wy0 := p.b, wx1 := p.a + p.c - 1, wy1 := p.b + p.d - 1,
          cnt := 0, ptr := BitVec.ofNat 32 pay.length, cb := t.work.cb } ∧
        (s.work.cb.length = 2 * s.cfg.chunkPixels → t.work.cb.length = s.work.cb.length) ∧
        ∀ v, pay.getLast? = some v → t.pins = pinsAfter s.pins true (v.extractLsb' 0 8)) ∧
    (Ready s → ¬ WindowFits s.cfg p.a.toInt p.b.toInt (p.a.toInt + p.c.toInt - 1) (p.b.toInt + p.d.toInt - 1) →
      ∃ t info, exec (.drawBitmap p pay) s = .next t ∧ Raises 4 info p s t ∧
        WindowInfo info s.cfg p.a.toInt p.b.toInt (p.a.toInt + p.c.toInt - 1) (p.b.toInt + p.d.toInt - 1)) ∧
    (Ready s → WindowFits s.cfg p.a.toInt p.b.toInt (p.a.toInt + p.c.toInt - 1) (p.b.toInt + p.d.toInt - 1) →
      (pay.length : Int) ≠ p.c.toInt * p.d.toInt →
      ∃ t, exec (.drawBitmap p pay) s = .next t ∧ Raises 5 (BitVec.ofNat 32 pay.length) p s t) ∧
    (Uninit s → ∃ t, exec (.drawBitmap p pay) s = .next t ∧ Raises 2 12 p s t)

/-- The reserved operation numbers decode and raise `F_OPCODE` with the number in `FINFO`; nothing is emitted (30_encoding R120,
60_exceptions R231). -/
def Obligations.ReservedOperationsRaiseOpcodeFault : Prop :=
  HasOp 14 .reserved14 ∧ HasOp 15 .reserved15 ∧
  ∀ (p : Ports) (s : State), Accepts s →
    (∃ t, exec (.reserved14 p) s = .next t ∧ Raises 1 14 p s t) ∧ (∃ t, exec (.reserved15 p) s = .next t ∧ Raises 1 15 p s t)

/-- A draw-class operation in mode UNINIT raises `F_UNINIT` with its number in `FINFO`, whatever its operands and payload
(60_exceptions R232). -/
def Obligations.DrawingBeforeInitRaisesUninit : Prop :=
  ∀ (p : Ports) (pay : List Colour) (s : State), Uninit s →
    (∃ t, exec (.setWindow p) s = .next t ∧ Raises 2 8 p s t) ∧ (∃ t, exec (.fillScreen p) s = .next t ∧ Raises 2 9 p s t) ∧
    (∃ t, exec (.drawPixel p) s = .next t ∧ Raises 2 10 p s t) ∧ (∃ t, exec (.fillRect p) s = .next t ∧ Raises 2 11 p s t) ∧
    (∃ t, exec (.drawBitmap p pay) s = .next t ∧ Raises 2 12 p s t)

/-- ClipRect (R189), for all integers: nothing for an origin off the panel or an empty extent, otherwise the origin with the extent cut at
the far edges, not empty, the window of it on the panel; that last clause is the spec's own derivation in R189. -/
def Obligations.ClipRectStaysOnThePanel : Prop :=
  ∀ (cfg : Config) (x y w h : Int),
    ((x < 0 ∨ x ≥ cfg.width ∨ y < 0 ∨ y ≥ cfg.height ∨ w ≤ 0 ∨ h ≤ 0) → clipRect cfg x y w h = none) ∧
    (¬ (x < 0 ∨ x ≥ cfg.width ∨ y < 0 ∨ y ≥ cfg.height ∨ w ≤ 0 ∨ h ≤ 0) →
      clipRect cfg x y w h = some ⟨x, y, min w (cfg.width - x), min h (cfg.height - y)⟩ ∧
      1 ≤ min w (cfg.width - x) ∧ 1 ≤ min h (cfg.height - y) ∧
      WindowFits cfg x y (x + min w (cfg.width - x) - 1) (y + min h (cfg.height - y) - 1))

/-- The two stream engines (R186, R187): `npix div CHUNK_PIXELS` full frames and one of the rest if there is one, never an empty frame;
the logical trace is the pixels' bytes in order whatever the chunk size, and no frame holds more than a chunk. -/
def Obligations.StreamsAreChunked : Prop :=
  ∀ (chunk : Nat), 1 ≤ chunk →
    (∀ (c : Colour) (n : Nat), eventsOf (streamFill chunk c n) = streamEvents chunk (List.replicate n c)) ∧
    (∀ ps : List Colour, eventsOf (streamPixels chunk ps) = streamEvents chunk ps) ∧
    (∀ (d : Bool) (ps : List Colour),
      logical d (streamEvents chunk ps) = (colourBytes ps).map (fun b => .byte true b) ∧
      frameCount (streamEvents chunk ps) = ps.length / chunk + (if ps.length % chunk = 0 then 0 else 1))

/-- The counts of events and bytes and the delays requested, for every operation that completes with events
(70_reset_and_hazards R281, the spec's own derivation). -/
def Obligations.EventCounts : Prop :=
  ∀ (s : State) (p : Ports) (es : List Event), s.cfg.Valid →
    (∀ t i n k w, (i, n, k, w) ∈ [(Instr.sendCmd p, 4, 1, 0), (.sendData p, 4, 1, 0), (.sendData16 p, 5, 2, 0),
        (.rstAssert p, 1, 0, 0), (.rstRelease p, 1, 0, 0), (.resetSeq p, 6, 0, 175)] →
      Accepts s → exec i s = .next t → Emits es s t → es.length = n ∧ txCount es = k ∧ waitTotal es = w) ∧
    (∀ t, Ready s → onPanel s.cfg p.a.toInt p.b.toInt = true → exec (.drawPixel p) s = .next t → Emits es s t →
      es.length = 37 ∧ txCount es = 13 ∧ waitTotal es = 0) ∧
    (∀ t, Ready s → exec (.fillScreen p) s = .next t → Emits es s t →
      es.length = 32 + 3 * chunkCount s.cfg.chunkPixels (s.cfg.width * s.cfg.height) + 2 * (s.cfg.width * s.cfg.height) ∧
        txCount es = 11 + 2 * (s.cfg.width * s.cfg.height) ∧ waitTotal es = 0) ∧
    (∀ t, Uninit s → exec (.init p) s = .next t → Emits es s t →
      es.length = 31 + tableEvents s.cfg.initTable ∧ txCount es = 6 + tableBytes s.cfg.initTable ∧ waitTotal es = 295) ∧
    (∀ t, Ready s → exec (.setWindow p) s = .next t → t.fault = 0 → Emits es s t →
      es.length = 32 ∧ txCount es = 11 ∧ waitTotal es = 0) ∧
    (∀ t r, Ready s → clipRect s.cfg p.a.toInt p.b.toInt p.c.toInt p.d.toInt = some r → exec (.fillRect p) s = .next t →
      Emits es s t →
      es.length = 32 + 3 * chunkCount s.cfg.chunkPixels (r.w * r.h).toNat + 2 * (r.w * r.h).toNat ∧
        txCount es = 11 + 2 * (r.w * r.h).toNat ∧ waitTotal es = 0) ∧
    (∀ t pay, Ready s → exec (.drawBitmap p pay) s = .next t → t.fault = 0 → Emits es s t →
      es.length = 32 + 3 * chunkCount s.cfg.chunkPixels pay.length + 2 * pay.length ∧
        txCount es = 11 + 2 * pay.length ∧ waitTotal es = 0) ∧
    (∀ t pay, Accepts s → exec (.sendStream p pay) s = .next t → t.fault = 0 → Emits es s t →
      es.length = 3 + p.n.toNat ∧ txCount es = p.n.toNat ∧ waitTotal es = 0)

/-! ### The controller -/

/-- DRAW_PIXEL sets the one pixel and no other byte of GRAM, from any controller state (R191, the spec's own derivation). -/
def Obligations.DrawPixelLands : Prop :=
  ∀ (p : Ports) (s : State), s.cfg.Valid → Ready s → onPanel s.cfg p.a.toInt p.b.toInt = true →
    ∃ t, exec (.drawPixel p) s = .next t ∧ gramRead t.rx.gram p.b.toNat p.a.toNat = some p.v ∧
      (∀ a, a ≠ pixelKey p.b.toNat p.a.toNat → a ≠ pixelKey p.b.toNat p.a.toNat + 1 →
        memRead a t.rx.gram = memRead a s.rx.gram) ∧
      Drawable t ∧ t.rx.col = some p.a.toNat ∧ t.rx.row = some p.b.toNat

/-- FILL_RECT sets every pixel of the clipped rectangle and no byte of GRAM outside it, from any controller state, and leaves the cursor on
the window's first pixel (R191, the spec's own derivation). -/
def Obligations.FillRectLands : Prop :=
  ∀ (p : Ports) (s : State) (r : Rect), s.cfg.Valid → Ready s →
    clipRect s.cfg p.a.toInt p.b.toInt p.c.toInt p.d.toInt = some r →
    ∃ t, exec (.fillRect p) s = .next t ∧
      (∀ row col : Nat, r.y ≤ row → (row : Int) < r.y + r.h → r.x ≤ col → (col : Int) < r.x + r.w →
        gramRead t.rx.gram row col = some p.v) ∧
      (∀ a, (∀ row col : Nat, r.y ≤ row → (row : Int) < r.y + r.h → r.x ≤ col → (col : Int) < r.x + r.w →
          a ≠ pixelKey row col ∧ a ≠ pixelKey row col + 1) →
        memRead a t.rx.gram = memRead a s.rx.gram) ∧
      Drawable t ∧ t.rx.col = some r.x.toNat ∧ t.rx.row = some r.y.toNat

/-- DRAW_BITMAP sets pixel i of the payload at row `y + i div w` and column `x + i mod w`, and no byte of GRAM outside the extent, from any
controller state (R191, the spec's own derivation). -/
def Obligations.DrawBitmapLands : Prop :=
  ∀ (p : Ports) (pay : List Colour) (s : State), s.cfg.Valid → Ready s →
    WindowFits s.cfg p.a.toInt p.b.toInt (p.a.toInt + p.c.toInt - 1) (p.b.toInt + p.d.toInt - 1) →
    (pay.length : Int) = p.c.toInt * p.d.toInt →
    ∃ t, exec (.drawBitmap p pay) s = .next t ∧
      (∀ i, i < pay.length →
        gramRead t.rx.gram (p.b.toNat + i / p.c.toNat) (p.a.toNat + i % p.c.toNat) = pay[i]?) ∧
      (∀ a, (∀ i, i < pay.length → a ≠ pixelKey (p.b.toNat + i / p.c.toNat) (p.a.toNat + i % p.c.toNat) ∧
          a ≠ pixelKey (p.b.toNat + i / p.c.toNat) (p.a.toNat + i % p.c.toNat) + 1) →
        memRead a t.rx.gram = memRead a s.rx.gram) ∧
      Drawable t ∧ t.rx.col = some p.a.toNat ∧ t.rx.row = some p.b.toNat

/-- FILL_SCREEN sets every pixel of the panel, from any controller state (R191, the spec's own derivation). -/
def Obligations.FillScreenLands : Prop :=
  ∀ (p : Ports) (s : State), s.cfg.Valid → Ready s →
    ∃ t, exec (.fillScreen p) s = .next t ∧
      (∀ row col, gramAddress s.cfg row col = true → gramRead t.rx.gram row col = some p.v) ∧
      Drawable t ∧ t.rx.col = some 0 ∧ t.rx.row = some 0

/-- The landing rule (20_memory R89, the spec's own derivation): after a valid window, pixel i of a run of whole-pixel data frames lands at column `x0 + i mod w` and row
`y0 + (i div w) mod h`, the later of two at one address stays, and every other pixel of the panel is unchanged; a run of exactly the
window's area leaves the cursor on the window's first pixel. -/
def Obligations.LandingRule : Prop :=
  ∀ (cfg : Config) (r : Rx) (x0 y0 x1 y1 : Half) (frames : List (List Colour)), cfg.Valid →
    WindowFits cfg x0.toNat y0.toNat x1.toNat y1.toNat →
    ∃ q w h ps, q = rxRun cfg (windowEvents cfg x0 y0 x1 y1 ++ frames.flatMap (fun f => dataFrame (colourBytes f))) r ∧
      w = x1.toNat - x0.toNat + 1 ∧ h = y1.toNat - y0.toNat + 1 ∧ ps = frames.flatten ∧
      (∀ i, i < ps.length →
        (∀ j, i < j → j < ps.length → ¬ (j % w = i % w ∧ j / w % h = i / w % h)) →
        gramRead q.gram (y0.toNat + i / w % h) (x0.toNat + i % w) = ps[i]?) ∧
      (∀ row col, gramAddress cfg row col = true →
        (∀ i, i < ps.length → ¬ (row = y0.toNat + i / w % h ∧ col = x0.toNat + i % w)) →
        gramRead q.gram row col = gramRead r.gram row col) ∧
      (ps.length = w * h → q.col = some x0.toNat ∧ q.row = some y0.toNat)

/-- Commands and address parameters never change a pixel: SEND_CMD, RST_RELEASE, COLOR565 and SET_WINDOW, and the wire instructions
SLPOUT, DISPON, CASET, PASET, RAMWR, MADCTL, PIXFMT and RAW_CMD (20_memory R78, R80, R81, R83). That commands other than the three
addressing ones leave GRAM alone is the spec's own assumption (R78, log entry 26). -/
def Obligations.CommandsLeavePixelsAlone : Prop :=
  ∀ (p : Ports) (first last : Half) (b : Byte) (s t : State) (i : Instr), s.cfg.Valid →
    i ∈ [Instr.sendCmd p, .rstRelease p, .color565 p, .setWindow p, .slpout, .dispon, .caset first last, .paset first last,
      .ramwr, .madctl b, .pixfmt b, .rawCmd b] →
    exec i s = .next t → ∀ a, memRead a t.rx.gram = memRead a s.rx.gram

/-- Raw data stores only at the cursor (20_memory R82, R83, R85): with no memory-write in effect nothing is stored; with one in effect and the
cursor known, SEND_DATA16 and the wire instruction PIXEL store one pixel there and SEND_DATA, half a pixel, stores nothing; with the
cursor unknown every byte of GRAM becomes unknown. That the wire instruction PIXEL completes by itself, in either unfaulted mode, is the
model's choice (log entry 16), and so is that a cursor with only one coordinate known counts as unknown (log entry 12). -/
def Obligations.RawDataStoresOnlyAtTheCursor : Prop :=
  ∀ (p : Ports) (cr : BitVec 5) (cg : BitVec 6) (cb : BitVec 5) (s : State), s.cfg.Valid → Accepts s → s.rx.hold = none →
    (∀ i ∈ [Instr.sendData p, .sendData16 p, .pixel cr cg cb], ∃ t, exec i s = .next t ∧
      (s.rx.cmd ≠ some s.cfg.cmdRamwr → ∀ a, memRead a t.rx.gram = memRead a s.rx.gram) ∧
      (s.rx.cmd = some s.cfg.cmdRamwr → s.rx.col = none ∨ s.rx.row = none → ∀ a, memRead a t.rx.gram = none)) ∧
    (∀ row col, s.rx.cmd = some s.cfg.cmdRamwr → s.rx.row = some row → s.rx.col = some col →
      gramAddress s.cfg row col = true →
      (∃ t, exec (.sendData p) s = .next t ∧ ∀ a, memRead a t.rx.gram = memRead a s.rx.gram) ∧
      (∃ t, exec (.sendData16 p) s = .next t ∧ gramRead t.rx.gram row col = some p.v ∧
        ∀ a, a ≠ pixelKey row col → a ≠ pixelKey row col + 1 → memRead a t.rx.gram = memRead a s.rx.gram) ∧
      (∃ t, exec (.pixel cr cg cb) s = .next t ∧ gramRead t.rx.gram row col = some (packColour cr cg cb) ∧
        ∀ a, a ≠ pixelKey row col → a ≠ pixelKey row col + 1 → memRead a t.rx.gram = memRead a s.rx.gram))

/-- A raw stream under a valid window stores only inside it, however long, odd or even (20_memory R82, R86): every byte of GRAM outside the
window's pixels reads as before. -/
def Obligations.RawStreamStaysInTheWindow : Prop :=
  ∀ (p : Ports) (pay : List Byte) (s t : State) (col row : Nat) (sc ec sp ep : Half), s.cfg.Valid → ReceiverInv s →
    Accepts s → s.rx.hold = none → s.rx.cmd = some s.cfg.cmdRamwr → s.rx.col = some col → s.rx.row = some row →
    s.rx.sc = some sc → s.rx.ec = some ec → s.rx.sp = some sp → s.rx.ep = some ep →
    exec (.sendStream p pay) s = .next t →
    ∀ a, (∀ y x, sp.toNat ≤ y → y ≤ ep.toNat → sc.toNat ≤ x → x ≤ ec.toNat →
        a ≠ pixelKey y x ∧ a ≠ pixelKey y x + 1) →
      memRead a t.rx.gram = memRead a s.rx.gram

/-- A command byte (20_memory R78): it becomes the command in effect with no parameter counted and no half pixel held; memory-write homes the
cursor on a valid window and loses it on any other; the range commands change nothing more; any other command loses window and cursor;
GRAM is unchanged, for other commands by the spec's own assumption (log entry 26). -/
def Obligations.ReceiverTakesCommands : Prop :=
  ∀ (cfg : Config) (b : Byte) (r : Rx), cfg.Valid → r.cs = false → r.dc = false →
    ∃ q, q = rxEvent cfg (.tx b) r ∧ q.cmd = some b ∧ q.pn = 0 ∧ q.hold = none ∧ q.gram = r.gram ∧
      (∀ sc ec sp ep : Half, b = cfg.cmdRamwr → r.sc = some sc → r.ec = some ec → r.sp = some sp → r.ep = some ep →
        WindowFits cfg sc.toNat sp.toNat ec.toNat ep.toNat → q.col = some sc.toNat ∧ q.row = some sp.toNat) ∧
      (b = cfg.cmdRamwr →
        (¬ ∃ sc ec sp ep : Half, r.sc = some sc ∧ r.ec = some ec ∧ r.sp = some sp ∧ r.ep = some ep ∧
          WindowFits cfg sc.toNat sp.toNat ec.toNat ep.toNat) → q.col = none ∧ q.row = none) ∧
      (b = cfg.cmdRamwr ∨ b = cfg.cmdCaset ∨ b = cfg.cmdPaset →
        q.sc = r.sc ∧ q.ec = r.ec ∧ q.sp = r.sp ∧ q.ep = r.ep) ∧
      (b = cfg.cmdCaset ∨ b = cfg.cmdPaset → q.col = r.col ∧ q.row = r.row) ∧
      (b ≠ cfg.cmdRamwr → b ≠ cfg.cmdCaset → b ≠ cfg.cmdPaset →
        q.sc = none ∧ q.ec = none ∧ q.sp = none ∧ q.ep = none ∧ q.col = none ∧ q.row = none)

/-- The four parameter bytes of an address command count across frames: in one data frame or in two of whole coordinates they set the range,
start and end each most significant byte first, and a fifth byte is ignored (20_memory R64, R80, R81). -/
def Obligations.AddressParametersCountAcrossFrames : Prop :=
  ∀ (cfg : Config) (r : Rx) (b0 b1 b2 b3 b4 b5 : Byte), cfg.Valid →
    ∀ es ∈ [dataFrame [b0, b1, b2, b3], dataFrame [b0, b1] ++ dataFrame [b2, b3],
        dataFrame [b0, b1, b2, b3] ++ dataFrame [b4, b5]],
      ((rxRun cfg (commandFrame cfg.cmdCaset ++ es) r).sc = some (b0 ++ b1) ∧
        (rxRun cfg (commandFrame cfg.cmdCaset ++ es) r).ec = some (b2 ++ b3) ∧
        (rxRun cfg (commandFrame cfg.cmdCaset ++ es) r).sp = r.sp ∧
        (rxRun cfg (commandFrame cfg.cmdCaset ++ es) r).ep = r.ep) ∧
      ((rxRun cfg (commandFrame cfg.cmdPaset ++ es) r).sp = some (b0 ++ b1) ∧
        (rxRun cfg (commandFrame cfg.cmdPaset ++ es) r).ep = some (b2 ++ b3) ∧
        (rxRun cfg (commandFrame cfg.cmdPaset ++ es) r).sc = r.sc ∧
        (rxRun cfg (commandFrame cfg.cmdPaset ++ es) r).ec = r.ec)

/-- Half values are lost when chip-select rises (20_memory R85): half a pixel loses the cursor, not GRAM; half a coordinate makes the range of
that command unknown and later parameter bytes are ignored. That the other command's range is kept is log entry 13. -/
def Obligations.HalfValuesResynchronise : Prop :=
  ∀ (cfg : Config) (r : Rx) (b b' : Byte), cfg.Valid → r.hold = none →
    (r.cmd = some cfg.cmdRamwr → r.col.isSome = true → r.row.isSome = true →
      ∃ q, q = rxRun cfg (dataFrame [b]) r ∧ q.hold = none ∧ q.col = none ∧ q.row = none ∧ q.gram = r.gram) ∧
    (r.cmd = some cfg.cmdCaset → r.pn = 0 ∨ r.pn = 2 →
      ∃ q, q = rxRun cfg (dataFrame [b]) r ∧ q.sc = none ∧ q.ec = none ∧ q.sp = r.sp ∧ q.ep = r.ep ∧ q.pn = 4 ∧
        (rxRun cfg (dataFrame [b', b']) q).sc = none ∧ (rxRun cfg (dataFrame [b', b']) q).ec = none) ∧
    (r.cmd = some cfg.cmdPaset → r.pn = 0 ∨ r.pn = 2 →
      ∃ q, q = rxRun cfg (dataFrame [b]) r ∧ q.sp = none ∧ q.ep = none ∧ q.sc = r.sc ∧ q.ec = r.ec ∧ q.pn = 4 ∧
        (rxRun cfg (dataFrame [b', b']) q).sp = none ∧ (rxRun cfg (dataFrame [b', b']) q).ep = none)

/-! ### Wire instructions -/

/-- The ten wire instructions send their frames (30_encoding R112, R113, R115, R116, R118) and nothing else moves but the pins, the shifter
and the controller. That one runs by itself in either unfaulted mode and loads no operand register is log entry 16. -/
def Obligations.WireInstructionsSendTheirFrames : Prop :=
  ∀ s : State, Accepts s →
    (∃ t, exec .slpout s = .next t ∧ Crosses (commandFrame s.cfg.cmdSlpout) s t) ∧
    (∃ t, exec .dispon s = .next t ∧ Crosses (commandFrame s.cfg.cmdDispon) s t) ∧
    (∃ t, exec .ramwr s = .next t ∧ Crosses (commandFrame s.cfg.cmdRamwr) s t) ∧
    (∀ first last : Half, ∃ t, exec (.caset first last) s = .next t ∧
      Crosses (commandFrame s.cfg.cmdCaset ++ dataFrame [hi8 first, lo8 first] ++ dataFrame [hi8 last, lo8 last]) s t) ∧
    (∀ first last : Half, ∃ t, exec (.paset first last) s = .next t ∧
      Crosses (commandFrame s.cfg.cmdPaset ++ dataFrame [hi8 first, lo8 first] ++ dataFrame [hi8 last, lo8 last]) s t) ∧
    (∀ b, ∃ t, exec (.madctl b) s = .next t ∧ Crosses (commandFrame s.cfg.cmdMadctl ++ dataFrame [b]) s t) ∧
    (∀ b, ∃ t, exec (.pixfmt b) s = .next t ∧ Crosses (commandFrame s.cfg.cmdPixfmt ++ dataFrame [b]) s t) ∧
    (∀ c ps, ∃ t, exec (.tableEntry c ps) s = .next t ∧
      Crosses (commandFrame c ++ ps.flatMap (fun b => dataFrame [b])) s t) ∧
    (∀ c, ∃ t, exec (.rawCmd c) s = .next t ∧ Crosses (commandFrame c) s t) ∧
    (∀ (r : BitVec 5) (g : BitVec 6) (b : BitVec 5), ∃ t, exec (.pixel r g b) s = .next t ∧
      Crosses (dataFrame [hi8 (r ++ g ++ b), lo8 (r ++ g ++ b)]) s t)

/-- SET_WINDOW is the wire instructions CASET, PASET and RAMWR in a row: the same trace, controller, pins and shifter (R165, 30_encoding
R112, R115). That a wire instruction runs by itself is log entry 16. -/
def Obligations.SetWindowIsMadeOfWireInstructions : Prop :=
  ∀ (p : Ports) (s t u v w : State), Ready s → WindowFits s.cfg p.a.toNat p.b.toNat p.c.toNat p.d.toNat →
    exec (.caset p.a p.c) s = .next t → exec (.paset p.b p.d) t = .next u → exec .ramwr u = .next v →
    exec (.setWindow p) s = .next w →
    w.trace = v.trace ∧ w.rx = v.rx ∧ w.pins = v.pins ∧ w.shifter = v.shifter

/-! ### Client layer -/

/-- `fill_circle` issues one DRAW_PIXEL for every integer pair within the radius, no other request, and none twice
(44_client_layer R214). -/
def Obligations.FillCircleIssuesTheDisc : Prop :=
  ∀ (x0 y0 r : Int) (c : Colour),
    (∀ q, q ∈ fillCircle x0 y0 r c ↔ ∃ dx dy : Int, -r ≤ dx ∧ dx ≤ r ∧ -r ≤ dy ∧ dy ≤ r ∧ dx * dx + dy * dy ≤ r * r ∧
      q = .pixel (x0 + dx) (y0 + dy) c) ∧
    (fillCircle x0 y0 r c).Nodup

/-- `draw_char` and `draw_string`: 40 requests a character with distinct colours, as many as set bits with equal ones, the fallback glyph
outside 32 to 126, and a cursor advance of `6*scale` a character (44_client_layer R215, R216, R217). The order of the cells is log
entry 23. -/
def Obligations.TextIssuesCells : Prop :=
  ∀ (g : GlyphTable) (x y : Int) (ch : Nat) (fg bg : Colour) (scale : Nat) (text : List Nat), 1 ≤ scale →
    (bg ≠ fg → (drawChar g x y ch fg bg scale).length = 40) ∧
    ((drawChar g x y ch fg fg scale).length =
      (((List.range 5).flatMap (fun i => (List.range 8).map (fun j => g (glyphCode ch) i j))).filter id).length) ∧
    (ch < 32 ∨ 126 < ch → drawChar g x y ch fg bg scale = drawChar g x y 63 fg bg scale) ∧
    drawString g x y fg bg scale text =
      (List.range text.length).flatMap
        (fun (k : Nat) => drawChar g (x + 6 * scale * k) y (text.getD k 63) fg bg scale)
end

