-- ==== Sys2Proof/Laws/Client.lean ====
section
/-! SUPPORT. What the client calls determine for every line and circle algorithm (44_client_layer R211, R212, R213). -/

namespace Sys2Proof.Machine

/-- A line issues DRAW_PIXEL requests only, all of its colour (R211). -/
theorem drawLine_pixels {alg : LineAlg} {x0 y0 x1 y1 : Int} {c : Colour} {q : ClientReq}
    (h : q ∈ drawLine alg x0 y0 x1 y1 c) : ∃ x y, q = .pixel x y c := by
  obtain ⟨p, -, rfl⟩ := List.mem_map.mp h
  exact ⟨_, _, rfl⟩

/-- Both end points of a line are among its requests (R211). -/
theorem drawLine_ends (alg : LineAlg) (x0 y0 x1 y1 : Int) (c : Colour) :
    .pixel x0 y0 c ∈ drawLine alg x0 y0 x1 y1 c ∧ .pixel x1 y1 c ∈ drawLine alg x0 y0 x1 y1 c :=
  ⟨List.mem_map.mpr ⟨_, alg.first _ _ _ _, rfl⟩, List.mem_map.mpr ⟨_, alg.last _ _ _ _, rfl⟩⟩

/-- A line of one point is exactly one request (R211). -/
theorem drawLine_single (alg : LineAlg) (x y : Int) (c : Colour) : drawLine alg x y x y c = [.pixel x y c] := by
  simp [drawLine, alg.single]

/-- An outline issues DRAW_PIXEL requests only, all of its colour (R212). -/
theorem drawRect_pixels {alg : LineAlg} {x y w h : Int} {c : Colour} {q : ClientReq} (hq : q ∈ drawRect alg x y w h c) :
    ∃ u v, q = .pixel u v c := by
  simp only [drawRect, List.mem_append] at hq
  rcases hq with ((hq | hq) | hq) | hq <;> exact drawLine_pixels hq

/-- A circle issues DRAW_PIXEL requests only, all of its colour (R213). -/
theorem drawCircle_pixels {alg : CircleAlg} {x0 y0 r : Int} {c : Colour} {q : ClientReq}
    (h : q ∈ drawCircle alg x0 y0 r c) : ∃ x y, q = .pixel x y c := by
  obtain ⟨d, -, rfl⟩ := List.mem_map.mp h
  exact ⟨_, _, rfl⟩

/-- A circle's request is the one at a plotted offset. -/
theorem mem_drawCircle {alg : CircleAlg} {x0 y0 r dx dy : Int} {c : Colour} :
    .pixel (x0 + dx) (y0 + dy) c ∈ drawCircle alg x0 y0 r c ↔ (dx, dy) ∈ cardinals r ++ alg.offsets r := by
  constructor
  · intro h
    obtain ⟨⟨u, v⟩, hm, he⟩ := List.mem_map.mp h
    obtain ⟨h1, h2, -⟩ := ClientReq.pixel.inj he
    obtain rfl : u = dx := by simpa using h1
    obtain rfl : v = dy := by simpa using h2
    exact hm
  · exact fun h => List.mem_map.mpr ⟨_, h, rfl⟩

/-- For every plotted point of a circle its three mirror images are plotted too (R213, 90_conflicts C4). -/
theorem drawCircle_mirrored {alg : CircleAlg} {x0 y0 r dx dy : Int} {c : Colour} (hr : 0 < r)
    (h : .pixel (x0 + dx) (y0 + dy) c ∈ drawCircle alg x0 y0 r c) :
    .pixel (x0 + -dx) (y0 + dy) c ∈ drawCircle alg x0 y0 r c ∧ .pixel (x0 + dx) (y0 + -dy) c ∈ drawCircle alg x0 y0 r c ∧
      .pixel (x0 + -dx) (y0 + -dy) c ∈ drawCircle alg x0 y0 r c := by
  obtain ⟨h1, h2, h3⟩ := alg.mirrored r hr dx dy (mem_drawCircle.mp h)
  exact ⟨mem_drawCircle.mpr h1, mem_drawCircle.mpr h2, mem_drawCircle.mpr h3⟩

end Sys2Proof.Machine
end

