-- ==== Sys2Proof/Laws/State.lean ====
section
/-! SUPPORT. One lemma per field per update of the state: what emitting an event, loading the operand registers, raising a fault and a register transfer do to each field. -/

namespace Sys2Proof.Machine

@[simp] theorem emit_cfg (e : Event) (s : State) : (emit e s).cfg = s.cfg := rfl
@[simp] theorem emit_pins (e : Event) (s : State) : (emit e s).pins = drivePins e s.pins := rfl
@[simp] theorem emit_regs (e : Event) (s : State) : (emit e s).regs = s.regs := rfl
@[simp] theorem emit_work (e : Event) (s : State) : (emit e s).work = s.work := rfl
@[simp] theorem emit_shifter (e : Event) (s : State) : (emit e s).shifter = driveShifter e s.shifter := rfl
@[simp] theorem emit_ph (e : Event) (s : State) : (emit e s).ph = s.ph := rfl
@[simp] theorem emit_initDone (e : Event) (s : State) : (emit e s).initDone = s.initDone := rfl
@[simp] theorem emit_busy (e : Event) (s : State) : (emit e s).busy = s.busy := rfl
@[simp] theorem emit_fault (e : Event) (s : State) : (emit e s).fault = s.fault := rfl
@[simp] theorem emit_finfo (e : Event) (s : State) : (emit e s).finfo = s.finfo := rfl
@[simp] theorem emit_rsp (e : Event) (s : State) : (emit e s).rsp = s.rsp := rfl
@[simp] theorem emit_trace (e : Event) (s : State) : (emit e s).trace = s.trace ++ [e] := rfl
@[simp] theorem emit_rx (e : Event) (s : State) : (emit e s).rx = rxEvent s.cfg e s.rx := rfl
@[simp] theorem emit_prog (e : Event) (s : State) : (emit e s).prog = s.prog := rfl
@[simp] theorem emit_input (e : Event) (s : State) : (emit e s).input = s.input := rfl
@[simp] theorem emit_grain (e : Event) (s : State) : (emit e s).grain = s.grain := rfl
@[simp] theorem emit_done (e : Event) (s : State) : (emit e s).done = s.done := rfl

@[simp] theorem loadPorts_some_regs (p : Ports) (s : State) : (loadPorts (some p) s).regs = p := rfl
@[simp] theorem loadPorts_none (s : State) : loadPorts none s = s := rfl
@[simp] theorem loadPorts_cfg (p : Option Ports) (s : State) : (loadPorts p s).cfg = s.cfg := by cases p <;> rfl
@[simp] theorem loadPorts_pins (p : Option Ports) (s : State) : (loadPorts p s).pins = s.pins := by cases p <;> rfl
@[simp] theorem loadPorts_work (p : Option Ports) (s : State) : (loadPorts p s).work = s.work := by cases p <;> rfl
@[simp] theorem loadPorts_shifter (p : Option Ports) (s : State) : (loadPorts p s).shifter = s.shifter := by cases p <;> rfl
@[simp] theorem loadPorts_ph (p : Option Ports) (s : State) : (loadPorts p s).ph = s.ph := by cases p <;> rfl
@[simp] theorem loadPorts_initDone (p : Option Ports) (s : State) : (loadPorts p s).initDone = s.initDone := by cases p <;> rfl
@[simp] theorem loadPorts_busy (p : Option Ports) (s : State) : (loadPorts p s).busy = s.busy := by cases p <;> rfl
@[simp] theorem loadPorts_fault (p : Option Ports) (s : State) : (loadPorts p s).fault = s.fault := by cases p <;> rfl
@[simp] theorem loadPorts_finfo (p : Option Ports) (s : State) : (loadPorts p s).finfo = s.finfo := by cases p <;> rfl
@[simp] theorem loadPorts_rsp (p : Option Ports) (s : State) : (loadPorts p s).rsp = s.rsp := by cases p <;> rfl
@[simp] theorem loadPorts_trace (p : Option Ports) (s : State) : (loadPorts p s).trace = s.trace := by cases p <;> rfl
@[simp] theorem loadPorts_rx (p : Option Ports) (s : State) : (loadPorts p s).rx = s.rx := by cases p <;> rfl
@[simp] theorem loadPorts_prog (p : Option Ports) (s : State) : (loadPorts p s).prog = s.prog := by cases p <;> rfl
@[simp] theorem loadPorts_input (p : Option Ports) (s : State) : (loadPorts p s).input = s.input := by cases p <;> rfl
@[simp] theorem loadPorts_grain (p : Option Ports) (s : State) : (loadPorts p s).grain = s.grain := by cases p <;> rfl
@[simp] theorem loadPorts_done (p : Option Ports) (s : State) : (loadPorts p s).done = s.done := by cases p <;> rfl

@[simp] theorem raiseFault_cfg (c : FaultCode) (info : Word) (s : State) : (raiseFault c info s).cfg = s.cfg := rfl
@[simp] theorem raiseFault_pins (c : FaultCode) (info : Word) (s : State) : (raiseFault c info s).pins = s.pins := rfl
@[simp] theorem raiseFault_regs (c : FaultCode) (info : Word) (s : State) : (raiseFault c info s).regs = s.regs := rfl
@[simp] theorem raiseFault_work (c : FaultCode) (info : Word) (s : State) : (raiseFault c info s).work = s.work := rfl
@[simp] theorem raiseFault_shifter (c : FaultCode) (info : Word) (s : State) : (raiseFault c info s).shifter = s.shifter := rfl
@[simp] theorem raiseFault_ph (c : FaultCode) (info : Word) (s : State) : (raiseFault c info s).ph = s.ph := rfl
@[simp] theorem raiseFault_initDone (c : FaultCode) (info : Word) (s : State) : (raiseFault c info s).initDone = s.initDone := rfl
@[simp] theorem raiseFault_busy (c : FaultCode) (info : Word) (s : State) : (raiseFault c info s).busy = s.busy := rfl
@[simp] theorem raiseFault_fault (c : FaultCode) (info : Word) (s : State) : (raiseFault c info s).fault = faultCode c := rfl
@[simp] theorem raiseFault_finfo (c : FaultCode) (info : Word) (s : State) : (raiseFault c info s).finfo = info := rfl
@[simp] theorem raiseFault_rsp (c : FaultCode) (info : Word) (s : State) : (raiseFault c info s).rsp = s.rsp := rfl
@[simp] theorem raiseFault_trace (c : FaultCode) (info : Word) (s : State) : (raiseFault c info s).trace = s.trace := rfl
@[simp] theorem raiseFault_rx (c : FaultCode) (info : Word) (s : State) : (raiseFault c info s).rx = s.rx := rfl
@[simp] theorem raiseFault_prog (c : FaultCode) (info : Word) (s : State) : (raiseFault c info s).prog = s.prog := rfl
@[simp] theorem raiseFault_input (c : FaultCode) (info : Word) (s : State) : (raiseFault c info s).input = s.input := rfl
@[simp] theorem raiseFault_grain (c : FaultCode) (info : Word) (s : State) : (raiseFault c info s).grain = s.grain := rfl
@[simp] theorem raiseFault_done (c : FaultCode) (info : Word) (s : State) : (raiseFault c info s).done = s.done := rfl

@[simp] theorem applyXfer_cfg (x : Xfer) (s : State) : (applyXfer x s).cfg = s.cfg := by cases x <;> rfl
@[simp] theorem applyXfer_pins (x : Xfer) (s : State) : (applyXfer x s).pins = s.pins := by cases x <;> rfl
@[simp] theorem applyXfer_regs (x : Xfer) (s : State) : (applyXfer x s).regs = s.regs := by cases x <;> rfl
@[simp] theorem applyXfer_shifter (x : Xfer) (s : State) : (applyXfer x s).shifter = s.shifter := by cases x <;> rfl
@[simp] theorem applyXfer_ph (x : Xfer) (s : State) : (applyXfer x s).ph = s.ph := by cases x <;> rfl
@[simp] theorem applyXfer_busy (x : Xfer) (s : State) : (applyXfer x s).busy = s.busy := by cases x <;> rfl
@[simp] theorem applyXfer_fault (x : Xfer) (s : State) : (applyXfer x s).fault = s.fault := by cases x <;> rfl
@[simp] theorem applyXfer_finfo (x : Xfer) (s : State) : (applyXfer x s).finfo = s.finfo := by cases x <;> rfl
@[simp] theorem applyXfer_rsp (x : Xfer) (s : State) : (applyXfer x s).rsp = s.rsp := by cases x <;> rfl
@[simp] theorem applyXfer_trace (x : Xfer) (s : State) : (applyXfer x s).trace = s.trace := by cases x <;> rfl
@[simp] theorem applyXfer_rx (x : Xfer) (s : State) : (applyXfer x s).rx = s.rx := by cases x <;> rfl
@[simp] theorem applyXfer_prog (x : Xfer) (s : State) : (applyXfer x s).prog = s.prog := by cases x <;> rfl
@[simp] theorem applyXfer_input (x : Xfer) (s : State) : (applyXfer x s).input = s.input := by cases x <;> rfl
@[simp] theorem applyXfer_grain (x : Xfer) (s : State) : (applyXfer x s).grain = s.grain := by cases x <;> rfl
@[simp] theorem applyXfer_done (x : Xfer) (s : State) : (applyXfer x s).done = s.done := by cases x <;> rfl

@[simp] theorem applyXfer_window_work (x0 y0 x1 y1 : Half) (s : State) :
    (applyXfer (.window x0 y0 x1 y1) s).work = { s.work with wx0 := x0, wy0 := y0, wx1 := x1, wy1 := y1 } := rfl
@[simp] theorem applyXfer_cnt_work (v : Word) (s : State) :
    (applyXfer (.cnt v) s).work = { s.work with cnt := v } := rfl
@[simp] theorem applyXfer_ptr_work (v : Word) (s : State) :
    (applyXfer (.ptr v) s).work = { s.work with ptr := v } := rfl
@[simp] theorem applyXfer_cbFill_work (c : Colour) (s : State) :
    (applyXfer (.cbFill c) s).work = { s.work with cb := fillPattern s.cfg.chunkPixels c } := rfl
@[simp] theorem applyXfer_cbLoad_work (ps : List Colour) (s : State) :
    (applyXfer (.cbLoad ps) s).work = { s.work with cb := loadPrefix (pixelsBytes ps) s.work.cb } := rfl
@[simp] theorem applyXfer_initDone_work (s : State) : (applyXfer .initDone s).work = s.work := rfl
@[simp] theorem applyXfer_initDone_initDone (s : State) : (applyXfer .initDone s).initDone = true := rfl

/-- A register transfer writes `INIT_DONE` only when it is `INIT_DONE <- 1`. -/
theorem applyXfer_initDone (x : Xfer) (s : State) :
    (applyXfer x s).initDone = (s.initDone || x == .initDone) := by
  cases x <;> simp [applyXfer]

@[simp] theorem applyXfers_cfg (xs : List Xfer) (s : State) : (applyXfers xs s).cfg = s.cfg := by
  induction xs generalizing s with
  | nil => rfl
  | cons x xs ih => exact (ih (applyXfer x s)).trans (applyXfer_cfg x s)
@[simp] theorem applyXfers_pins (xs : List Xfer) (s : State) : (applyXfers xs s).pins = s.pins := by
  induction xs generalizing s with
  | nil => rfl
  | cons x xs ih => exact (ih (applyXfer x s)).trans (applyXfer_pins x s)
@[simp] theorem applyXfers_regs (xs : List Xfer) (s : State) : (applyXfers xs s).regs = s.regs := by
  induction xs generalizing s with
  | nil => rfl
  | cons x xs ih => exact (ih (applyXfer x s)).trans (applyXfer_regs x s)
@[simp] theorem applyXfers_shifter (xs : List Xfer) (s : State) : (applyXfers xs s).shifter = s.shifter := by
  induction xs generalizing s with
  | nil => rfl
  | cons x xs ih => exact (ih (applyXfer x s)).trans (applyXfer_shifter x s)
@[simp] theorem applyXfers_ph (xs : List Xfer) (s : State) : (applyXfers xs s).ph = s.ph := by
  induction xs generalizing s with
  | nil => rfl
  | cons x xs ih => exact (ih (applyXfer x s)).trans (applyXfer_ph x s)
@[simp] theorem applyXfers_busy (xs : List Xfer) (s : State) : (applyXfers xs s).busy = s.busy := by
  induction xs generalizing s with
  | nil => rfl
  | cons x xs ih => exact (ih (applyXfer x s)).trans (applyXfer_busy x s)
@[simp] theorem applyXfers_fault (xs : List Xfer) (s : State) : (applyXfers xs s).fault = s.fault := by
  induction xs generalizing s with
  | nil => rfl
  | cons x xs ih => exact (ih (applyXfer x s)).trans (applyXfer_fault x s)
@[simp] theorem applyXfers_finfo (xs : List Xfer) (s : State) : (applyXfers xs s).finfo = s.finfo := by
  induction xs generalizing s with
  | nil => rfl
  | cons x xs ih => exact (ih (applyXfer x s)).trans (applyXfer_finfo x s)
@[simp] theorem applyXfers_rsp (xs : List Xfer) (s : State) : (applyXfers xs s).rsp = s.rsp := by
  induction xs generalizing s with
  | nil => rfl
  | cons x xs ih => exact (ih (applyXfer x s)).trans (applyXfer_rsp x s)
@[simp] theorem applyXfers_trace (xs : List Xfer) (s : State) : (applyXfers xs s).trace = s.trace := by
  induction xs generalizing s with
  | nil => rfl
  | cons x xs ih => exact (ih (applyXfer x s)).trans (applyXfer_trace x s)
@[simp] theorem applyXfers_rx (xs : List Xfer) (s : State) : (applyXfers xs s).rx = s.rx := by
  induction xs generalizing s with
  | nil => rfl
  | cons x xs ih => exact (ih (applyXfer x s)).trans (applyXfer_rx x s)
@[simp] theorem applyXfers_prog (xs : List Xfer) (s : State) : (applyXfers xs s).prog = s.prog := by
  induction xs generalizing s with
  | nil => rfl
  | cons x xs ih => exact (ih (applyXfer x s)).trans (applyXfer_prog x s)
@[simp] theorem applyXfers_input (xs : List Xfer) (s : State) : (applyXfers xs s).input = s.input := by
  induction xs generalizing s with
  | nil => rfl
  | cons x xs ih => exact (ih (applyXfer x s)).trans (applyXfer_input x s)
@[simp] theorem applyXfers_grain (xs : List Xfer) (s : State) : (applyXfers xs s).grain = s.grain := by
  induction xs generalizing s with
  | nil => rfl
  | cons x xs ih => exact (ih (applyXfer x s)).trans (applyXfer_grain x s)
@[simp] theorem applyXfers_done (xs : List Xfer) (s : State) : (applyXfers xs s).done = s.done := by
  induction xs generalizing s with
  | nil => rfl
  | cons x xs ih => exact (ih (applyXfer x s)).trans (applyXfer_done x s)

@[simp] theorem applyXfers_nil (s : State) : applyXfers [] s = s := rfl
@[simp] theorem applyXfers_cons (x : Xfer) (xs : List Xfer) (s : State) :
    applyXfers (x :: xs) s = applyXfers xs (applyXfer x s) := rfl

end Sys2Proof.Machine
end

