-- ==== Sys2Proof/Laws/Ops.lean ====
section
/-! SUPPORT. What the shared operations can do, said once: a list of beats, a request taken whole, a request accepted, and one step of the sequencer. -/

namespace Sys2Proof.Machine

/-! ### Events of beats -/

@[simp] theorem eventsOf_nil : eventsOf [] = [] := rfl
@[simp] theorem eventsOf_cons (b : Beat) (bs : List Beat) : eventsOf (b :: bs) = b.ev :: eventsOf bs := rfl
@[simp] theorem eventsOf_append (as bs : List Beat) : eventsOf (as ++ bs) = eventsOf as ++ eventsOf bs := by
  simp [eventsOf]
@[simp] theorem eventsOf_length (bs : List Beat) : (eventsOf bs).length = bs.length := by simp [eventsOf]
@[simp] theorem bare_ev (e : Event) : (bare e).ev = e := rfl

/-- A frame's events are the drive of the level, chip-select low, the bytes, chip-select high, whatever transfers go with it. -/
@[simp] theorem eventsOf_frameWith (pre : List Xfer) (dc : Bool) (bs : List Byte) (post : List Xfer) :
    eventsOf (frameWith pre dc bs post) = .dc dc :: .cs false :: (bs.map .tx ++ [.cs true]) := by
  have h : eventsOf (bs.map fun b => bare (.tx b)) = bs.map Event.tx := by
    simp [eventsOf, Function.comp_def]
  simp [frameWith, h]

/-! ### A list of beats -/

@[simp] theorem runBeats_nil (s : State) : runBeats [] s = s := rfl
@[simp] theorem runBeats_cons (b : Beat) (bs : List Beat) (s : State) :
    runBeats (b :: bs) s = runBeats bs (runBeat b s) := rfl
theorem runBeats_append (as bs : List Beat) (s : State) : runBeats (as ++ bs) s = runBeats bs (runBeats as s) := by
  simp [runBeats]

theorem runBeat_trace (b : Beat) (s : State) : (runBeat b s).trace = s.trace ++ [b.ev] := by simp [runBeat]
theorem runBeat_rx (b : Beat) (s : State) : (runBeat b s).rx = rxEvent s.cfg b.ev s.rx := by simp [runBeat]
theorem runBeat_pins (b : Beat) (s : State) : (runBeat b s).pins = drivePins b.ev s.pins := by simp [runBeat]

/-- What a beat leaves alone: everything but the pins, the working registers, the shifter, `INIT_DONE`, the trace and the controller. -/
theorem runBeat_frame (b : Beat) (s : State) :
    (runBeat b s).cfg = s.cfg ∧ (runBeat b s).regs = s.regs ∧ (runBeat b s).ph = s.ph ∧ (runBeat b s).busy = s.busy ∧
      (runBeat b s).fault = s.fault ∧ (runBeat b s).finfo = s.finfo ∧ (runBeat b s).rsp = s.rsp ∧
      (runBeat b s).prog = s.prog ∧ (runBeat b s).input = s.input ∧ (runBeat b s).grain = s.grain ∧
      (runBeat b s).done = s.done := by
  simp [runBeat]

/-- The events of a list of beats are appended to the trace, in order (00_scope R12, 20_memory R90). -/
theorem runBeats_trace (bs : List Beat) (s : State) : (runBeats bs s).trace = s.trace ++ eventsOf bs := by
  induction bs generalizing s with
  | nil => simp
  | cons b bs ih => simp [ih, runBeat_trace]

/-- What a list of beats leaves alone. -/
theorem runBeats_frame (bs : List Beat) (s : State) :
    (runBeats bs s).cfg = s.cfg ∧ (runBeats bs s).regs = s.regs ∧ (runBeats bs s).ph = s.ph ∧
      (runBeats bs s).busy = s.busy ∧ (runBeats bs s).fault = s.fault ∧ (runBeats bs s).finfo = s.finfo ∧
      (runBeats bs s).rsp = s.rsp ∧ (runBeats bs s).prog = s.prog ∧ (runBeats bs s).input = s.input ∧
      (runBeats bs s).grain = s.grain ∧ (runBeats bs s).done = s.done := by
  induction bs generalizing s with
  | nil => simp
  | cons b bs ih =>
    obtain ⟨h1, h2, h3, h4, h5, h6, h7, h8, h9, h10, h11⟩ := runBeat_frame b s
    obtain ⟨k1, k2, k3, k4, k5, k6, k7, k8, k9, k10, k11⟩ := ih (runBeat b s)
    exact ⟨k1.trans h1, k2.trans h2, k3.trans h3, k4.trans h4, k5.trans h5, k6.trans h6, k7.trans h7, k8.trans h8,
      k9.trans h9, k10.trans h10, k11.trans h11⟩

/-- The controller has received exactly the events of the beats, in order (20_memory R90). -/
theorem runBeats_rx (bs : List Beat) (s : State) : (runBeats bs s).rx = rxRun s.cfg (eventsOf bs) s.rx := by
  induction bs generalizing s with
  | nil => rfl
  | cons b bs ih =>
    rw [runBeats_cons, ih, (runBeat_frame b s).1, runBeat_rx]
    rfl

/-- The pins after a list of beats are those its events drive. -/
theorem runBeats_pins (bs : List Beat) (s : State) :
    (runBeats bs s).pins = (eventsOf bs).foldl (fun p e => drivePins e p) s.pins := by
  induction bs generalizing s with
  | nil => rfl
  | cons b bs ih => rw [runBeats_cons, ih, runBeat_pins]; rfl

/-- `INIT_DONE` rises only by a transfer that sets it, and never falls. -/
theorem runBeats_initDone_mono (bs : List Beat) (s : State) (h : s.initDone = true) : (runBeats bs s).initDone = true := by
  have xs : ∀ (l : List Xfer) (t : State), t.initDone = true → (applyXfers l t).initDone = true := by
    intro l
    induction l with
    | nil => exact fun _ ht => ht
    | cons x l ih => exact fun t ht => ih _ (by rw [applyXfer_initDone, ht]; rfl)
  induction bs generalizing s with
  | nil => exact h
  | cons b bs ih => exact ih _ (xs _ _ (by rw [emit_initDone]; exact xs _ _ h))

/-! ### The receiver over a list of events -/

@[simp] theorem rxRun_nil (cfg : Config) (r : Rx) : rxRun cfg [] r = r := rfl
@[simp] theorem rxRun_cons (cfg : Config) (e : Event) (es : List Event) (r : Rx) :
    rxRun cfg (e :: es) r = rxRun cfg es (rxEvent cfg e r) := rfl
theorem rxRun_append (cfg : Config) (as bs : List Event) (r : Rx) :
    rxRun cfg (as ++ bs) r = rxRun cfg bs (rxRun cfg as r) := by
  simp [rxRun]

/-! ### The shifter -/

/-- A byte shifted out: eight pulses, most significant bit first, and the shifter empty (41_bus_transport R141). -/
theorem shiftOut_eq (b : Byte) :
    shiftOut b = (pulse (b.getLsbD 7) ++ pulse (b.getLsbD 6) ++ pulse (b.getLsbD 5) ++ pulse (b.getLsbD 4) ++
      pulse (b.getLsbD 3) ++ pulse (b.getLsbD 2) ++ pulse (b.getLsbD 1) ++ pulse (b.getLsbD 0), ⟨0, 0⟩) := by
  revert b
  decide +revert

/-- The pins after a byte: the clock low, the data pin at the last bit. -/
@[simp] theorem drivePins_tx (b : Byte) (p : Pins) :
    drivePins (.tx b) p = { p with sck := false, mosi := b.getLsbD 0 } := by
  simp [drivePins, shiftOut_eq, pulse, drivePin]

/-! ### Taking a request -/

/-- What a request taken whole can do: nothing while busy, a refusal while faulted, and otherwise a fault, a response, or its events. -/
theorem perform_cases (j : Job) (s : State) :
    ∃ t, perform j s = .next t ∧
      ((s.busy = true ∧ t = s) ∨
       (s.busy = false ∧ s.fault ≠ 0 ∧ t = { s with done := true }) ∨
       (s.busy = false ∧ s.fault = 0 ∧
        ((∃ c info, j.verdict = .fault c info ∧ t = { raiseFault c info (loadPorts j.ports s) with done := true }) ∨
         (∃ v, j.verdict = .respond v ∧ t = { loadPorts j.ports s with rsp := v, done := true }) ∨
         (∃ bs, j.verdict = .run bs ∧ t = { runBeats bs (loadPorts j.ports s) with done := true })))) := by
  refine ⟨_, rfl, ?_⟩
  by_cases hb : s.busy = true
  · exact .inl ⟨hb, by simp [hb]⟩
  · have hb' : s.busy = false := by simpa using hb
    by_cases hf : s.fault = 0
    · refine .inr (.inr ⟨hb', hf, ?_⟩)
      rcases hv : j.verdict with ⟨c, info⟩ | v | bs
      · exact .inl ⟨c, info, rfl, by simp [hb', hf, settle]⟩
      · exact .inr (.inl ⟨v, rfl, by simp [hb', hf, settle]⟩)
      · exact .inr (.inr ⟨bs, rfl, by simp [hb', hf, settle]⟩)
    · exact .inr (.inl ⟨hb', hf, by rw [if_neg hb, if_pos hf]⟩)

/-- A request with events, taken whole by a block that accepts it. -/
theorem perform_run {j : Job} {s : State} {bs : List Beat} (hb : s.busy = false) (hf : s.fault = 0)
    (hj : j.verdict = .run bs) : perform j s = .next { runBeats bs (loadPorts j.ports s) with done := true } := by
  simp [perform, hb, hf, hj, settle]

/-- A request whose check fails, taken by a block that accepts it. -/
theorem perform_fault {j : Job} {s : State} {c : FaultCode} {info : Word} (hb : s.busy = false) (hf : s.fault = 0)
    (hj : j.verdict = .fault c info) :
    perform j s = .next { raiseFault c info (loadPorts j.ports s) with done := true } := by
  simp [perform, hb, hf, hj, settle]

/-- A request presented to a faulted block is refused (60_exceptions R237). -/
theorem perform_faulted {s : State} (j : Job) (hb : s.busy = false) (hf : s.fault ≠ 0) :
    perform j s = .next { s with done := true } := by
  unfold perform
  rw [if_neg (by simp [hb]), if_pos hf]

/-- What accepting a request can do: the request completes as if taken whole, or its event list, not empty, is fixed and `BUSY` set. -/
theorem accept_cases (j : Job) (s : State) :
    accept j s = perform j s ∨
      (s.busy = false ∧ s.fault = 0 ∧ ∃ b bs, j.verdict = .run (b :: bs) ∧
        accept j s =
          .next { loadPorts j.ports s with busy := true, ph := some 0, prog := b :: bs, done := false }) := by
  unfold accept
  split
  · next b bs hj =>
    by_cases hb : s.busy = true
    · exact .inl (by simp [perform, hb])
    · have hb' : s.busy = false := by simpa using hb
      by_cases hf : s.fault = 0
      · exact .inr ⟨hb', hf, b, bs, hj, by simp [hb', hf]⟩
      · exact .inl (by rw [perform_faulted j hb' hf, if_neg hb, if_pos hf])
  · exact .inl rfl
  · exact .inl rfl
  · exact .inl rfl

/-- What one step of the sequencer can do (10_state R36). -/
theorem tick_cases {s t : State} (h : tick s = .next t) :
    ∃ i b, s.ph = some i ∧ s.prog[i]? = some b ∧
      ((i + 1 < s.prog.length ∧ t = { runBeat b s with ph := some (i + 1), done := false }) ∨
       (i + 1 = s.prog.length ∧ t = { runBeat b s with ph := none, busy := false, prog := [], done := true })) := by
  unfold tick at h
  split at h
  · cases h
  · next i hi =>
    split at h
    · cases h
    · next b hb =>
      refine ⟨i, b, hi, hb, ?_⟩
      have hlt : i < s.prog.length := by
        by_contra hge
        rw [List.getElem?_eq_none (by omega)] at hb
        cases hb
      split at h
      · next hl => cases h; exact .inl ⟨hl, rfl⟩
      · next hl => cases h; exact .inr ⟨by omega, rfl⟩

end Sys2Proof.Machine
end

