-- ==== Sys2Proof/Laws/Exec.lean ====
section
/-! SUPPORT. What an instruction and a step can do, said once: every meaning performs the instruction's job. -/

namespace Sys2Proof.Machine

/-- Every meaning performs the job of its instruction. -/
theorem exec_eq_perform (i : Instr) (s : State) : exec i s = perform (jobOf i s) s := by
  cases i <;> rfl

/-- The ports a job loads are those the instruction presents. -/
theorem jobOf_ports (i : Instr) (s : State) : (jobOf i s).ports = i.ports? := by
  cases i <;> rfl

/-- Every instruction answers a next state. -/
theorem exec_next (i : Instr) (s : State) : ∃ t, exec i s = .next t := by
  rw [exec_eq_perform]
  exact ⟨_, rfl⟩

/-- A step of an idle block runs the instruction first on the input, whole. -/
theorem step_whole {s : State} {it : Item} {rest : List Item} {i : Instr} (hb : s.busy = false) (hg : s.grain = .whole)
    (hi : s.input = it :: rest) (hd : decode s.cfg it = .ok i) :
    step s = exec i { s with input := rest, done := false } := by
  simp [step, takeItem, hb, hg, hi, hd]

/-- A step of an idle block accepts the instruction first on the input, to be run event by event. -/
theorem step_perEvent {s : State} {it : Item} {rest : List Item} {i : Instr} (hb : s.busy = false)
    (hg : s.grain = .perEvent) (hi : s.input = it :: rest) (hd : decode s.cfg it = .ok i) :
    step s = accept (jobOf i { s with input := rest, done := false }) { s with input := rest, done := false } := by
  simp [step, takeItem, hb, hg, hi, hd]

/-- A step of a busy block is a step of the sequencer. -/
theorem step_busy {s : State} (hb : s.busy = true) : step s = tick s := by simp [step, hb]

/-- What a step can do. -/
theorem step_cases {s t : State} (h : step s = .next t) :
    (s.busy = true ∧ tick s = .next t) ∨
    (s.busy = false ∧ s.input = [] ∧ t = { s with done := false }) ∨
    (∃ it rest i, s.busy = false ∧ s.input = it :: rest ∧ decode s.cfg it = .ok i ∧
      ((s.grain = .whole ∧ exec i { s with input := rest, done := false } = .next t) ∨
       (s.grain = .perEvent ∧
        accept (jobOf i { s with input := rest, done := false }) { s with input := rest, done := false } = .next t))) := by
  unfold step at h
  split at h
  · next hb => exact .inl ⟨hb, h⟩
  · next hb =>
    have hb' : s.busy = false := by simpa using hb
    split at h
    · next hi => cases h; exact .inr (.inl ⟨hb', hi, rfl⟩)
    · next it rest hi =>
      split at h
      · cases h
      · next i hd =>
        refine .inr (.inr ⟨it, rest, i, hb', hi, hd, ?_⟩)
        obtain hg | hg : s.grain = .whole ∨ s.grain = .perEvent := by cases s.grain <;> simp
        · rw [hg] at h; exact .inl ⟨hg, h⟩
        · rw [hg] at h; exact .inr ⟨hg, h⟩

end Sys2Proof.Machine
end

