-- ==== Sys2Proof/Laws/Memory.lean ====
section
/-! SUPPORT. Every memory operation keeps the canonical form, a byte written is read back, and a write leaves every other address alone. -/

namespace Sys2Proof.Machine

@[simp] theorem memRead_nil (a : Nat) : memRead a [] = none := rfl

theorem memAbove_mono {lo lo' : Nat} (h : lo' ≤ lo) {m : Memory} (hm : memAbove lo m = true) : memAbove lo' m = true := by
  cases m with
  | nil => rfl
  | cons c rest =>
    simp only [memAbove, Bool.and_eq_true, decide_eq_true_eq] at hm ⊢
    exact ⟨by omega, hm.2⟩

theorem memRead_of_memAbove {lo a : Nat} (h : a ≤ lo) {m : Memory} (hm : memAbove lo m = true) : memRead a m = none := by
  induction m generalizing lo with
  | nil => rfl
  | cons c rest ih =>
    simp only [memAbove, Bool.and_eq_true, decide_eq_true_eq] at hm
    simp only [memRead]
    rw [if_neg (by omega)]
    exact ih (lo := c.1) (by omega) hm.2

theorem memWrite_above {lo a : Nat} (h : lo < a) (v : Byte) {m : Memory} (hm : memAbove lo m = true) :
    memAbove lo (memWrite a v m) = true := by
  induction m generalizing lo with
  | nil => simp [memWrite, memAbove, h]
  | cons c rest ih =>
    simp only [memAbove, Bool.and_eq_true, decide_eq_true_eq] at hm
    simp only [memWrite]
    split
    · simp [memAbove, *]
    · split
      · next h1 h2 => subst h2; simp [memAbove, hm]
      · simp only [memAbove, Bool.and_eq_true, decide_eq_true_eq]
        exact ⟨hm.1, ih (by omega) hm.2⟩

/-- A write keeps the canonical form. -/
theorem memWrite_wf (a : Nat) (v : Byte) {m : Memory} (hm : Memory.wf m = true) : Memory.wf (memWrite a v m) = true := by
  cases m with
  | nil => rfl
  | cons c rest =>
    simp only [Memory.wf] at hm
    simp only [memWrite]
    split
    · simp [Memory.wf, memAbove, *]
    · split
      · next h1 h2 => subst h2; simpa [Memory.wf] using hm
      · exact memWrite_above (by omega) v hm

@[simp] theorem memForget_wf : Memory.wf memForget = true := rfl

/-- A byte written is read back. -/
@[simp] theorem memRead_memWrite_self (a : Nat) (v : Byte) (m : Memory) : memRead a (memWrite a v m) = some v := by
  induction m with
  | nil => simp [memWrite, memRead]
  | cons c rest ih =>
    simp only [memWrite]
    split
    · simp [memRead]
    · split
      · simp [memRead]
      · next h1 h2 => simp only [memRead]; rw [if_neg (fun h => h2 h.symm)]; exact ih

/-- A write leaves every other address alone. -/
theorem memRead_memWrite_ne {a b : Nat} (h : b ≠ a) (v : Byte) (m : Memory) : memRead b (memWrite a v m) = memRead b m := by
  induction m with
  | nil => simp [memWrite, memRead, unlisted, Ne.symm h]
  | cons c rest ih =>
    simp only [memWrite]
    split
    · simp [memRead, Ne.symm h]
    · split
      · next h1 h2 => subst h2; simp [memRead, Ne.symm h]
      · simp only [memRead]; rw [ih]

/-- Two pixels of the panel have different keys. -/
theorem pixelKey_inj {r c r' c' : Nat} (h : c < 65536) (h' : c' < 65536) (e : pixelKey r c = pixelKey r' c') :
    r = r' ∧ c = c' := by
  simp only [pixelKey] at e
  omega

/-- Two adjacent bytes are one 16-bit value, and its bytes are the two. -/
@[simp] theorem join16_hi8_lo8 (v : Half) : join16 (hi8 v) (lo8 v) = v := by
  simp only [join16, hi8, lo8]
  ext i hi
  simp only [BitVec.getElem_append, BitVec.getElem_extractLsb']
  split <;> simp [BitVec.getLsbD_eq_getElem, *]
  rw [BitVec.getLsbD_eq_getElem (by omega)]
  congr 1
  omega

@[simp] theorem hi8_join16 (h l : Byte) : hi8 (join16 h l) = h := by
  simp only [join16, hi8]
  ext i hi
  rw [BitVec.getElem_extractLsb' hi]
  refine (BitVec.getLsbD_append (x := h) (y := l) (i := 8 + i)).trans ?_
  rw [if_neg (by omega), Nat.add_sub_cancel_left, BitVec.getLsbD_eq_getElem hi]

@[simp] theorem lo8_join16 (h l : Byte) : lo8 (join16 h l) = l := by
  simp only [join16, lo8]
  ext i hi
  rw [BitVec.getElem_extractLsb' hi]
  refine (BitVec.getLsbD_append (x := h) (y := l) (i := 0 + i)).trans ?_
  rw [if_pos (by omega), Nat.zero_add, BitVec.getLsbD_eq_getElem hi]

/-- A pixel write keeps the canonical form. -/
theorem gramWrite_wf (r c : Nat) (v : Colour) {m : Memory} (hm : Memory.wf m = true) :
    Memory.wf (gramWrite r c v m) = true :=
  memWrite_wf _ _ (memWrite_wf _ _ hm)

/-- A pixel written is read back. -/
theorem gramRead_gramWrite_self (r c : Nat) (v : Colour) (m : Memory) : gramRead (gramWrite r c v m) r c = some v := by
  simp only [gramRead, gramWrite]
  rw [memRead_memWrite_ne (by omega), memRead_memWrite_self, memRead_memWrite_self]
  simp

/-- A pixel write leaves every byte but its own two alone. -/
theorem memRead_gramWrite_ne {a r c : Nat} (h : a ≠ pixelKey r c) (h' : a ≠ pixelKey r c + 1) (v : Colour) (m : Memory) :
    memRead a (gramWrite r c v m) = memRead a m := by
  simp only [gramWrite]
  rw [memRead_memWrite_ne h', memRead_memWrite_ne h]

/-- A pixel write leaves every other pixel of the panel alone. -/
theorem gramRead_gramWrite_ne {r c r' c' : Nat} (h : c < 65536) (h' : c' < 65536) (ne : ¬(r' = r ∧ c' = c))
    (v : Colour) (m : Memory) : gramRead (gramWrite r c v m) r' c' = gramRead m r' c' := by
  have key : pixelKey r' c' ≠ pixelKey r c := fun e => ne (pixelKey_inj h' h e)
  have e1 : pixelKey r' c' ≠ pixelKey r c + 1 := by simp only [pixelKey]; omega
  have e2 : pixelKey r' c' + 1 ≠ pixelKey r c := by simp only [pixelKey]; omega
  have e3 : pixelKey r' c' + 1 ≠ pixelKey r c + 1 := by omega
  simp only [gramRead]
  rw [memRead_gramWrite_ne key e1, memRead_gramWrite_ne e2 e3]

end Sys2Proof.Machine
end

