-- ==== Sys2Proof/Laws/PerInstr.lean ====
section
/-! SUPPORT. A statement for all instructions, one lemma a constructor: a request encodes under its own operation number with its own ports, and a wire instruction encodes as no request. -/

namespace Sys2Proof.Laws.Encoded

/-- The encoding of an instruction is a request exactly when the instruction has an operation number, under that number and with the
ports it presents (30_encoding R100, R102). -/
def Statement (i : Instr) : Prop :=
  ∀ cfg : Config,
    (∀ r : Request, encode cfg i = .request r → i.op? = some r.op ∧ i.ports? = some r.ports) ∧
    (∀ w : WireWord, encode cfg i = .wire w → i.op? = none ∧ i.ports? = none)

theorem sendCmd (p : Ports) : Statement (.sendCmd p) :=
  fun _ => ⟨(fun _ h => by cases h; exact ⟨rfl, rfl⟩), (fun _ h => by cases h)⟩

theorem sendData (p : Ports) : Statement (.sendData p) :=
  fun _ => ⟨(fun _ h => by cases h; exact ⟨rfl, rfl⟩), (fun _ h => by cases h)⟩

theorem sendData16 (p : Ports) : Statement (.sendData16 p) :=
  fun _ => ⟨(fun _ h => by cases h; exact ⟨rfl, rfl⟩), (fun _ h => by cases h)⟩

theorem sendStream (p : Ports) (pay : List Byte) : Statement (.sendStream p pay) :=
  fun _ => ⟨(fun _ h => by cases h; exact ⟨rfl, rfl⟩), (fun _ h => by cases h)⟩

theorem rstAssert (p : Ports) : Statement (.rstAssert p) :=
  fun _ => ⟨(fun _ h => by cases h; exact ⟨rfl, rfl⟩), (fun _ h => by cases h)⟩

theorem rstRelease (p : Ports) : Statement (.rstRelease p) :=
  fun _ => ⟨(fun _ h => by cases h; exact ⟨rfl, rfl⟩), (fun _ h => by cases h)⟩

theorem resetSeq (p : Ports) : Statement (.resetSeq p) :=
  fun _ => ⟨(fun _ h => by cases h; exact ⟨rfl, rfl⟩), (fun _ h => by cases h)⟩

theorem init (p : Ports) : Statement (.init p) :=
  fun _ => ⟨(fun _ h => by cases h; exact ⟨rfl, rfl⟩), (fun _ h => by cases h)⟩

theorem setWindow (p : Ports) : Statement (.setWindow p) :=
  fun _ => ⟨(fun _ h => by cases h; exact ⟨rfl, rfl⟩), (fun _ h => by cases h)⟩

theorem fillScreen (p : Ports) : Statement (.fillScreen p) :=
  fun _ => ⟨(fun _ h => by cases h; exact ⟨rfl, rfl⟩), (fun _ h => by cases h)⟩

theorem drawPixel (p : Ports) : Statement (.drawPixel p) :=
  fun _ => ⟨(fun _ h => by cases h; exact ⟨rfl, rfl⟩), (fun _ h => by cases h)⟩

theorem fillRect (p : Ports) : Statement (.fillRect p) :=
  fun _ => ⟨(fun _ h => by cases h; exact ⟨rfl, rfl⟩), (fun _ h => by cases h)⟩

theorem drawBitmap (p : Ports) (pay : List Colour) : Statement (.drawBitmap p pay) :=
  fun _ => ⟨(fun _ h => by cases h; exact ⟨rfl, rfl⟩), (fun _ h => by cases h)⟩

theorem color565 (p : Ports) : Statement (.color565 p) :=
  fun _ => ⟨(fun _ h => by cases h; exact ⟨rfl, rfl⟩), (fun _ h => by cases h)⟩

theorem reserved14 (p : Ports) : Statement (.reserved14 p) :=
  fun _ => ⟨(fun _ h => by cases h; exact ⟨rfl, rfl⟩), (fun _ h => by cases h)⟩

theorem reserved15 (p : Ports) : Statement (.reserved15 p) :=
  fun _ => ⟨(fun _ h => by cases h; exact ⟨rfl, rfl⟩), (fun _ h => by cases h)⟩

theorem slpout : Statement .slpout :=
  fun _ => ⟨(fun _ h => by cases h), (fun _ _ => ⟨rfl, rfl⟩)⟩

theorem dispon : Statement .dispon :=
  fun _ => ⟨(fun _ h => by cases h), (fun _ _ => ⟨rfl, rfl⟩)⟩

theorem caset (first : Half) (last : Half) : Statement (.caset first last) :=
  fun _ => ⟨(fun _ h => by cases h), (fun _ _ => ⟨rfl, rfl⟩)⟩

theorem paset (first : Half) (last : Half) : Statement (.paset first last) :=
  fun _ => ⟨(fun _ h => by cases h), (fun _ _ => ⟨rfl, rfl⟩)⟩

theorem ramwr : Statement .ramwr :=
  fun _ => ⟨(fun _ h => by cases h), (fun _ _ => ⟨rfl, rfl⟩)⟩

theorem madctl (param : Byte) : Statement (.madctl param) :=
  fun _ => ⟨(fun _ h => by cases h), (fun _ _ => ⟨rfl, rfl⟩)⟩

theorem pixfmt (param : Byte) : Statement (.pixfmt param) :=
  fun _ => ⟨(fun _ h => by cases h), (fun _ _ => ⟨rfl, rfl⟩)⟩

theorem tableEntry (cmd : Byte) (params : List Byte) : Statement (.tableEntry cmd params) :=
  fun _ => ⟨(fun _ h => by cases h), (fun _ _ => ⟨rfl, rfl⟩)⟩

theorem rawCmd (cmd : Byte) : Statement (.rawCmd cmd) :=
  fun _ => ⟨(fun _ h => by cases h), (fun _ _ => ⟨rfl, rfl⟩)⟩

theorem pixel (r : BitVec 5) (g : BitVec 6) (b : BitVec 5) : Statement (.pixel r g b) :=
  fun _ => ⟨(fun _ h => by cases h), (fun _ _ => ⟨rfl, rfl⟩)⟩

end Sys2Proof.Laws.Encoded
end

