-- ==== Sys2Proof/Laws/Receiver.lean ====
section
/-! SUPPORT. What the receiver's steps can do to the pixel memory: nothing, one pixel at the cursor, or forget it all; and that they keep its canonical form. -/

namespace Sys2Proof.Machine

@[simp] theorem rxSetParam_gram (b : Byte) (r : Rx) : (rxSetParam b r).gram = r.gram := by
  unfold rxSetParam; split <;> rfl

@[simp] theorem rxColumnByte_gram (b : Byte) (r : Rx) : (rxColumnByte b r).gram = r.gram := by
  simp only [rxColumnByte]; split <;> simp

@[simp] theorem rxRowByte_gram (b : Byte) (r : Rx) : (rxRowByte b r).gram = r.gram := by
  simp only [rxRowByte]; split <;> simp

@[simp] theorem rxCommand_gram (cfg : Config) (b : Byte) (r : Rx) : (rxCommand cfg b r).gram = r.gram := by
  simp only [rxCommand]; split
  · split <;> rfl
  · split <;> rfl

@[simp] theorem rxAdvance_gram (col row : Nat) (r : Rx) : (rxAdvance col row r).gram = r.gram := by
  unfold rxAdvance; split
  · split <;> rfl
  · rfl

@[simp] theorem rxResyncPixel_gram (r : Rx) : (rxResyncPixel r).gram = r.gram := by
  unfold rxResyncPixel; split <;> rfl

@[simp] theorem rxResyncParam_gram (cfg : Config) (r : Rx) : (rxResyncParam cfg r).gram = r.gram := by
  unfold rxResyncParam; split
  · split
    · rfl
    · split <;> rfl
  · rfl

/-- What a wire event can do to the pixel memory (20_memory R76 to R83). -/
theorem rxEvent_gram (cfg : Config) (e : Event) (r : Rx) :
    (rxEvent cfg e r).gram = r.gram ∨ (rxEvent cfg e r).gram = memForget ∨
      ∃ b h col row, e = .tx b ∧ r.cs = false ∧ r.dc = true ∧ r.cmd = some cfg.cmdRamwr ∧ r.col = some col ∧
        r.row = some row ∧ r.hold = some h ∧ gramAddress cfg row col = true ∧
        (rxEvent cfg e r).gram = gramWrite row col (join16 h b) r.gram := by
  cases e with
  | dc l => exact .inl rfl
  | cs l =>
    cases l
    · exact .inl rfl
    · exact .inl (by simp [rxEvent])
  | rst l =>
    cases l
    · exact .inr (.inl rfl)
    · exact .inl rfl
  | wait ms => exact .inl rfl
  | tx b =>
    by_cases hcs : r.cs = true
    · exact .inl (by simp [rxEvent, hcs])
    by_cases hdc : r.dc = true
    · have hrun : rxEvent cfg (.tx b) r = rxData cfg b r := by simp [rxEvent, hcs, hdc]
      rw [hrun]
      cases hc : r.cmd with
      | none => exact .inl (by simp [rxData, hc])
      | some c =>
        by_cases hw : c = cfg.cmdRamwr
        · subst hw
          have hd : (rxData cfg b r).gram = (rxPixelByte cfg b r).gram := by simp [rxData, hc]
          rw [hd]
          unfold rxPixelByte
          split
          · next col row h1 h2 =>
            split
            · exact .inl rfl
            · next h hh =>
              by_cases ha : gramAddress cfg row col = true
              · exact .inr (.inr ⟨b, h, col, row, rfl, by simpa using hcs, hdc, rfl, h1, h2, hh, ha, by
                  simp [rxPixel, ha]⟩)
              · exact .inr (.inl (by simp [rxPixel, ha]))
          · exact .inr (.inl rfl)
        · refine .inl ?_
          simp only [rxData, hc, if_neg hw]
          split
          · simp
          · split <;> simp
    · exact .inl (by simp [rxEvent, hcs, hdc])

/-- A wire event keeps the canonical form of the pixel memory. -/
theorem rxEvent_wf (cfg : Config) (e : Event) {r : Rx} (h : Memory.wf r.gram = true) :
    Memory.wf (rxEvent cfg e r).gram = true := by
  obtain hg | hg | ⟨b, h', col, row, -, -, -, -, -, -, -, -, hg⟩ := rxEvent_gram cfg e r
  · rw [hg]; exact h
  · rw [hg]; rfl
  · rw [hg]; exact gramWrite_wf row col _ h

end Sys2Proof.Machine
end

