-- ==== Sys2Proof/Machine/Text.lean ====
section
/-! DEFINITION. The textual form of a request and the colour names (30_encoding R123, R124): notation for requests, which no step uses. -/

namespace Sys2Proof.Machine

/-- `BLACK` (R124). -/
def black : Colour := 0x0000

/-- `RED` (R124). -/
def red : Colour := 0xF800

/-- The mnemonic of a request with a textual form (R102); reserved operation numbers and wire instructions have none. -/
def requestMnemonic : Instr → Option String
  | .sendCmd _ => some "SEND_CMD"
  | .sendData _ => some "SEND_DATA"
  | .sendData16 _ => some "SEND_DATA16"
  | .sendStream _ _ => some "SEND_STREAM"
  | .rstAssert _ => some "RST_ASSERT"
  | .rstRelease _ => some "RST_RELEASE"
  | .resetSeq _ => some "RESET_SEQ"
  | .init _ => some "INIT"
  | .setWindow _ => some "SET_WINDOW"
  | .fillScreen _ => some "FILL_SCREEN"
  | .drawPixel _ => some "DRAW_PIXEL"
  | .fillRect _ => some "FILL_RECT"
  | .drawBitmap _ _ => some "DRAW_BITMAP"
  | .color565 _ => some "COLOR565"
  | .reserved14 _ => none
  | .reserved15 _ => none
  | .slpout => none
  | .dispon => none
  | .caset _ _ => none
  | .paset _ _ => none
  | .ramwr => none
  | .madctl _ => none
  | .pixfmt _ => none
  | .tableEntry _ _ => none
  | .rawCmd _ => none
  | .pixel _ _ _ => none

/-- A byte operand as a number. -/
def byteOperand (v : Half) : Int := ((lowByte v).toNat : Int)

/-- The operands of a request in the order of the source's contract, each as its operand form reads it (R102, R104). -/
def requestOperands : Instr → List Int
  | .sendCmd p => [byteOperand p.v]
  | .sendData p => [byteOperand p.v]
  | .sendData16 p => [unsigned16 p.v]
  | .sendStream p _ => [(p.n.toNat : Int)]
  | .rstAssert _ => []
  | .rstRelease _ => []
  | .resetSeq _ => []
  | .init _ => []
  | .setWindow p => [unsigned16 p.a, unsigned16 p.b, unsigned16 p.c, unsigned16 p.d]
  | .fillScreen p => [unsigned16 p.v]
  | .drawPixel p => [signed16 p.a, signed16 p.b, unsigned16 p.v]
  | .fillRect p => [signed16 p.a, signed16 p.b, signed16 p.c, signed16 p.d, unsigned16 p.v]
  | .drawBitmap p _ => [signed16 p.a, signed16 p.b, signed16 p.c, signed16 p.d]
  | .color565 p => [byteOperand p.a, byteOperand p.b, byteOperand p.c]
  | .reserved14 _ => []
  | .reserved15 _ => []
  | .slpout => []
  | .dispon => []
  | .caset _ _ => []
  | .paset _ _ => []
  | .ramwr => []
  | .madctl _ => []
  | .pixfmt _ => []
  | .tableEntry _ _ => []
  | .rawCmd _ => []
  | .pixel _ _ _ => []

/-- The payload of a request as numbers, if the operation takes one (20_memory R65). -/
def requestPayload : Instr → Option (List Nat)
  | .sendStream _ pay => some (pay.map BitVec.toNat)
  | .drawBitmap _ pay => some (pay.map BitVec.toNat)
  | .sendCmd _ => none
  | .sendData _ => none
  | .sendData16 _ => none
  | .rstAssert _ => none
  | .rstRelease _ => none
  | .resetSeq _ => none
  | .init _ => none
  | .setWindow _ => none
  | .fillScreen _ => none
  | .drawPixel _ => none
  | .fillRect _ => none
  | .color565 _ => none
  | .reserved14 _ => none
  | .reserved15 _ => none
  | .slpout => none
  | .dispon => none
  | .caset _ _ => none
  | .paset _ _ => none
  | .ramwr => none
  | .madctl _ => none
  | .pixfmt _ => none
  | .tableEntry _ _ => none
  | .rawCmd _ => none
  | .pixel _ _ _ => none

/-- Words joined by commas. -/
def commas (ws : List String) : String := String.intercalate ", " ws

/-- The textual form of a request, numbers in decimal (R123). -/
def requestText (i : Instr) : Option String :=
  (requestMnemonic i).map (fun m =>
    let payload := (requestPayload i).map (fun ps => "[" ++ commas (ps.map toString) ++ "]")
    let words := (requestOperands i).map toString ++ payload.toList
    if words.isEmpty then m else m ++ " " ++ commas words)

end Sys2Proof.Machine
end

