-- ==== Sys2Proof/Tests/Slice0.lean ====
section
/-! SUPPORT. Small tests of the model against the spec's own vectors (95_test_vectors), words written out from 30_encoding, ill-formed terms, and for each statement with hypotheses a state and operands that meet them. -/

namespace Sys2Proof.Tests

open Sys2Proof Sys2Proof.Machine Sys2Proof.Safety

/-! ### A small panel and its states (95_test_vectors P2) -/

/-- WIDTH 4, HEIGHT 3, CHUNK_PIXELS 2, the illustrative table and MADCTL value of P2. -/
def cfg : Config where
  width := 4
  height := 3
  chunkPixels := 2
  clkHz := 1000000
  pinCs := 0
  pinDc := 1
  pinRst := 2
  bus := 0
  cmdCaset := 0x2A
  cmdPaset := 0x2B
  cmdRamwr := 0x2C
  cmdPixfmt := 0x3A
  pixfmt16bpp := 0x55
  cmdMadctl := 0x36
  madctlValue := 0x48
  cmdSlpout := 0x11
  cmdDispon := 0x29
  initTable := [⟨0xCB, [0x39, 0x2C]⟩, ⟨0xC0, []⟩]

/-- After block reset, mode UNINIT. -/
def fresh : State where
  cfg := cfg
  pins := { cs := true, dc := false, rst := false, sck := false, mosi := false }
  regs := Ports.zero
  work := { wx0 := 0, wy0 := 0, wx1 := 0, wy1 := 0, cnt := 0, ptr := 0, cb := [0, 0, 0, 0] }
  shifter := { sr := 0, bc := 0 }
  ph := none
  initDone := false
  busy := false
  fault := 0
  finfo := 0
  rsp := 0
  trace := []
  rx := Rx.reset
  prog := []
  input := []
  grain := .whole
  done := false

/-- Mode READY. -/
def up : State := { fresh with initDone := true }

/-- READY on a panel of 320 by 240 without a table. -/
def wide : State := { up with cfg := { cfg with width := 320, height := 240, initTable := [] } }

/-- Mode FAULTED, as V72 has it. -/
def broken : State := { fresh with fault := 2, finfo := 10 }

/-- READY, the window of V80 set, memory-write in effect, the cursor on the window's first pixel. -/
def aimed : State :=
  { up with rx := { Rx.reset with
      cmd := some 0x2C, sc := some 1, ec := some 2, sp := some 0, ep := some 1, col := some 1, row := some 0 } }

/-- The state a run of one instruction leaves, if it leaves one. -/
def after (i : Instr) (s : State) : Option State :=
  match exec i s with
  | .next t => some t
  | .fault _ => none
  | .refused _ => none

/-- The events, the fault and its info word after one instruction on an empty trace. -/
def seen (i : Instr) (s : State) : Option (List Event × BitVec 3 × Word) :=
  (after i s).map (fun t => (t.trace, t.fault, t.finfo))

/-- The logical trace, the fault and its info word after one instruction on an empty trace. -/
def seenBytes (i : Instr) (s : State) : Option (List LogEntry × BitVec 3 × Word) :=
  (after i s).map (fun t => (logical s.pins.dc t.trace, t.fault, t.finfo))

/-- Ports from integers. -/
def ports (a b c d v : Int) : Ports :=
  ⟨BitVec.ofInt 16 a, BitVec.ofInt 16 b, BitVec.ofInt 16 c, BitVec.ofInt 16 d, BitVec.ofInt 16 v, 0⟩

/-! ### Ill-formed terms are refused -/

theorem test_stream_payload_too_long (p : Ports) : (Instr.sendStream p (List.replicate (2 ^ 32) 0)).wellFormed = false := by
  simp only [Instr.wellFormed, List.length_replicate]; decide

theorem test_bitmap_payload_too_long (p : Ports) : (Instr.drawBitmap p (List.replicate (2 ^ 32) 0)).wellFormed = false := by
  simp only [Instr.wellFormed, List.length_replicate]; decide

theorem test_longest_payload_fits (p : Ports) : (Instr.drawBitmap p (List.replicate (2 ^ 32 - 1) 0)).wellFormed = true := by
  simp only [Instr.wellFormed, List.length_replicate]; decide

/-! ### Decoding: requests by the op column of 30_encoding R102, wire words by the byte column of R115 -/

theorem test_decode_transport :
    decodeTableWord 8 0b0000 = some (.sendCmd Ports.zero) ∧ decodeTableWord 8 0b0001 = some (.sendData Ports.zero) ∧
    decodeTableWord 8 0b0010 = some (.sendData16 Ports.zero) ∧
    decodeTableWord 8 0b0011 = some (.sendStream Ports.zero []) ∧
    decodeTableWord 8 0b0100 = some (.rstAssert Ports.zero) ∧ decodeTableWord 8 0b0101 = some (.rstRelease Ports.zero) ∧
    decodeTableWord 8 0b0110 = some (.resetSeq Ports.zero) := by decide

theorem test_decode_protocol :
    decodeTableWord 8 0b0111 = some (.init Ports.zero) ∧ decodeTableWord 8 0b1000 = some (.setWindow Ports.zero) ∧
    decodeTableWord 8 0b1001 = some (.fillScreen Ports.zero) := by decide

theorem test_decode_pixel :
    decodeTableWord 8 0b1010 = some (.drawPixel Ports.zero) ∧ decodeTableWord 8 0b1011 = some (.fillRect Ports.zero) ∧
    decodeTableWord 8 0b1100 = some (.drawBitmap Ports.zero []) ∧
    decodeTableWord 8 0b1101 = some (.color565 Ports.zero) := by decide

theorem test_decode_reserved :
    decodeTableWord 8 0b1110 = some (.reserved14 Ports.zero) ∧
    decodeTableWord 8 0b1111 = some (.reserved15 Ports.zero) := by decide

theorem test_decode_wire_table_words :
    decodeTableWord 8 0b00010001 = some .slpout ∧ decodeTableWord 8 0b00101001 = some .dispon ∧
    decodeTableWord 8 0b00101010 = some (.caset 0 0) ∧ decodeTableWord 8 0b00101011 = some (.paset 0 0) ∧
    decodeTableWord 8 0b00101100 = some .ramwr ∧ decodeTableWord 8 0b00110110 = some (.madctl 0) ∧
    decodeTableWord 8 0b00111010 = some (.pixfmt 0) ∧ decodeTableWord 8 0b11111111 = some (.rawCmd 0xFF) := by decide

/-- The whole request tuple: V7 and V60, ports kept, each payload item one item. -/
theorem test_decode_payloads :
    decode cfg (.request ⟨3, { Ports.zero with n := 2 }, [0x00F8, 0x0000]⟩) =
      .ok (.sendStream { Ports.zero with n := 2 } [0xF8, 0x00]) ∧
    decode cfg (.request ⟨12, ports 2 3 2 2 0, [0xF800, 0x07E0, 0x001F, 0xFFFF]⟩) =
      .ok (.drawBitmap (ports 2 3 2 2 0) [0xF800, 0x07E0, 0x001F, 0xFFFF]) := ⟨rfl, rfl⟩

/-- V21's two address commands with their four parameter bytes, most significant first, and the one-byte commands of V27. -/
theorem test_decode_wire_parameters :
    decode cfg (.wire ⟨.named, [0x2A, 0x00, 0x00, 0x01, 0x3F]⟩) = .ok (.caset 0 319) ∧
    decode cfg (.wire ⟨.named, [0x2B, 0x00, 0x00, 0x00, 0xEF]⟩) = .ok (.paset 0 239) ∧
    decode cfg (.wire ⟨.named, [0x36, 0x48]⟩) = .ok (.madctl 0x48) ∧
    decode cfg (.wire ⟨.named, [0x3A, 0x55]⟩) = .ok (.pixfmt 0x55) ∧
    decode cfg (.wire ⟨.named, [0x11]⟩) = .ok .slpout ∧
    decode cfg (.wire ⟨.named, [0x29]⟩) = .ok .dispon ∧ decode cfg (.wire ⟨.named, [0x2C]⟩) = .ok .ramwr := by
  refine ⟨rfl, rfl, rfl, rfl, rfl, rfl, rfl⟩

/-- P2's table entries: the parameter byte 0x2C is data, not memory-write; any byte is a raw command (R116). -/
theorem test_decode_table_and_raw :
    decode cfg (.wire ⟨.table, [0xCB, 0x39, 0x2C]⟩) = .ok (.tableEntry 0xCB [0x39, 0x2C]) ∧
    decode cfg (.wire ⟨.table, [0xC0]⟩) = .ok (.tableEntry 0xC0 []) ∧
    decode cfg (.wire ⟨.raw, [0x2C]⟩) = .ok (.rawCmd 0x2C) := ⟨rfl, rfl, rfl⟩

/-- The channels of R117: red 11111, green 111111, blue 11111, and 0x11AA of V40k. -/
theorem test_decode_pixel_channels :
    decodeTableWord 16 0b1111100000000000 = some (.pixel 31 0 0) ∧
    decodeTableWord 16 0b0000011111100000 = some (.pixel 0 63 0) ∧
    decodeTableWord 16 0b0000000000011111 = some (.pixel 0 0 31) ∧
    decodeTableWord 16 0x11AA = some (.pixel 0b00010 0b001101 0b01010) := by decide

/-- Malformed wire words are refused by name. -/
theorem test_decode_refusals :
    decode cfg (.wire ⟨.named, [0x2A, 0x00, 0x00, 0x01]⟩) = .error .missingBytes ∧
    decode cfg (.wire ⟨.named, [0x2C, 0x00]⟩) = .error .trailingBytes ∧
    decode cfg (.wire ⟨.named, [0xFF]⟩) = .error (.unknownCommand 0xFF) ∧
    decode cfg (.wire ⟨.pixels, [0xF8]⟩) = .error .missingBytes ∧
    decode cfg (.wire ⟨.raw, []⟩) = .error .noBytes := ⟨rfl, rfl, rfl, rfl, rfl⟩

/-- The first step after reset runs the word the host places. -/
theorem test_fetch_word :
    (match step (State.reset.withFetchWord 8 0b0100) with
      | .next t => some (t.trace, t.pins.rst)
      | .fault _ => none
      | .refused _ => none) = some ([.rst false], false) := by rfl

/-! ### Bus transport -/

/-- V2: the high byte of the port is ignored. -/
theorem test_send_cmd : seen (.sendCmd (ports 0 0 0 0 0xAB11)) fresh =
    some ([.dc false, .cs false, .tx 0x11, .cs true], 0, 0) := by decide

/-- V3. -/
theorem test_send_data : seen (.sendData (ports 0 0 0 0 0x55)) fresh =
    some ([.dc true, .cs false, .tx 0x55, .cs true], 0, 0) := by decide

/-- V5: the zero high byte is sent. -/
theorem test_send_data16 : seen (.sendData16 (ports 0 0 0 0 5)) fresh =
    some ([.dc true, .cs false, .tx 0x00, .tx 0x05, .cs true], 0, 0) := by decide

/-- V9: an odd count. -/
theorem test_send_stream : seen (.sendStream { Ports.zero with n := 3 } [1, 2, 3]) fresh =
    some ([.dc true, .cs false, .tx 1, .tx 2, .tx 3, .cs true], 0, 0) := by decide

/-- V10: a short payload. -/
theorem test_send_stream_short : seen (.sendStream { Ports.zero with n := 3 } [1, 2]) fresh = some ([], 5, 2) := by decide

/-- V11. -/
theorem test_rst_assert : seen (.rstAssert Ports.zero) up = some ([.rst false], 0, 0) := by decide

/-- V13: a drive, not an edge. -/
theorem test_rst_release :
    seen (.rstRelease Ports.zero) { up with pins := { up.pins with rst := true } } = some ([.rst true], 0, 0) := by decide

/-- V14. -/
theorem test_reset_seq : seen (.resetSeq Ports.zero) up =
    some ([.rst true, .wait 5, .rst false, .wait 20, .rst true, .wait 150], 0, 0) := by decide

/-- The bit level of V1: 0, 0, 1, 0, 1, 1, 0, 0, each with one clock pulse. -/
theorem test_bits_of_a_byte :
    (shiftOut 0x2C).1.filterMap (fun d => match d with
      | .mosi l => some l
      | .sck _ => none) = [false, false, true, false, true, true, false, false] := by decide

/-! ### Controller protocol -/

/-- V28: the logical trace of INIT. -/
theorem test_init : seenBytes (.init Ports.zero) fresh =
    some ([.rst true, .wait 5, .rst false, .wait 20, .rst true, .wait 150, .byte false 0xCB, .byte true 0x39,
      .byte true 0x2C, .byte false 0xC0, .byte false 0x3A, .byte true 0x55, .byte false 0x36, .byte true 0x48,
      .byte false 0x11, .wait 120, .byte false 0x29], 0, 0) := by decide

/-- V28 and V29: 47 events and `INIT_DONE`; a second INIT faults. -/
theorem test_init_done :
    (after (.init Ports.zero) fresh).map (fun t => (t.trace.length, t.initDone)) = some (47, true) ∧
    seen (.init Ports.zero) up = some ([], 3, 0) := by decide

/-- V20: the window of the source's scenario, and where it leaves the controller. -/
theorem test_set_window : seenBytes (.setWindow (ports 10 10 59 59 0)) wide =
    some ([.byte false 0x2A, .byte true 0x00, .byte true 0x0A, .byte true 0x00, .byte true 0x3B, .byte false 0x2B,
      .byte true 0x00, .byte true 0x0A, .byte true 0x00, .byte true 0x3B, .byte false 0x2C], 0, 0) := by decide

/-- V25 and V26. -/
theorem test_set_window_faults :
    seen (.setWindow (ports 5 9 3 240 0)) wide = some ([], 4, 0b001001) ∧
    seen (.setWindow Ports.zero) fresh = some ([], 2, 8) := by decide

/-- P2 request 2: 74 events, every pixel of the panel, the cursor home. -/
theorem test_fill_screen :
    (after (.fillScreen (ports 0 0 0 0 0x1234)) up).map
      (fun t => (t.trace.length, gramRead t.rx.gram 0 0, gramRead t.rx.gram 2 3, t.rx.col, t.rx.row)) =
      some (74, some 0x1234, some 0x1234, some 0, some 0) := by decide +kernel

/-- V32. -/
theorem test_fill_screen_uninit : seen (.fillScreen Ports.zero) fresh = some ([], 2, 9) := by decide

/-! ### Pixel stream -/

/-- V41a. -/
theorem test_draw_pixel :
    seenBytes (.drawPixel (ports 5 7 0 0 0xF800)) wide =
      some ([.byte false 0x2A, .byte true 0x00, .byte true 0x05, .byte true 0x00, .byte true 0x05, .byte false 0x2B,
        .byte true 0x00, .byte true 0x07, .byte true 0x00, .byte true 0x07, .byte false 0x2C, .byte true 0xF8,
        .byte true 0x00], 0, 0) ∧
    (after (.drawPixel (ports 5 7 0 0 0xF800)) wide).bind (fun t => gramRead t.rx.gram 7 5) = some 0xF800 := by decide

/-- V41c to V41g: off the panel on each side, and before INIT. -/
theorem test_draw_pixel_off_panel :
    seen (.drawPixel (ports 320 0 0 0 7)) wide = some ([], 0, 0) ∧
    seen (.drawPixel (ports 0 240 0 0 7)) wide = some ([], 0, 0) ∧
    seen (.drawPixel (ports (-1) 0 0 0 7)) wide = some ([], 0, 0) ∧
    seen (.drawPixel (ports 0 (-32768) 0 0 7)) wide = some ([], 0, 0) ∧
    seen (.drawPixel (ports 320 0 0 0 7)) fresh = some ([], 2, 10) := by decide

/-- P2 request 5: clipped to one column of three pixels, one full chunk and one partial. -/
theorem test_fill_rect :
    seen (.fillRect (ports 3 0 5 5 0x8410)) up =
      some (windowEvents cfg 3 0 3 2 ++ [.dc true, .cs false, .tx 0x84, .tx 0x10, .tx 0x84, .tx 0x10, .cs true,
        .dc true, .cs false, .tx 0x84, .tx 0x10, .cs true], 0, 0) := by decide

/-- V47 to V51: clipped to nothing. -/
theorem test_fill_rect_nothing :
    seen (.fillRect (ports 320 0 5 5 7)) wide = some ([], 0, 0) ∧
    seen (.fillRect (ports (-1) 0 5 5 7)) wide = some ([], 0, 0) ∧
    seen (.fillRect (ports 5 5 0 5 7)) wide = some ([], 0, 0) ∧
    seen (.fillRect (ports 5 5 5 (-3) 7)) wide = some ([], 0, 0) := by decide

/-- V61: two frames of the payload. -/
theorem test_draw_bitmap :
    seen (.drawBitmap (ports 0 0 3 1 0) [0xF800, 0x07E0, 0x001F]) up =
      some (windowEvents cfg 0 0 2 0 ++ [.dc true, .cs false, .tx 0xF8, .tx 0x00, .tx 0x07, .tx 0xE0, .cs true,
        .dc true, .cs false, .tx 0x00, .tx 0x1F, .cs true], 0, 0) := by decide

/-- V64, V65, V66, V68: length, window before length, an empty width, mode before both. -/
theorem test_draw_bitmap_faults :
    seen (.drawBitmap (ports 0 0 2 2 0) [1, 2, 3]) wide = some ([], 5, 3) ∧
    seen (.drawBitmap (ports (-1) 239 2 2 0) [1, 2, 3]) wide = some ([], 4, 0b011000) ∧
    seen (.drawBitmap (ports 5 5 0 1 0) []) wide = some ([], 4, 0b000001) ∧
    seen (.drawBitmap (ports 0 0 2 2 0) [1]) fresh = some ([], 2, 12) := by decide

/-- V40k and V40l. -/
theorem test_color565 :
    (after (.color565 (ports 0x12 0x34 0x56 0 0)) fresh).map (fun t => (t.rsp, t.trace)) = some (0x11AA, []) ∧
    (after (.color565 (ports 0x1FF 0x100 0xFF07 0 0)) up).map (fun t => (t.rsp, t.trace)) = some (0xF800, []) := by
  decide

/-- V70 and V71. -/
theorem test_reserved14 : seen (.reserved14 Ports.zero) fresh = some ([], 1, 14) := by decide
theorem test_reserved15 : seen (.reserved15 Ports.zero) up = some ([], 1, 15) := by decide

/-- V72 to V75: refused while faulted. -/
theorem test_refused_while_faulted :
    after (.init Ports.zero) broken = some { broken with done := true } ∧
    after (.sendCmd (ports 0 0 0 0 0x2C)) broken = some { broken with done := true } ∧
    after (.reserved15 Ports.zero) broken = some { broken with done := true } ∧
    after (.color565 (ports 255 0 0 0 0)) broken = some { broken with done := true } := by
  refine ⟨rfl, rfl, rfl, rfl⟩

/-! ### Wire instructions and the controller -/

/-- The frames of the wire instructions, as V27 and V20 have them. -/
theorem test_wire_commands :
    seen .slpout fresh = some ([.dc false, .cs false, .tx 0x11, .cs true], 0, 0) ∧
    seen .dispon fresh = some ([.dc false, .cs false, .tx 0x29, .cs true], 0, 0) ∧
    seen .ramwr fresh = some ([.dc false, .cs false, .tx 0x2C, .cs true], 0, 0) ∧
    seen (.rawCmd 0xFF) fresh = some ([.dc false, .cs false, .tx 0xFF, .cs true], 0, 0) ∧
    seen (.madctl 0x48) fresh =
      some ([.dc false, .cs false, .tx 0x36, .cs true, .dc true, .cs false, .tx 0x48, .cs true], 0, 0) ∧
    seen (.pixfmt 0x55) fresh =
      some ([.dc false, .cs false, .tx 0x3A, .cs true, .dc true, .cs false, .tx 0x55, .cs true], 0, 0) := by decide

/-- Each coordinate is a frame of its own, each table parameter too, and a pixel is one frame of two bytes. -/
theorem test_wire_parameters :
    seen (.caset 10 59) fresh = some ([.dc false, .cs false, .tx 0x2A, .cs true, .dc true, .cs false, .tx 0x00, .tx 0x0A,
      .cs true, .dc true, .cs false, .tx 0x00, .tx 0x3B, .cs true], 0, 0) ∧
    seen (.paset 0 239) fresh = some ([.dc false, .cs false, .tx 0x2B, .cs true, .dc true, .cs false, .tx 0x00, .tx 0x00,
      .cs true, .dc true, .cs false, .tx 0x00, .tx 0xEF, .cs true], 0, 0) ∧
    seen (.tableEntry 0xCB [0x39, 0x2C]) fresh = some ([.dc false, .cs false, .tx 0xCB, .cs true, .dc true, .cs false,
      .tx 0x39, .cs true, .dc true, .cs false, .tx 0x2C, .cs true], 0, 0) ∧
    seen (.pixel 0b00010 0b001101 0b01010) fresh =
      some ([.dc true, .cs false, .tx 0x11, .tx 0xAA, .cs true], 0, 0) := by decide

/-- V80: five pixels in a window of four, the fifth over the first. -/
theorem test_receiver_wraps :
    let r := rxRun cfg (dataFrame [0xAA, 0xAA, 0xBB, 0xBB, 0xCC, 0xCC, 0xDD, 0xDD, 0xEE, 0xEE]) aimed.rx
    (gramRead r.gram 0 1, gramRead r.gram 0 2, gramRead r.gram 1 1, gramRead r.gram 1 2) =
      (some 0xEEEE, some 0xBBBB, some 0xCCCC, some 0xDDDD) ∧ r.row = some 0 ∧ r.col = some 2 := by decide

/-- V82: half a pixel loses the cursor; V86: another command loses the window; V87: an empty frame changes nothing. -/
theorem test_receiver_resynchronises :
    (rxRun cfg (dataFrame [0x12]) aimed.rx).col = none ∧ (rxRun cfg (dataFrame [0x12]) aimed.rx).hold = none ∧
    (rxRun cfg (commandFrame 0x29) aimed.rx).sc = none ∧
    rxRun cfg (dataFrame []) aimed.rx = { aimed.rx with dc := true } := by
  refine ⟨rfl, rfl, rfl, rfl⟩

/-- V83 and V84: half a coordinate, and four parameter bytes in one frame. -/
theorem test_receiver_parameters :
    (rxRun cfg (commandFrame 0x2A ++ dataFrame [0] ++ dataFrame [1, 0, 2]) Rx.reset).sc = none ∧
    (rxRun cfg (commandFrame 0x2A ++ dataFrame [0, 1, 0, 2]) Rx.reset).sc = some 1 ∧
    (rxRun cfg (commandFrame 0x2A ++ dataFrame [0, 1, 0, 2]) Rx.reset).ec = some 2 := by
  refine ⟨rfl, rfl, rfl⟩

/-- V85. -/
theorem test_receiver_reset : rxEvent cfg (.rst false) aimed.rx = { Rx.reset with cs := true } := by rfl

/-! ### Client layer -/

/-- V91 and V94. -/
theorem test_client_shapes :
    bresenham.points 0 0 3 1 = [(0, 0), (1, 0), (2, 1), (3, 1)] ∧ (fillCircle 0 0 1 7).length = 5 ∧
    (fillCircle 0 0 2 7).length = 13 ∧ (fillCircle 0 0 (-1) 7).length = 0 := by decide

/-- V93 and V95. -/
theorem test_client_algorithms :
    bresenham.points 0 0 (-2) (-5) = [(0, 0), (0, -1), (-1, -2), (-1, -3), (-2, -4), (-2, -5)] ∧
    (drawCircle midpoint 10 10 2 7).length = 20 ∧ (drawCircle midpoint 10 10 2 7).dedup.length = 12 := by decide

/-- V97 to V100: forty cells, only the set ones when the colours are equal, the fallback glyph, and the advance of 6. -/
theorem test_text :
    (drawChar (fun _ i j => i == 0 && j == 0) 0 0 65 1 2 1).length = 40 ∧
    drawChar (fun _ i j => i == 1 && j == 2) 10 20 65 7 7 3 = [.rect 13 26 3 3 7] ∧
    drawChar (fun k i j => k == 63 && i == 0 && j == 0) 4 5 200 7 7 1 = [.pixel 4 5 7] ∧
    drawString (fun _ i j => i == 0 && j == 0) 0 0 7 7 1 [65, 66] = [.pixel 0 0 7, .pixel 6 0 7] := by decide

/-- R123's own examples, and R124's colours as COLOR565 gives them. -/
theorem test_textual_form :
    requestText (.setWindow (ports 10 10 59 59 0)) = some "SET_WINDOW 10, 10, 59, 59" ∧
    requestText (.sendStream { Ports.zero with n := 3 } [1, 2, 3]) = some "SEND_STREAM 3, [1, 2, 3]" ∧
    requestText (.init Ports.zero) = some "INIT" ∧ black = color565 0 0 0 ∧ red = color565 255 0 0 := by
  decide +kernel

/-- R282: INIT takes at least 295 ms, and each of its ten bytes eight clock periods. -/
theorem test_lower_bounds : waitTotal (initEvents cfg) = 295 ∧ minPeriods 1000000 (initEvents cfg) = 295080000 := by decide

/-! ### Witnesses: states and operands that meet the hypotheses of the statements -/

/-- A wire instruction stands first on the input, to be taken whole. -/
def waiting : State := { up with input := [.wire ⟨.named, [0x2C]⟩, .request ⟨4, Ports.zero, []⟩] }

/-- The same, to be taken event by event. -/
def waitingByEvent : State := { waiting with grain := .perEvent }

/-- A no-op stands first on the input, to be taken event by event. -/
def waitingForNothing : State := { up with input := [.request ⟨10, ports 4 0 0 0 7, []⟩], grain := .perEvent }

/-- Memory-write in flight event by event, two of its four events emitted. -/
def midway : State :=
  { up with grain := .perEvent, busy := true, ph := some 2, prog := frameK 0x2C, trace := [.dc false, .cs false],
            pins := { up.pins with cs := false }, rx := { Rx.reset with cs := false } }

/-- The same before its last event. -/
def almost : State :=
  { midway with ph := some 3, trace := [.dc false, .cs false, .tx 0x2C],
                rx := { Rx.reset with cs := false, cmd := some 0x2C } }

/-- READY, the fault mask of V23 standing. -/
def wrecked : State := { up with fault := 4, finfo := 1 }

theorem test_witness_valid : cfg.Valid ∧ up.cfg.Valid ∧ wide.cfg.Valid ∧ cfg.commands.Nodup := by decide

theorem test_witness_encode_inverts_decode : decode cfg (.wire ⟨.named, [0x2A, 0, 1, 0, 2]⟩) = .ok (.caset 1 2) := rfl

theorem test_witness_request_clauses :
    (⟨3, Ports.zero, [0x1F8]⟩ : Request).op = 3 ∧ (⟨12, Ports.zero, [0x1F8]⟩ : Request).op = 12 ∧
    (⟨13, Ports.zero, [0x1F8]⟩ : Request).op ≠ 3 ∧ (⟨13, Ports.zero, [0x1F8]⟩ : Request).op ≠ 12 := by decide

theorem test_witness_unknown_command :
    ∃ s : State, s.busy = false ∧ (0xFF : Byte) ∉ s.cfg.commands ∧ s.input = .wire ⟨.named, [0xFF, 0x00]⟩ :: [] :=
  ⟨{ up with input := [.wire ⟨.named, [0xFF, 0x00]⟩] }, rfl, by decide, rfl⟩

theorem test_witness_step_runs :
    waiting.busy = false ∧ waiting.grain = .whole ∧
    waiting.input = .wire ⟨.named, [0x2C]⟩ :: [.request ⟨4, Ports.zero, []⟩] ∧
    decode waiting.cfg (.wire ⟨.named, [0x2C]⟩) = .ok .ramwr := ⟨rfl, rfl, rfl, rfl⟩

theorem test_witness_step_waits : up.busy = false ∧ up.input = [] := ⟨rfl, rfl⟩

theorem test_witness_busy_step :
    (midway.busy = true ∧ midway.ph = some 2 ∧ midway.prog[2]? = some (bare (.tx 0x2C)) ∧ 2 + 1 < midway.prog.length) ∧
    (almost.busy = true ∧ almost.ph = some 3 ∧ almost.prog[3]? = some (bare (.cs true)) ∧
      3 + 1 = almost.prog.length) := by decide

theorem test_witness_acceptance :
    (waitingByEvent.busy = false ∧ waitingByEvent.ph = none ∧ waitingByEvent.prog = [] ∧ waitingByEvent.grain = .perEvent ∧
      waitingByEvent.input = .wire ⟨.named, [0x2C]⟩ :: [.request ⟨4, Ports.zero, []⟩] ∧
      decode waitingByEvent.cfg (.wire ⟨.named, [0x2C]⟩) = .ok .ramwr ∧
      ∃ t, exec .ramwr { waitingByEvent with input := [.request ⟨4, Ports.zero, []⟩], done := false } = .next t ∧
        t.trace = waitingByEvent.trace ++ commandFrame 0x2C) ∧
    (waitingForNothing.busy = false ∧ waitingForNothing.grain = .perEvent ∧
      decode waitingForNothing.cfg (.request ⟨10, ports 4 0 0 0 7, []⟩) = .ok (.drawPixel (ports 4 0 0 0 7)) ∧
      ∃ t, exec (.drawPixel (ports 4 0 0 0 7)) { waitingForNothing with input := [], done := false } = .next t ∧
        t.trace = waitingForNothing.trace ++ []) :=
  ⟨⟨rfl, rfl, rfl, rfl, rfl, rfl, _, rfl, rfl⟩, rfl, rfl, rfl, _, rfl, rfl⟩

theorem test_witness_sequencer_invariant : SequencerInv midway ∧ midway.cfg.Valid ∧ ∃ t, step midway = .next t := by
  refine ⟨⟨by decide, rfl, rfl, show 2 < (frameK 0x2C).length by decide, ?_, by unfold TraceOk; decide⟩, by decide, _, rfl⟩
  intro b hb ps hx
  simp only [midway, frameK, frame, frameWith, List.map_cons, List.map_nil, List.cons_append, List.nil_append,
    List.mem_cons, List.not_mem_nil, or_false] at hb
  rcases hb with rfl | rfl | rfl | rfl <;> simp [bare] at hx

theorem test_witness_receiver_invariant : ReceiverInv aimed ∧ aimed.cfg.Valid ∧ ∃ t, step aimed = .next t := by
  refine ⟨⟨rfl, rfl, ⟨rfl, (fun c hc => by cases hc), (fun _ _ => rfl)⟩, ?_, rfl, (fun h => by cases h)⟩, by decide, _, rfl⟩
  intro _ col row hc hr
  cases hc
  cases hr
  exact ⟨1, 2, 0, 1, rfl, rfl, rfl, rfl, by decide⟩

theorem test_witness_init_done_rises :
    (∃ t, exec (.init Ports.zero) fresh = .next t ∧ t.initDone ≠ fresh.initDone) ∧
    (∃ t, step waiting = .next t ∧ waiting.initDone = true) := ⟨⟨_, rfl, by decide⟩, _, rfl, rfl⟩

theorem test_witness_response : ∃ t, exec (.color565 (ports 255 0 0 0 0)) up = .next t ∧ t.rsp ≠ up.rsp :=
  ⟨_, rfl, by decide⟩

theorem test_witness_modes : Accepts fresh ∧ Uninit fresh ∧ Accepts up ∧ Ready up ∧ Ready wide ∧ Ready aimed ∧
    (broken.busy = false ∧ broken.fault ≠ 0) ∧ (wrecked.busy = false ∧ wrecked.fault ≠ 0) := by
  refine ⟨⟨rfl, rfl⟩, ⟨⟨rfl, rfl⟩, rfl⟩, ⟨rfl, rfl⟩, ⟨⟨rfl, rfl⟩, rfl⟩, ⟨⟨rfl, rfl⟩, rfl⟩, ⟨⟨rfl, rfl⟩, rfl⟩,
    ⟨rfl, by decide⟩, rfl, by decide⟩

theorem test_witness_operands_loaded :
    (∃ t, exec (.drawPixel (ports 4 0 0 0 7)) up = .next t) ∧ (midway.busy = true ∧ ∃ t, step midway = .next t) :=
  ⟨⟨_, rfl⟩, rfl, _, rfl⟩

theorem test_witness_fault_stands : ∃ t, step { broken with input := [.request ⟨7, Ports.zero, []⟩] } = .next t ∧
    { broken with input := [.request ⟨7, Ports.zero, []⟩] }.fault ≠ 0 := ⟨_, rfl, by decide⟩

/-- One witness for each of the five causes. -/
theorem test_witness_faults :
    (∃ t, exec (.reserved14 Ports.zero) up = .next t ∧ t.fault = 1) ∧
    (∃ t, exec (.drawPixel Ports.zero) fresh = .next t ∧ t.fault = 2) ∧
    (∃ t, exec (.init Ports.zero) up = .next t ∧ t.fault = 3) ∧
    (∃ t, exec (.setWindow (ports 0 0 4 2 0)) up = .next t ∧ t.fault = 4) ∧
    (∃ t, exec (.sendStream { Ports.zero with n := 1 } []) up = .next t ∧ t.fault = 5) :=
  ⟨⟨_, rfl, by decide⟩, ⟨_, rfl, by decide⟩, ⟨_, rfl, by decide⟩, ⟨_, rfl, by decide⟩, _, rfl, by decide⟩

theorem test_witness_mode_changes :
    (∃ t, exec (.init Ports.zero) fresh = .next t ∧ modeOf fresh = .uninit ∧ modeOf t = .ready) ∧
    (∃ t, exec (.init Ports.zero) up = .next t ∧ modeOf up = .ready) ∧
    (∃ t, exec (.init Ports.zero) broken = .next t ∧ modeOf broken = .faulted) :=
  ⟨⟨_, rfl, by decide, by decide⟩, ⟨_, rfl, by decide⟩, _, rfl, by decide⟩

/-- Two states that differ in every value block reset leaves unspecified. -/
theorem test_witness_unspecified : ∃ u : State, u.regs ≠ up.regs ∧ u.work ≠ up.work ∧ u.pins ≠ up.pins ∧
    up.busy = false ∧ u.busy = false ∧ up.cfg = u.cfg ∧ up.fault = u.fault ∧ up.initDone = u.initDone ∧
    up.finfo = u.finfo ∧ up.rsp = u.rsp :=
  ⟨{ up with regs := ports 1 1 1 1 1, work := { up.work with cnt := 1, cb := [] }, pins := { up.pins with mosi := true } },
    by decide⟩

/-- A payload of exactly the count, empty or not, and one longer and one shorter. -/
theorem test_witness_stream_lengths :
    ([1, 2] : List Byte).length = ({ Ports.zero with n := 2 } : Ports).n.toNat ∧
    ([1, 2] : List Byte).getLast? = some 2 ∧
    ([] : List Byte).length = Ports.zero.n.toNat ∧
    ([1] : List Byte).length ≠ Ports.zero.n.toNat ∧ ([] : List Byte).length ≠ ({ Ports.zero with n := 1 } : Ports).n.toNat := by
  decide

/-- The whole panel, its two corner pixels, and a window wrong by one on each side. -/
theorem test_witness_windows :
    WindowFits cfg 0 0 3 2 ∧ WindowFits cfg 0 0 0 0 ∧ WindowFits cfg 3 2 3 2 ∧
    ¬ WindowFits cfg 0 0 4 2 ∧ ¬ WindowFits cfg 0 0 3 3 ∧ ¬ WindowFits cfg 1 0 0 2 ∧ ¬ WindowFits cfg 0 1 3 0 ∧
    ¬ WindowFits cfg (-1) 0 0 0 ∧ ¬ WindowFits cfg 0 (-1) 0 0 := by
  unfold WindowFits; decide

/-- The ports of a SET_WINDOW that fits and of one that does not. -/
theorem test_witness_set_window :
    (Ready up ∧ WindowFits up.cfg (ports 0 0 3 2 0).a.toNat (ports 0 0 3 2 0).b.toNat (ports 0 0 3 2 0).c.toNat
      (ports 0 0 3 2 0).d.toNat) ∧
    (Ready up ∧ ¬ WindowFits up.cfg (ports 0 0 4 2 0).a.toNat (ports 0 0 4 2 0).b.toNat (ports 0 0 4 2 0).c.toNat
      (ports 0 0 4 2 0).d.toNat) := by
  unfold Ready Accepts WindowFits; decide

/-- INIT in mode UNINIT with a table, for what it leaves of the controller. -/
theorem test_witness_init : fresh.cfg.Valid ∧ Uninit fresh ∧ ∃ t, exec (.init Ports.zero) fresh = .next t :=
  ⟨by decide, ⟨⟨rfl, rfl⟩, rfl⟩, _, rfl⟩

/-- The panel's two corners, and one step off each side. -/
theorem test_witness_points :
    (onPanel up.cfg (ports 0 0 0 0 0).a.toInt (ports 0 0 0 0 0).b.toInt = true) ∧
    (onPanel up.cfg (ports 3 2 0 0 0).a.toInt (ports 3 2 0 0 0).b.toInt = true) ∧
    ((ports 4 0 0 0 0).a.toInt ≥ up.cfg.width) ∧ ((ports 0 3 0 0 0).b.toInt ≥ up.cfg.height) ∧
    ((ports (-1) 0 0 0 0).a.toInt < 0) ∧ ((ports 0 (-1) 0 0 0).b.toInt < 0) := by decide

/-- A rectangle at the far corner, one with no width, one with a negative height, and one off the panel. -/
theorem test_witness_rectangles :
    clipRect cfg 3 2 1 1 = some ⟨3, 2, 1, 1⟩ ∧ clipRect cfg 0 0 9 9 = some ⟨0, 0, 4, 3⟩ ∧
    clipRect cfg 0 0 0 1 = none ∧ clipRect cfg 0 0 1 (-1) = none ∧ clipRect cfg 4 0 1 1 = none ∧
    (0 < (ports 3 2 1 1 0).c.toInt ∧ 0 < (ports 3 2 1 1 0).d.toInt) := by decide

/-- A bitmap that fits with a payload of its size and of another, and an extent that is empty or crosses the edge. -/
theorem test_witness_bitmaps :
    (WindowFits up.cfg 2 1 (2 + 2 - 1) (1 + 2 - 1) ∧ (([1, 2, 3, 4] : List Colour).length : Int) = 2 * 2 ∧
      ([1, 2, 3, 4] : List Colour).getLast? = some 4 ∧ up.work.cb.length = 2 * up.cfg.chunkPixels) ∧
    (([1, 2, 3] : List Colour).length : Int) ≠ 2 * 2 ∧
    ¬ WindowFits up.cfg 2 1 (2 + 0 - 1) (1 + 2 - 1) ∧ ¬ WindowFits up.cfg 2 1 (2 + 3 - 1) (1 + 2 - 1) := by
  unfold WindowFits; decide

/-- The clauses of the event counts: a completed run of each operation with the events it appended. -/
theorem test_witness_transport_counts :
    (∃ t, exec (.sendCmd (ports 0 0 0 0 0x2C)) up = .next t ∧ Emits (commandFrame 0x2C) up t) ∧
    (∃ t, exec (.resetSeq Ports.zero) up = .next t ∧ Emits resetEvents up t) ∧
    (∃ t, exec (.sendStream Ports.zero []) up = .next t ∧ t.fault = 0 ∧ Emits (dataFrame []) up t) ∧
    (∃ t, exec (.init Ports.zero) fresh = .next t ∧ Emits (initEvents cfg) fresh t) :=
  ⟨⟨_, rfl, ⟨by decide, by decide⟩⟩, ⟨_, rfl, ⟨by decide, by decide⟩⟩, ⟨_, rfl, by decide, ⟨by decide, by decide⟩⟩,
    _, rfl, ⟨by decide, by decide⟩⟩

theorem test_witness_window_count :
    ∃ t, exec (.setWindow (ports 0 0 3 2 0)) up = .next t ∧ t.fault = 0 ∧ Emits (windowEvents cfg 0 0 3 2) up t :=
  ⟨_, rfl, by decide, ⟨by decide, by decide⟩⟩

theorem test_witness_pixel_count :
    ∃ t, exec (.drawPixel (ports 3 2 0 0 7)) up = .next t ∧ Emits (windowEvents cfg 3 2 3 2 ++ dataFrame [0, 7]) up t :=
  ⟨_, rfl, ⟨by decide, by decide⟩⟩

theorem test_witness_rect_count :
    ∃ t, exec (.fillRect (ports 3 2 9 9 7)) up = .next t ∧
      clipRect up.cfg (ports 3 2 9 9 7).a.toInt (ports 3 2 9 9 7).b.toInt (ports 3 2 9 9 7).c.toInt
        (ports 3 2 9 9 7).d.toInt = some ⟨3, 2, 1, 1⟩ ∧
      Emits (windowEvents cfg 3 2 3 2 ++ dataFrame [0, 7]) up t :=
  ⟨_, rfl, by decide, ⟨by decide, by decide⟩⟩

theorem test_witness_bitmap_count :
    ∃ t, exec (.drawBitmap (ports 3 2 1 1 0) [7]) up = .next t ∧ t.fault = 0 ∧
      Emits (windowEvents cfg 3 2 3 2 ++ dataFrame [0, 7]) up t :=
  ⟨_, rfl, by decide, ⟨by decide, by decide⟩⟩

theorem test_witness_screen_count :
    ∃ t, exec (.fillScreen Ports.zero) up = .next t ∧
      Emits (windowEvents cfg 0 0 3 2 ++ streamEvents 2 (List.replicate 12 0)) up t :=
  ⟨_, rfl, ⟨by decide +kernel, by decide +kernel⟩⟩

/-- A pixel stream under a window, more pixels than the window holds, and exactly as many. -/
theorem test_witness_landing :
    cfg.Valid ∧ WindowFits cfg ((1 : Half).toNat : Int) ((0 : Half).toNat : Int) ((2 : Half).toNat : Int) ((1 : Half).toNat : Int) ∧
    gramAddress cfg 2 3 = true ∧ ([[1, 2], [3, 4]] : List (List Colour)).flatten.length = 2 * 2 ∧
    (1 : Nat) < ([[1, 2], [3, 4], [5]] : List (List Colour)).flatten.length ∧
    ∀ j : Nat, 1 < j → j < ([[1, 2], [3, 4], [5]] : List (List Colour)).flatten.length →
      ¬ (j % 2 = 1 % 2 ∧ j / 2 % 2 = 1 / 2 % 2) := by
  refine ⟨by decide, by unfold WindowFits; decide, by decide, by decide, by decide, ?_⟩
  intro j h1 h2
  have h3 : j < 5 := h2
  omega

theorem test_witness_commands_leave_pixels :
    ∃ t, exec (.caset 1 2) aimed = .next t ∧ Instr.caset 1 2 ∈ [Instr.sendCmd Ports.zero, .caset 1 2] :=
  ⟨_, rfl, by decide⟩

/-- Raw data: no memory-write in effect, one in effect with the cursor lost, and one with the cursor on the panel. -/
theorem test_witness_raw_data :
    (Accepts up ∧ up.rx.hold = none ∧ up.rx.cmd ≠ some up.cfg.cmdRamwr) ∧
    (∃ s : State, Accepts s ∧ s.rx.hold = none ∧ s.rx.cmd = some s.cfg.cmdRamwr ∧ s.rx.col = none) ∧
    (Accepts aimed ∧ aimed.rx.hold = none ∧ aimed.rx.cmd = some aimed.cfg.cmdRamwr ∧ aimed.rx.row = some 0 ∧
      aimed.rx.col = some 1 ∧ gramAddress aimed.cfg 0 1 = true) :=
  ⟨⟨⟨rfl, rfl⟩, rfl, by decide⟩, ⟨{ aimed with rx := rxLoseCursor aimed.rx }, ⟨rfl, rfl⟩, rfl, rfl, rfl⟩,
    ⟨rfl, rfl⟩, rfl, rfl, rfl, rfl, by decide⟩

theorem test_witness_half_pixel : Accepts aimed ∧ aimed.cfg.Valid ∧ aimed.rx.cmd = some aimed.cfg.cmdRamwr ∧
    aimed.rx.hold = none ∧ aimed.rx.col.isSome = true ∧ aimed.rx.row.isSome = true :=
  ⟨⟨rfl, rfl⟩, by decide, rfl, rfl, rfl, rfl⟩

/-- A raw stream of five and a half pixels into a window of four. -/
theorem test_witness_raw_stream :
    Accepts aimed ∧ aimed.rx.sc = some 1 ∧ aimed.rx.ec = some 2 ∧ aimed.rx.sp = some 0 ∧ aimed.rx.ep = some 1 ∧
    ∃ t, exec (.sendStream { Ports.zero with n := 11 } [1, 1, 2, 2, 3, 3, 4, 4, 5, 5, 6]) aimed = .next t ∧ t.fault = 0 :=
  ⟨⟨rfl, rfl⟩, rfl, rfl, rfl, rfl, _, rfl, by decide⟩

/-- A command frame under way, with a valid window and with none. -/
theorem test_witness_command_byte :
    (∃ r : Rx, r = { aimed.rx with cs := false } ∧ r.cs = false ∧ r.dc = false ∧ r.sc = some 1 ∧ r.ec = some 2 ∧
      r.sp = some 0 ∧ r.ep = some 1 ∧
      WindowFits cfg ((1 : Half).toNat : Int) ((0 : Half).toNat : Int) ((2 : Half).toNat : Int) ((1 : Half).toNat : Int)) ∧
    (∃ r : Rx, r = { Rx.reset with cs := false } ∧ r.cs = false ∧ r.dc = false ∧
      ¬ ∃ sc ec sp ep : Half, r.sc = some sc ∧ r.ec = some ec ∧ r.sp = some sp ∧ r.ep = some ep ∧
        WindowFits cfg sc.toNat sp.toNat ec.toNat ep.toNat) ∧
    ((0x29 : Byte) ≠ cfg.cmdRamwr ∧ (0x29 : Byte) ≠ cfg.cmdCaset ∧ (0x29 : Byte) ≠ cfg.cmdPaset) := by
  refine ⟨⟨_, rfl, rfl, rfl, rfl, rfl, rfl, rfl, by unfold WindowFits; decide⟩, ⟨_, rfl, rfl, rfl, ?_⟩, by decide⟩
  rintro ⟨sc, ec, sp, ep, h, -⟩
  cases h

/-- Half values: half a pixel, half a coordinate of each range with no and with two bytes before it. -/
theorem test_witness_half_values :
    (aimed.rx.hold = none ∧ aimed.rx.cmd = some cfg.cmdRamwr ∧ aimed.rx.col.isSome = true ∧ aimed.rx.row.isSome = true) ∧
    (∃ r : Rx, r = rxRun cfg (commandFrame 0x2A) Rx.reset ∧ r.hold = none ∧ r.cmd = some cfg.cmdCaset ∧ r.pn = 0) ∧
    (∃ r : Rx, r = rxRun cfg (commandFrame 0x2B ++ dataFrame [0, 1]) Rx.reset ∧ r.hold = none ∧
      r.cmd = some cfg.cmdPaset ∧ r.pn = 2) :=
  ⟨⟨rfl, rfl, rfl, rfl⟩, ⟨_, rfl, rfl, rfl, rfl⟩, _, rfl, rfl, rfl, rfl⟩

theorem test_witness_set_window_of_wire_instructions :
    Ready up ∧ ∃ t u v w, exec (.caset 0 3) up = .next t ∧ exec (.paset 0 2) t = .next u ∧ exec .ramwr u = .next v ∧
      exec (.setWindow (ports 0 0 3 2 0)) up = .next w :=
  ⟨⟨⟨rfl, rfl⟩, rfl⟩, _, _, _, _, rfl, rfl, rfl, rfl⟩

theorem test_witness_text : 1 ≤ 1 ∧ (0x0000 : Colour) ≠ 0xFFFF ∧ (31 < 32 ∨ 126 < 31) ∧ (127 < 32 ∨ 126 < 127) := by decide

theorem test_witness_chunk : 1 ≤ cfg.chunkPixels := by decide

end Sys2Proof.Tests
end

/-! PROOF. Every event list the block can emit is whole frames, reset and wait events (00_scope R13, 10_state R28). -/

namespace Sys2Proof.Proofs

open Sys2Proof.Machine Sys2Proof.Safety

/-! ### The frame grammar over lists of events -/

theorem frameScan_append (p : FramePos) (as bs : List Event) :
    frameScan p (as ++ bs) = (frameScan p as).bind fun q => frameScan q bs := by
  induction as generalizing p with
  | nil => rfl
  | cons e as ih =>
    simp only [List.cons_append, frameScan]
    cases frameStep p e with
    | none => rfl
    | some q => exact ih q

theorem wholeFrames_iff (es : List Event) : wholeFrames es = true ↔ frameScan .between es = some .between := by
  simp [wholeFrames]

theorem wholeFrames_append {as bs : List Event} (ha : wholeFrames as = true) (hb : wholeFrames bs = true) :
    wholeFrames (as ++ bs) = true := by
  rw [wholeFrames_iff] at *
  simp [frameScan_append, ha, hb]

/-- Bytes leave the reader inside the frame. -/
theorem frameScan_inside_tx (bs : List Byte) (es : List Event) :
    frameScan .inside (bs.map .tx ++ es) = frameScan .inside es := by
  induction bs with
  | nil => rfl
  | cons b bs ih => exact ih

theorem wholeFrames_frame (dc : Bool) (bs : List Byte) :
    wholeFrames (.dc dc :: .cs false :: (bs.map .tx ++ [.cs true])) = true := by
  rw [wholeFrames_iff]
  exact frameScan_inside_tx bs [.cs true]

/-! ### Lists of beats -/

/-- The events of the beats are whole frames, reset and wait events. -/
def WholeBeats (bs : List Beat) : Prop := wholeFrames (eventsOf bs) = true

theorem wholeBeats_nil : WholeBeats [] := rfl

theorem WholeBeats.append {as bs : List Beat} (ha : WholeBeats as) (hb : WholeBeats bs) : WholeBeats (as ++ bs) := by
  rw [WholeBeats, eventsOf_append]
  exact wholeFrames_append ha hb

theorem wholeBeats_flatMap {α : Type} {f : α → List Beat} (h : ∀ a, WholeBeats (f a)) (l : List α) :
    WholeBeats (l.flatMap f) := by
  induction l with
  | nil => exact wholeBeats_nil
  | cons a l ih => exact (h a).append ih

theorem wholeBeats_frameWith (pre : List Xfer) (dc : Bool) (bs : List Byte) (post : List Xfer) :
    WholeBeats (frameWith pre dc bs post) := by
  rw [WholeBeats, eventsOf_frameWith]
  exact wholeFrames_frame dc bs

theorem wholeBeats_frame (dc : Bool) (bs : List Byte) : WholeBeats (frame dc bs) := wholeBeats_frameWith [] dc bs []
theorem wholeBeats_frameK (c : Byte) : WholeBeats (frameK c) := wholeBeats_frame false [c]
theorem wholeBeats_frameQ (b : Byte) : WholeBeats (frameQ b) := wholeBeats_frame true [b]
theorem wholeBeats_frameP (v : Half) : WholeBeats (frameP v) := wholeBeats_frame true [hi8 v, lo8 v]

/-! ### The event lists of the operations -/

theorem eventsOf_streamBytes (i : Nat) (bs : List Byte) : eventsOf (streamBytes i bs) = bs.map .tx := by
  induction bs generalizing i with
  | nil => rfl
  | cons b bs ih => exact congrArg (Event.tx b :: ·) (ih (i + 1))

theorem wholeBeats_streamFrame (bs : List Byte) : WholeBeats (streamFrame bs) := by
  have h := wholeFrames_frame true bs
  simpa [WholeBeats, streamFrame, eventsOf_streamBytes] using h

theorem wholeBeats_fillChunks (cb : List Byte) (chunk : Nat) (pre : List Xfer) (fuel cnt : Nat) :
    WholeBeats (fillChunks cb chunk pre fuel cnt) := by
  induction fuel generalizing pre cnt with
  | zero => exact wholeBeats_nil
  | succ fuel ih =>
    rw [fillChunks]
    split
    · exact wholeBeats_nil
    · exact (wholeBeats_frameWith _ _ _ _).append (ih _ _)

theorem wholeBeats_streamFill (chunk : Nat) (c : Colour) (npix : Nat) : WholeBeats (streamFill chunk c npix) :=
  wholeBeats_fillChunks _ _ _ _ _

theorem wholeBeats_pixelChunks (chunk : Nat) (pre : List Xfer) (fuel ptr : Nat) (pay : List Colour) :
    WholeBeats (pixelChunks chunk pre fuel ptr pay) := by
  induction fuel generalizing pre ptr pay with
  | zero => exact wholeBeats_nil
  | succ fuel ih =>
    rw [pixelChunks]
    split
    · exact wholeBeats_nil
    · exact (wholeBeats_frameWith _ _ _ _).append (ih _ _ _)

theorem wholeBeats_streamPixels (chunk : Nat) (pay : List Colour) : WholeBeats (streamPixels chunk pay) :=
  wholeBeats_pixelChunks _ _ _ _ _

theorem wholeBeats_resetBeats : WholeBeats resetBeats := rfl

theorem wholeBeats_beatsCaset (cfg : Config) (pre : List Xfer) (first last : Half) :
    WholeBeats (beatsCaset cfg pre first last) :=
  ((wholeBeats_frameWith _ _ _ _).append (wholeBeats_frameP first)).append (wholeBeats_frameP last)

theorem wholeBeats_beatsPaset (cfg : Config) (first last : Half) : WholeBeats (beatsPaset cfg first last) :=
  ((wholeBeats_frameK _).append (wholeBeats_frameP first)).append (wholeBeats_frameP last)

theorem wholeBeats_beatsMadctl (cfg : Config) (param : Byte) : WholeBeats (beatsMadctl cfg param) :=
  (wholeBeats_frameK _).append (wholeBeats_frameQ param)

theorem wholeBeats_beatsPixfmt (cfg : Config) (param : Byte) : WholeBeats (beatsPixfmt cfg param) :=
  (wholeBeats_frameK _).append (wholeBeats_frameQ param)

theorem wholeBeats_beatsTableEntry (cmd : Byte) (params : List Byte) : WholeBeats (beatsTableEntry cmd params) :=
  (wholeBeats_frameK cmd).append (wholeBeats_flatMap wholeBeats_frameQ params)

theorem wholeBeats_windowBeats (cfg : Config) (x0 y0 x1 y1 : Int) : WholeBeats (windowBeats cfg x0 y0 x1 y1) :=
  ((wholeBeats_beatsCaset _ _ _ _).append (wholeBeats_beatsPaset _ _ _)).append (wholeBeats_frameK _)

theorem wholeBeats_initBeats (cfg : Config) : WholeBeats (initBeats cfg) := by
  have hwait : WholeBeats [bare (.wait tSlpout)] := rfl
  have htable : WholeBeats (cfg.initTable.flatMap fun e => beatsTableEntry e.cmd e.params) :=
    wholeBeats_flatMap (fun e : InitEntry => wholeBeats_beatsTableEntry e.cmd e.params) _
  have hdispon : WholeBeats (beatsDispon cfg [.initDone]) := wholeBeats_frameWith _ _ _ _
  exact (((((wholeBeats_resetBeats.append htable).append (wholeBeats_beatsPixfmt cfg _)).append
    (wholeBeats_beatsMadctl cfg _)).append (wholeBeats_frameK _)).append hwait).append hdispon

/-! ### Verdicts -/

/-- If the verdict runs events, they are whole frames, reset and wait events. -/
def WholeVerdict : Verdict → Prop
  | .run bs => WholeBeats bs
  | .fault _ _ => True
  | .respond _ => True

theorem WholeVerdict.needInit {v : Verdict} (h : WholeVerdict v) (op : BitVec 4) (s : State) :
    WholeVerdict (needInit op s v) := by
  unfold Machine.needInit; split
  · exact h
  · trivial

theorem WholeVerdict.needWindow {v : Verdict} (h : WholeVerdict v) (cfg : Config) (x0 y0 x1 y1 : Int) :
    WholeVerdict (needWindow cfg x0 y0 x1 y1 v) := by
  unfold Machine.needWindow; split
  · exact h
  · trivial

theorem WholeVerdict.needLength {v : Verdict} (h : WholeVerdict v) (paylen : Nat) (count : Int) :
    WholeVerdict (needLength paylen count v) := by
  unfold Machine.needLength; split
  · exact h
  · trivial

theorem WholeBeats.windowThen {rest : List Beat} (h : WholeBeats rest) (cfg : Config) (x0 y0 x1 y1 : Int) :
    WholeVerdict (windowThen cfg x0 y0 x1 y1 rest) :=
  WholeVerdict.needWindow (v := .run _) ((wholeBeats_windowBeats cfg x0 y0 x1 y1).append h) cfg x0 y0 x1 y1

theorem wholeVerdict_jobInit (p : Ports) (s : State) : WholeVerdict (jobInit p s).verdict := by
  unfold jobInit; dsimp only; split
  · trivial
  · exact wholeBeats_initBeats s.cfg

theorem wholeVerdict_jobDrawPixel (p : Ports) (s : State) : WholeVerdict (jobDrawPixel p s).verdict := by
  refine WholeVerdict.needInit ?_ 10 s
  split
  · exact (wholeBeats_frameP p.v).windowThen _ _ _ _ _
  · exact wholeBeats_nil

theorem wholeVerdict_jobFillRect (p : Ports) (s : State) : WholeVerdict (jobFillRect p s).verdict := by
  refine WholeVerdict.needInit ?_ 11 s
  split
  · exact wholeBeats_nil
  · exact (wholeBeats_streamFill _ _ _).windowThen _ _ _ _ _

theorem wholeVerdict_jobDrawBitmap (p : Ports) (pay : List Colour) (s : State) :
    WholeVerdict (jobDrawBitmap p pay s).verdict :=
  ((((wholeBeats_streamPixels _ pay).windowThen _ _ _ _ _).needLength _ _).needWindow _ _ _ _ _).needInit 12 s

/-- Whatever an instruction runs is whole frames, reset and wait events. -/
theorem wholeVerdict_jobOf (i : Instr) (s : State) : WholeVerdict (jobOf i s).verdict := by
  cases i with
  | sendCmd p => exact wholeBeats_frameK _
  | sendData p => exact wholeBeats_frameQ _
  | sendData16 p => exact wholeBeats_frameP _
  | sendStream p pay => exact WholeVerdict.needLength (v := .run _) (wholeBeats_streamFrame pay) _ _
  | rstAssert p => exact (rfl : wholeFrames [.rst false] = true)
  | rstRelease p => exact (rfl : wholeFrames [.rst true] = true)
  | resetSeq p => exact wholeBeats_resetBeats
  | init p => exact wholeVerdict_jobInit p s
  | setWindow p => exact (wholeBeats_nil.windowThen _ _ _ _ _).needInit 8 s
  | fillScreen p => exact ((wholeBeats_streamFill _ _ _).windowThen _ _ _ _ _).needInit 9 s
  | drawPixel p => exact wholeVerdict_jobDrawPixel p s
  | fillRect p => exact wholeVerdict_jobFillRect p s
  | drawBitmap p pay => exact wholeVerdict_jobDrawBitmap p pay s
  | color565 p => trivial
  | reserved14 p => trivial
  | reserved15 p => trivial
  | slpout => exact wholeBeats_frameK _
  | dispon => exact wholeBeats_frameWith _ _ _ _
  | caset first last => exact wholeBeats_beatsCaset _ _ _ _
  | paset first last => exact wholeBeats_beatsPaset _ _ _
  | ramwr => exact wholeBeats_frameK _
  | madctl param => exact wholeBeats_beatsMadctl _ _
  | pixfmt param => exact wholeBeats_beatsPixfmt _ _
  | tableEntry cmd params => exact wholeBeats_beatsTableEntry _ _
  | rawCmd cmd => exact wholeBeats_frameK _
  | pixel r g b => exact wholeBeats_frameP _

/-! ### What a request taken whole emits -/

/-- A request taken whole emits nothing, or the events its verdict runs. -/
theorem perform_emits {j : Job} {s t : State} (h : perform j s = .next t) :
    Emits [] s t ∨ ∃ bs, j.verdict = .run bs ∧ Emits (eventsOf bs) s t := by
  obtain ⟨t', ht', hcases⟩ := perform_cases j s
  obtain rfl : t = t' := by rw [h] at ht'; cases ht'; rfl
  obtain ⟨-, rfl⟩ | ⟨-, -, rfl⟩ | ⟨-, -, ⟨c, info, -, rfl⟩ | ⟨v, -, rfl⟩ | ⟨bs, hv, rfl⟩⟩ := hcases
  · exact .inl ⟨by simp, rfl⟩
  · exact .inl ⟨by simp, rfl⟩
  · exact .inl ⟨by simp, by simp⟩
  · exact .inl ⟨by simp, by simp⟩
  · exact .inr ⟨bs, hv, by simp [runBeats_trace], by simp [runBeats_rx]⟩

/-- Settles O22: every instruction performs its job, and every job's events are whole frames. -/
theorem instructionsEmitWholeFrames : Obligations.InstructionsEmitWholeFrames := by
  intro i s t h
  rw [exec_eq_perform] at h
  obtain he | ⟨bs, hv, he⟩ := perform_emits h
  · exact ⟨[], rfl, he⟩
  · have hw := wholeVerdict_jobOf i s
    rw [hv] at hw
    exact ⟨eventsOf bs, hw, he⟩

end Sys2Proof.Proofs

/-! PROOF. Taking a request and stepping the sequencer, an equation a case (30_encoding R101, 10_state R36, 60_exceptions R237). -/

namespace Sys2Proof.Proofs

open Sys2Proof.Machine

theorem perform_busy {s : State} (j : Job) (hb : s.busy = true) : perform j s = .next s := by
  rw [perform, if_pos hb]

theorem perform_settle {s : State} (j : Job) (hb : s.busy = false) (hf : s.fault = 0) :
    perform j s = .next { settle j.verdict (loadPorts j.ports s) with done := true } := by
  rw [perform, if_neg (by simp [hb]), if_neg (not_not_intro hf)]

/-- The block takes the job and has events to emit for it. -/
def Starts (j : Job) (s : State) : Prop :=
  s.busy = false ∧ s.fault = 0 ∧ ∃ b bs, j.verdict = .run (b :: bs)

theorem accept_run {j : Job} {s : State} {b : Beat} {bs : List Beat} (hb : s.busy = false) (hf : s.fault = 0)
    (hv : j.verdict = .run (b :: bs)) :
    accept j s = .next { loadPorts j.ports s with busy := true, ph := some 0, prog := b :: bs, done := false } := by
  simp [accept, hv, hb, hf]

/-- A job with nothing to emit is accepted as it is taken whole. -/
theorem accept_eq_perform {j : Job} {s : State} (h : ¬ Starts j s) : accept j s = perform j s :=
  (accept_cases j s).resolve_right fun ⟨hb, hf, b, bs, hv, _⟩ => h ⟨hb, hf, b, bs, hv⟩

/-- A job with nothing to emit leaves the trace as it is. -/
theorem perform_trace_eq {j : Job} {s t : State} (h : ¬ Starts j s) (ht : perform j s = .next t) :
    t.trace = s.trace := by
  obtain ⟨t', ht', hcases⟩ := perform_cases j s
  obtain rfl : t = t' := by rw [ht] at ht'; cases ht'; rfl
  obtain ⟨-, rfl⟩ | ⟨-, -, rfl⟩ | ⟨hb, hf, ⟨c, info, -, rfl⟩ | ⟨v, -, rfl⟩ | ⟨bs, hv, rfl⟩⟩ := hcases
  · rfl
  · rfl
  · simp
  · simp
  · cases bs with
    | nil => simp
    | cons b bs => exact absurd ⟨hb, hf, b, bs, hv⟩ h

/-- A step of the sequencer before the last phase. -/
theorem tick_next {s : State} {i : Nat} {b : Beat} (hp : s.ph = some i) (hb : s.prog[i]? = some b)
    (hlt : i + 1 < s.prog.length) : tick s = .next { runBeat b s with ph := some (i + 1), done := false } := by
  simp [tick, hp, hb, hlt]

/-- A step of the sequencer in the last phase. -/
theorem tick_last {s : State} {i : Nat} {b : Beat} (hp : s.ph = some i) (hb : s.prog[i]? = some b)
    (hlt : ¬ i + 1 < s.prog.length) :
    tick s = .next { runBeat b s with ph := none, busy := false, prog := [], done := true } := by
  simp [tick, hp, hb, hlt]

end Sys2Proof.Proofs

/-! PROOF. Noninterference of the controller: replacing it before a step is replacing it after the step (00_scope R5, R8, 20_memory R87). -/

namespace Sys2Proof.Proofs

open Sys2Proof.Machine

/-- The state with another controller. -/
def setRx (r : Rx) (s : State) : State := { s with rx := r }

/-- The outcome with another controller in its next state, if it has one. -/
def outcomeSetRx (r : Rx) : Host.Outcome State Fault Refusal → Host.Outcome State Fault Refusal
  | .next s => .next (setRx r s)
  | .fault a => .fault a
  | .refused a => .refused a

/-! ### The shared operations -/

theorem applyXfer_setRx (x : Xfer) (r : Rx) (s : State) : applyXfer x (setRx r s) = setRx r (applyXfer x s) := by
  cases x <;> rfl

theorem applyXfers_setRx (xs : List Xfer) (r : Rx) (s : State) :
    applyXfers xs (setRx r s) = setRx r (applyXfers xs s) := by
  induction xs generalizing s with
  | nil => rfl
  | cons x xs ih => rw [applyXfers_cons, applyXfer_setRx, ih, applyXfers_cons]

theorem emit_setRx (e : Event) (r : Rx) (s : State) :
    emit e (setRx r s) = setRx (rxEvent s.cfg e r) (emit e s) := rfl

theorem runBeat_setRx (b : Beat) (r : Rx) (s : State) :
    runBeat b (setRx r s) = setRx (rxEvent s.cfg b.ev r) (runBeat b s) := by
  simp [runBeat, applyXfers_setRx, emit_setRx]

theorem runBeats_setRx (bs : List Beat) (r : Rx) (s : State) :
    runBeats bs (setRx r s) = setRx (rxRun s.cfg (eventsOf bs) r) (runBeats bs s) := by
  induction bs generalizing r s with
  | nil => rfl
  | cons b bs ih =>
    obtain ⟨hcfg, -⟩ := runBeat_frame b s
    simp [runBeat_setRx, ih, hcfg]

theorem loadPorts_setRx (p : Option Ports) (r : Rx) (s : State) :
    loadPorts p (setRx r s) = setRx r (loadPorts p s) := by
  cases p <;> rfl

theorem settle_setRx (v : Verdict) (r : Rx) (s : State) : ∃ q, settle v (setRx r s) = setRx q (settle v s) := by
  cases v with
  | fault cause info => exact ⟨r, rfl⟩
  | respond x => exact ⟨r, rfl⟩
  | run bs => exact ⟨_, runBeats_setRx bs r s⟩

/-! ### Taking a request, and a step -/

theorem perform_setRx (j : Job) (r : Rx) (s : State) : ∃ q, perform j (setRx r s) = outcomeSetRx q (perform j s) := by
  cases hb : s.busy with
  | true => exact ⟨r, by rw [perform_busy j hb, perform_busy (s := setRx r s) j hb]; rfl⟩
  | false =>
    by_cases hf : s.fault = 0
    · obtain ⟨q, hq⟩ := settle_setRx j.verdict r (loadPorts j.ports s)
      refine ⟨q, ?_⟩
      rw [perform_settle j hb hf, perform_settle (s := setRx r s) j hb hf, loadPorts_setRx, hq]
      rfl
    · exact ⟨r, by rw [perform_faulted j hb hf, perform_faulted (s := setRx r s) j hb hf]; rfl⟩

theorem accept_setRx (j : Job) (r : Rx) (s : State) : ∃ q, accept j (setRx r s) = outcomeSetRx q (accept j s) := by
  by_cases h : Starts j s
  · obtain ⟨hb, hf, b, bs, hv⟩ := h
    refine ⟨r, ?_⟩
    rw [accept_run hb hf hv, accept_run (s := setRx r s) hb hf hv, loadPorts_setRx]
    rfl
  · rw [accept_eq_perform h, accept_eq_perform (s := setRx r s) h]
    exact perform_setRx j r s

theorem tick_setRx (r : Rx) (s : State) : ∃ q, tick (setRx r s) = outcomeSetRx q (tick s) := by
  cases hp : s.ph with
  | none => exact ⟨r, by simp [tick, setRx, outcomeSetRx, hp]⟩
  | some i =>
    cases hb : s.prog[i]? with
    | none => exact ⟨r, by simp [tick, setRx, outcomeSetRx, hp, hb]⟩
    | some b =>
      refine ⟨rxEvent s.cfg b.ev r, ?_⟩
      by_cases hlt : i + 1 < s.prog.length
      · rw [tick_next hp hb hlt, tick_next (s := setRx r s) hp hb hlt, runBeat_setRx]
        rfl
      · rw [tick_last hp hb hlt, tick_last (s := setRx r s) hp hb hlt, runBeat_setRx]
        rfl

/-- What acceptance fixes does not depend on the controller. -/
theorem jobOf_setRx (i : Instr) (r : Rx) (s : State) : jobOf i (setRx r s) = jobOf i s := by
  cases i <;> rfl

theorem exec_setRx (i : Instr) (r : Rx) (s : State) : ∃ q, exec i (setRx r s) = outcomeSetRx q (exec i s) := by
  simp only [exec_eq_perform, jobOf_setRx]
  exact perform_setRx _ r s

theorem accept_jobOf_setRx (i : Instr) (r : Rx) (s : State) :
    ∃ q, accept (jobOf i (setRx r s)) (setRx r s) = outcomeSetRx q (accept (jobOf i s) s) := by
  rw [jobOf_setRx]
  exact accept_setRx _ r s

/-- Replacing the controller before a step is replacing it after the step. -/
theorem step_setRx (r : Rx) (s : State) : ∃ q, step (setRx r s) = outcomeSetRx q (step s) := by
  cases hb : s.busy with
  | true =>
    rw [step_busy hb, step_busy (s := setRx r s) hb]
    exact tick_setRx r s
  | false =>
    cases hi : s.input with
    | nil => exact ⟨r, by simp [step, waitForItem, setRx, outcomeSetRx, hb, hi]⟩
    | cons it rest =>
      cases hd : decode s.cfg it with
      | error why => exact ⟨r, by simp [step, setRx, outcomeSetRx, hb, hi, hd]⟩
      | ok i =>
        cases hg : s.grain with
        | whole =>
          rw [step_whole hb hg hi hd, step_whole (s := setRx r s) hb hg hi hd]
          exact exec_setRx i r { s with input := rest, done := false }
        | perEvent =>
          rw [step_perEvent hb hg hi hd, step_perEvent (s := setRx r s) hb hg hi hd]
          exact accept_jobOf_setRx i r { s with input := rest, done := false }

/-- Settles O23: the step's next state with another controller before it is the same state with another controller after it. -/
theorem receiverIsNeverRead : Obligations.ReceiverIsNeverRead := by
  intro s r
  obtain ⟨q, hq⟩ := step_setRx r s
  rw [setRx] at hq
  rw [hq]
  cases step s <;> rfl

end Sys2Proof.Proofs

/-! PROOF. The event-by-event reading reaches the state of the big-step meaning (00_scope R15, 10_state R36). -/

namespace Sys2Proof.Proofs

open Sys2Proof.Machine

/-! ### The sequencer's own fields -/

/-- The state with the fields that only acceptance and the sequencer write. -/
def setSeq (ph : Option Nat) (busy : Bool) (prog : List Beat) (done : Bool) (s : State) : State :=
  { s with ph := ph, busy := busy, prog := prog, done := done }

section Commute
variable (ph : Option Nat) (busy : Bool) (prog : List Beat) (done : Bool)

theorem applyXfer_setSeq (x : Xfer) (s : State) :
    applyXfer x (setSeq ph busy prog done s) = setSeq ph busy prog done (applyXfer x s) := by
  cases x <;> rfl

theorem applyXfers_setSeq (xs : List Xfer) (s : State) :
    applyXfers xs (setSeq ph busy prog done s) = setSeq ph busy prog done (applyXfers xs s) := by
  induction xs generalizing s with
  | nil => rfl
  | cons x xs ih => rw [applyXfers_cons, applyXfer_setSeq, ih, applyXfers_cons]

theorem emit_setSeq (e : Event) (s : State) :
    emit e (setSeq ph busy prog done s) = setSeq ph busy prog done (emit e s) := rfl

/-- Beats neither read nor write the sequencer's own fields. -/
theorem runBeat_setSeq (b : Beat) (s : State) :
    runBeat b (setSeq ph busy prog done s) = setSeq ph busy prog done (runBeat b s) := by
  simp only [runBeat, applyXfers_setSeq, emit_setSeq]

end Commute

theorem setSeq_idle {s : State} (hp : s.ph = none) (hb : s.busy = false) (hq : s.prog = []) :
    setSeq none false [] true s = { s with done := true } := by
  rw [setSeq, hp, hb, hq]

/-! ### Runs -/

theorem run_succ_of_step {M : Host.Core} {s t : M.State} (h : M.step s = .next t) (k : Nat) :
    M.run (k + 1) s = M.run k t := by
  simp [Host.Core.run, h]

theorem run_core_succ {s t : State} (h : step s = .next t) (k : Nat) :
    Host.Core.run Sys2Proof.core (k + 1) s = Host.Core.run Sys2Proof.core k t :=
  run_succ_of_step (M := Sys2Proof.core) (s := s) (t := t) h k

/-- A step in phase `i`, not the last, moves to the next phase. -/
theorem step_setSeq_next {i : Nat} {prog : List Beat} {b : Beat} (hb : prog[i]? = some b) (hlt : i + 1 < prog.length)
    (done : Bool) (s : State) :
    step (setSeq (some i) true prog done s) = .next (setSeq (some (i + 1)) true prog false (runBeat b s)) := by
  rw [step_busy rfl, tick_next (s := setSeq (some i) true prog done s) rfl hb hlt, runBeat_setSeq]
  rfl

/-- A step in the last phase completes the request. -/
theorem step_setSeq_last {i : Nat} {prog : List Beat} {b : Beat} (hb : prog[i]? = some b) (hlt : ¬ i + 1 < prog.length)
    (done : Bool) (s : State) :
    step (setSeq (some i) true prog done s) = .next (setSeq none false [] true (runBeat b s)) := by
  rw [step_busy rfl, tick_last (s := setSeq (some i) true prog done s) rfl hb hlt, runBeat_setSeq]
  rfl

/-- With `b :: bs` left of the event list, one step an event emits it and completes the request. -/
theorem run_setSeq (b : Beat) (bs : List Beat) {i : Nat} {prog : List Beat} (hdrop : prog.drop i = b :: bs)
    (done : Bool) (s : State) :
    Host.Core.run Sys2Proof.core (b :: bs).length (setSeq (some i) true prog done s) =
      .next (setSeq none false [] true (runBeats (b :: bs) s)) := by
  have hb : prog[i]? = some b := by rw [← List.head?_drop, hdrop]; rfl
  have hlen : prog.length - i = bs.length + 1 := by rw [← List.length_drop, hdrop]; rfl
  induction bs generalizing b i done s with
  | nil =>
    have hlast : ¬ i + 1 < prog.length := by rw [List.length_nil] at hlen; omega
    exact run_core_succ (step_setSeq_last hb hlast done s) 0
  | cons c cs ih =>
    have hlt : i + 1 < prog.length := by rw [List.length_cons] at hlen; omega
    have hrest : prog.drop (i + 1) = c :: cs := by rw [← List.tail_drop, hdrop]; rfl
    have hc : prog[i + 1]? = some c := by rw [← List.head?_drop, hrest]; rfl
    have hstep := run_core_succ (step_setSeq_next hb hlt done s) (c :: cs).length
    exact hstep.trans (ih c hrest false (runBeat b s) hc (by rw [← List.length_drop, hrest]; rfl))

/-! ### Acceptance beside the big step -/

/-- A job with events, accepted by an idle block: one step an event reaches the state of the job taken whole. -/
theorem run_accept_of_starts {j : Job} {s t : State} (hs : Starts j s) (hp : s.ph = none) (hq : s.prog = [])
    (ht : perform j s = .next t) :
    ∃ u, accept j s = .next u ∧ Host.Core.run Sys2Proof.core (t.trace.length - s.trace.length) u = .next t := by
  obtain ⟨hb, hf, b, bs, hv⟩ := hs
  obtain ⟨-, -, hp', hb', -, -, -, hq', -⟩ := runBeats_frame (b :: bs) (loadPorts j.ports s)
  have hidle : setSeq none false [] true (runBeats (b :: bs) (loadPorts j.ports s)) = t := by
    rw [perform_run hb hf hv] at ht
    cases ht
    exact setSeq_idle (hp'.trans ((loadPorts_ph _ _).trans hp)) (hb'.trans ((loadPorts_busy _ _).trans hb))
      (hq'.trans ((loadPorts_prog _ _).trans hq))
  have htrace : t.trace = s.trace ++ eventsOf (b :: bs) := by
    rw [← hidle, ← loadPorts_trace j.ports s, ← runBeats_trace]
    rfl
  have hlen : t.trace.length - s.trace.length = (b :: bs).length := by
    rw [htrace, List.length_append, eventsOf_length, Nat.add_sub_cancel_left]
  refine ⟨setSeq (some 0) true (b :: bs) false (loadPorts j.ports s), accept_run hb hf hv, ?_⟩
  rw [hlen, run_setSeq b bs rfl, hidle]

/-- A job accepted with no event list in flight: as many further steps as it appends events reach the state of the job taken whole. -/
theorem run_accept {j : Job} {s t : State} (hp : s.ph = none) (hq : s.prog = []) (ht : perform j s = .next t) :
    ∃ u, accept j s = .next u ∧ Host.Core.run Sys2Proof.core (t.trace.length - s.trace.length) u = .next t := by
  by_cases hs : Starts j s
  · exact run_accept_of_starts hs hp hq ht
  · refine ⟨t, (accept_eq_perform hs).trans ht, ?_⟩
    rw [perform_trace_eq hs ht, Nat.sub_self]
    rfl

/-- Settles O10: the accepting step fixes the events of the instruction's job, and one step each emits them. -/
theorem eventByEventReachesTheBigStep : Obligations.EventByEventReachesTheBigStep := by
  intro s t it rest i hb hp hq hg hi hd hexec
  rw [exec_eq_perform] at hexec
  obtain ⟨u, hu, hrun⟩ := run_accept (s := { s with input := rest, done := false }) hp hq hexec
  rw [Nat.add_comm, run_core_succ ((step_perEvent hb hg hi hd).trans hu)]
  exact hrun

end Sys2Proof.Proofs

/-! PROOF. Which register transfers and responses an instruction can ask for (10_state R34, R37, R40). -/

namespace Sys2Proof.Proofs

open Sys2Proof.Machine

/-! ### The register transfers of a list of beats -/

/-- Every register transfer of the beats, in order (10_state R33, R34, R37). -/
def xfersOf (bs : List Beat) : List Xfer := bs.flatMap fun b => b.pre ++ b.post

@[simp] theorem xfersOf_nil : xfersOf [] = [] := rfl
@[simp] theorem xfersOf_cons (b : Beat) (bs : List Beat) : xfersOf (b :: bs) = b.pre ++ b.post ++ xfersOf bs := rfl
@[simp] theorem xfersOf_append (as bs : List Beat) : xfersOf (as ++ bs) = xfersOf as ++ xfersOf bs :=
  List.flatMap_append
@[simp] theorem bare_pre (e : Event) : (bare e).pre = [] := rfl
@[simp] theorem bare_post (e : Event) : (bare e).post = [] := rfl

theorem mem_xfersOf {x : Xfer} {bs : List Beat} : x ∈ xfersOf bs ↔ ∃ b ∈ bs, x ∈ b.pre ++ b.post := List.mem_flatMap

theorem xfersOf_flatMap_nil {α : Type} {f : α → List Beat} (h : ∀ a, xfersOf (f a) = []) (l : List α) :
    xfersOf (l.flatMap f) = [] := by
  induction l with
  | nil => rfl
  | cons a l ih => simp [h, ih]

@[simp] theorem xfersOf_frameWith (pre : List Xfer) (dc : Bool) (bs : List Byte) (post : List Xfer) :
    xfersOf (frameWith pre dc bs post) = pre ++ post := by
  have hbytes : xfersOf (bs.map fun b => bare (.tx b)) = [] := by
    induction bs with
    | nil => rfl
    | cons b bs ih => simp [ih]
  simp [frameWith, hbytes]

@[simp] theorem xfersOf_frame (dc : Bool) (bs : List Byte) : xfersOf (frame dc bs) = [] := by simp [frame]
@[simp] theorem xfersOf_frameK (c : Byte) : xfersOf (frameK c) = [] := xfersOf_frame false [c]
@[simp] theorem xfersOf_frameQ (b : Byte) : xfersOf (frameQ b) = [] := xfersOf_frame true [b]
@[simp] theorem xfersOf_frameP (v : Half) : xfersOf (frameP v) = [] := xfersOf_frame true [hi8 v, lo8 v]

/-! ### The register transfers of the operations' event lists -/

@[simp] theorem xfersOf_resetBeats : xfersOf resetBeats = [] := rfl

@[simp] theorem xfersOf_beatsCaset (cfg : Config) (pre : List Xfer) (first last : Half) :
    xfersOf (beatsCaset cfg pre first last) = pre := by simp [beatsCaset]

@[simp] theorem xfersOf_beatsPaset (cfg : Config) (first last : Half) : xfersOf (beatsPaset cfg first last) = [] := by
  simp [beatsPaset]

@[simp] theorem xfersOf_beatsMadctl (cfg : Config) (param : Byte) : xfersOf (beatsMadctl cfg param) = [] := by
  simp [beatsMadctl]

@[simp] theorem xfersOf_beatsPixfmt (cfg : Config) (param : Byte) : xfersOf (beatsPixfmt cfg param) = [] := by
  simp [beatsPixfmt]

@[simp] theorem xfersOf_beatsTableEntry (cmd : Byte) (params : List Byte) :
    xfersOf (beatsTableEntry cmd params) = [] := by
  simp [beatsTableEntry, xfersOf_flatMap_nil xfersOf_frameQ]

/-- SET_WINDOW's events carry one transfer, the four coordinates latched (42_controller_protocol R165). -/
@[simp] theorem xfersOf_windowBeats (cfg : Config) (x0 y0 x1 y1 : Int) :
    xfersOf (windowBeats cfg x0 y0 x1 y1) = [.window (coord x0) (coord y0) (coord x1) (coord y1)] := by
  simp [windowBeats, beatsRamwr]

/-- INIT's events carry one transfer, `INIT_DONE <- 1` (42_controller_protocol R161). -/
@[simp] theorem xfersOf_initBeats (cfg : Config) : xfersOf (initBeats cfg) = [.initDone] := by
  have htable : xfersOf (cfg.initTable.flatMap fun e => beatsTableEntry e.cmd e.params) = [] :=
    xfersOf_flatMap_nil (fun e : InitEntry => xfersOf_beatsTableEntry e.cmd e.params) _
  simp [initBeats, htable, beatsSlpout, beatsDispon]

/-! ### What an instruction can ask for -/

/-- A transfer an instruction can ask for: a refill fits the chunk buffer (10_state R34), and only INIT sets `INIT_DONE` (R37). -/
def XferOk (i : Instr) (chunk : Nat) : Xfer → Prop
  | .cbLoad ps => ps.length ≤ chunk
  | .initDone => ∃ p, i = .init p
  | .window _ _ _ _ => True
  | .cnt _ => True
  | .ptr _ => True
  | .cbFill _ => True

/-- Every transfer of the beats is one the instruction can ask for. -/
def BeatsOk (i : Instr) (chunk : Nat) (bs : List Beat) : Prop := ∀ x ∈ xfersOf bs, XferOk i chunk x

/-- A verdict an instruction can have: only COLOR565 responds (10_state R40), and every transfer is one it can ask for. -/
def VerdictOk (i : Instr) (chunk : Nat) : Verdict → Prop
  | .fault _ _ => True
  | .respond _ => ∃ p, i = .color565 p
  | .run bs => BeatsOk i chunk bs

section
variable {i : Instr} {chunk : Nat}

theorem beatsOk_of_xfersOf_nil {bs : List Beat} (h : xfersOf bs = []) : BeatsOk i chunk bs := by
  simp [BeatsOk, h]

theorem BeatsOk.append {as bs : List Beat} (ha : BeatsOk i chunk as) (hb : BeatsOk i chunk bs) :
    BeatsOk i chunk (as ++ bs) := by
  rw [BeatsOk, xfersOf_append]
  exact List.forall_mem_append.mpr ⟨ha, hb⟩

theorem beatsOk_windowBeats (cfg : Config) (x0 y0 x1 y1 : Int) : BeatsOk i chunk (windowBeats cfg x0 y0 x1 y1) := by
  simp [BeatsOk, XferOk]

theorem beatsOk_streamBytes (n : Nat) (bs : List Byte) : BeatsOk i chunk (streamBytes n bs) := by
  induction bs generalizing n with
  | nil => exact beatsOk_of_xfersOf_nil rfl
  | cons b bs ih => simpa [BeatsOk, streamBytes, XferOk] using ih (n + 1)

theorem beatsOk_streamFrame (bs : List Byte) : BeatsOk i chunk (streamFrame bs) := by
  have h : BeatsOk i chunk (streamBytes 0 bs) := beatsOk_streamBytes 0 bs
  simpa [BeatsOk, streamFrame, XferOk] using h

theorem beatsOk_fillChunks (cb : List Byte) (size : Nat) {pre : List Xfer} (hpre : ∀ x ∈ pre, XferOk i chunk x)
    (fuel cnt : Nat) : BeatsOk i chunk (fillChunks cb size pre fuel cnt) := by
  induction fuel generalizing pre cnt with
  | zero => exact beatsOk_of_xfersOf_nil rfl
  | succ fuel ih =>
    rw [fillChunks]
    split
    · exact beatsOk_of_xfersOf_nil rfl
    · refine BeatsOk.append ?_ (ih (by simp) _)
      simpa [BeatsOk, or_imp, forall_and, XferOk] using hpre

theorem beatsOk_streamFill (size : Nat) (c : Colour) (npix : Nat) : BeatsOk i chunk (streamFill size c npix) :=
  beatsOk_fillChunks _ _ (by simp [XferOk]) _ _

/-- Every refill StreamPixels makes is of at most one chunk (43_pixel_stream R187). -/
theorem beatsOk_pixelChunks {pre : List Xfer} (hpre : ∀ x ∈ pre, XferOk i chunk x) (fuel ptr : Nat)
    (pay : List Colour) : BeatsOk i chunk (pixelChunks chunk pre fuel ptr pay) := by
  induction fuel generalizing pre ptr pay with
  | zero => exact beatsOk_of_xfersOf_nil rfl
  | succ fuel ih =>
    rw [pixelChunks]
    split
    · exact beatsOk_of_xfersOf_nil rfl
    · refine BeatsOk.append ?_ (ih (by simp) _ _)
      simpa [BeatsOk, or_imp, forall_and, XferOk] using hpre

theorem beatsOk_streamPixels (pay : List Colour) : BeatsOk i chunk (streamPixels chunk pay) :=
  beatsOk_pixelChunks (by simp [XferOk]) _ _ _

theorem VerdictOk.needInit {v : Verdict} (h : VerdictOk i chunk v) (op : BitVec 4) (s : State) :
    VerdictOk i chunk (needInit op s v) := by
  unfold Machine.needInit; split
  · exact h
  · trivial

theorem VerdictOk.needWindow {v : Verdict} (h : VerdictOk i chunk v) (cfg : Config) (x0 y0 x1 y1 : Int) :
    VerdictOk i chunk (needWindow cfg x0 y0 x1 y1 v) := by
  unfold Machine.needWindow; split
  · exact h
  · trivial

theorem VerdictOk.needLength {v : Verdict} (h : VerdictOk i chunk v) (paylen : Nat) (count : Int) :
    VerdictOk i chunk (needLength paylen count v) := by
  unfold Machine.needLength; split
  · exact h
  · trivial

theorem BeatsOk.windowThen {rest : List Beat} (h : BeatsOk i chunk rest) (cfg : Config) (x0 y0 x1 y1 : Int) :
    VerdictOk i chunk (windowThen cfg x0 y0 x1 y1 rest) :=
  VerdictOk.needWindow (v := .run _) ((beatsOk_windowBeats cfg x0 y0 x1 y1).append h) cfg x0 y0 x1 y1

end

theorem verdictOk_jobInit (p : Ports) (s : State) : VerdictOk (.init p) s.cfg.chunkPixels (jobInit p s).verdict := by
  unfold jobInit; dsimp only; split
  · trivial
  · simp [VerdictOk, BeatsOk, XferOk]

theorem verdictOk_jobDrawPixel (p : Ports) (s : State) :
    VerdictOk (.drawPixel p) s.cfg.chunkPixels (jobDrawPixel p s).verdict := by
  refine VerdictOk.needInit ?_ 10 s
  split
  · exact (beatsOk_of_xfersOf_nil (xfersOf_frameP p.v)).windowThen _ _ _ _ _
  · exact beatsOk_of_xfersOf_nil rfl

theorem verdictOk_jobFillRect (p : Ports) (s : State) :
    VerdictOk (.fillRect p) s.cfg.chunkPixels (jobFillRect p s).verdict := by
  refine VerdictOk.needInit ?_ 11 s
  split
  · exact beatsOk_of_xfersOf_nil rfl
  · exact (beatsOk_streamFill _ _ _).windowThen _ _ _ _ _

/-- Every instruction's verdict is one it can have: the refills fit, only INIT sets `INIT_DONE`, only COLOR565 responds. -/
theorem verdictOk_jobOf (i : Instr) (s : State) : VerdictOk i s.cfg.chunkPixels (jobOf i s).verdict := by
  cases i with
  | sendCmd p => exact beatsOk_of_xfersOf_nil (xfersOf_frameK _)
  | sendData p => exact beatsOk_of_xfersOf_nil (xfersOf_frameQ _)
  | sendData16 p => exact beatsOk_of_xfersOf_nil (xfersOf_frameP _)
  | sendStream p pay => exact VerdictOk.needLength (v := .run _) (beatsOk_streamFrame pay) _ _
  | rstAssert p => exact beatsOk_of_xfersOf_nil rfl
  | rstRelease p => exact beatsOk_of_xfersOf_nil rfl
  | resetSeq p => exact beatsOk_of_xfersOf_nil rfl
  | init p => exact verdictOk_jobInit p s
  | setWindow p => exact ((beatsOk_of_xfersOf_nil rfl).windowThen _ _ _ _ _).needInit 8 s
  | fillScreen p => exact ((beatsOk_streamFill _ _ _).windowThen _ _ _ _ _).needInit 9 s
  | drawPixel p => exact verdictOk_jobDrawPixel p s
  | fillRect p => exact verdictOk_jobFillRect p s
  | drawBitmap p pay =>
    exact ((((beatsOk_streamPixels pay).windowThen _ _ _ _ _).needLength _ _).needWindow _ _ _ _ _).needInit 12 s
  | color565 p => exact ⟨p, rfl⟩
  | reserved14 p => trivial
  | reserved15 p => trivial
  | slpout => exact beatsOk_of_xfersOf_nil (xfersOf_frameK _)
  | dispon => exact beatsOk_of_xfersOf_nil (xfersOf_frameWith _ _ _ _)
  | caset first last => exact beatsOk_of_xfersOf_nil (xfersOf_beatsCaset _ _ _ _)
  | paset first last => exact beatsOk_of_xfersOf_nil (xfersOf_beatsPaset _ _ _)
  | ramwr => exact beatsOk_of_xfersOf_nil (xfersOf_frameK _)
  | madctl param => exact beatsOk_of_xfersOf_nil (xfersOf_beatsMadctl _ _)
  | pixfmt param => exact beatsOk_of_xfersOf_nil (xfersOf_beatsPixfmt _ _)
  | tableEntry cmd params => exact beatsOk_of_xfersOf_nil (xfersOf_beatsTableEntry _ _)
  | rawCmd cmd => exact beatsOk_of_xfersOf_nil (xfersOf_frameK _)
  | pixel r g b => exact beatsOk_of_xfersOf_nil (xfersOf_frameP _)

end Sys2Proof.Proofs

/-! PROOF. What a step can do to the configuration, `INIT_DONE`, `RSP` and the operand registers, and what it reads of the state (10_state R20, R31, R36, R37, R40, R45). -/

namespace Sys2Proof.Proofs

open Sys2Proof.Machine Sys2Proof.Safety

/-! ### Two fields said once -/

theorem takeItem_cfg (rest : List Item) (s : State) : (takeItem rest s).cfg = s.cfg := rfl

theorem loadPorts_regs (p : Option Ports) (s : State) : (loadPorts p s).regs = p.getD s.regs := by cases p <;> rfl

/-! ### `INIT_DONE` over transfers and beats (10_state R37) -/

theorem applyXfers_initDone (xs : List Xfer) (s : State) :
    (applyXfers xs s).initDone = (s.initDone || xs.contains .initDone) := by
  induction xs generalizing s with
  | nil => simp
  | cons x xs ih =>
    rw [applyXfers_cons, ih, applyXfer_initDone, List.contains_cons, BEq.comm (a := x), Bool.or_assoc]

theorem runBeat_initDone (b : Beat) (s : State) :
    (runBeat b s).initDone = (s.initDone || (b.pre ++ b.post).contains .initDone) := by
  simp only [runBeat, applyXfers_initDone, emit_initDone, List.contains_append, Bool.or_assoc]

/-- `INIT_DONE` after a list of beats: as before, or set by one of their transfers. -/
theorem runBeats_initDone (bs : List Beat) (s : State) :
    (runBeats bs s).initDone = (s.initDone || (xfersOf bs).contains .initDone) := by
  induction bs generalizing s with
  | nil => simp
  | cons b bs ih =>
    simp only [runBeats_cons, ih, runBeat_initDone, xfersOf_cons, List.contains_append, Bool.or_assoc]

/-! ### What a request and a step can do -/

/-- What a request taken whole can do, from the answer. -/
theorem perform_inv {j : Job} {s t : State} (h : perform j s = .next t) :
    (s.busy = true ∧ t = s) ∨
    (s.busy = false ∧ s.fault ≠ 0 ∧ t = { s with done := true }) ∨
    (s.busy = false ∧ s.fault = 0 ∧
      ((∃ c info, j.verdict = .fault c info ∧ t = { raiseFault c info (loadPorts j.ports s) with done := true }) ∨
       (∃ v, j.verdict = .respond v ∧ t = { loadPorts j.ports s with rsp := v, done := true }) ∨
       (∃ bs, j.verdict = .run bs ∧ t = { runBeats bs (loadPorts j.ports s) with done := true }))) := by
  obtain ⟨u, hu, hcases⟩ := perform_cases j s
  rw [h] at hu
  cases hu
  exact hcases

theorem perform_cfg {j : Job} {s t : State} (h : perform j s = .next t) : t.cfg = s.cfg := by
  obtain ⟨-, rfl⟩ | ⟨-, -, rfl⟩ | ⟨-, -, ⟨c, info, -, rfl⟩ | ⟨v, -, rfl⟩ | ⟨bs, -, rfl⟩⟩ := perform_inv h
  · rfl
  · rfl
  · simp
  · simp
  · simp [(runBeats_frame bs _).1]

/-- `INIT_DONE` after a request taken whole: as before, or set by a transfer of its events. -/
theorem perform_initDone {j : Job} {s t : State} (h : perform j s = .next t) :
    t.initDone = s.initDone ∨
      t.initDone = true ∧ ∃ bs, j.verdict = .run bs ∧ .initDone ∈ xfersOf bs := by
  obtain ⟨-, rfl⟩ | ⟨-, -, rfl⟩ | ⟨-, -, ⟨c, info, -, rfl⟩ | ⟨v, -, rfl⟩ | ⟨bs, hv, rfl⟩⟩ := perform_inv h
  · exact .inl rfl
  · exact .inl rfl
  · exact .inl (by simp)
  · exact .inl (by simp)
  · by_cases hm : .initDone ∈ xfersOf bs
    · exact .inr ⟨by simp [runBeats_initDone, hm], bs, hv, hm⟩
    · exact .inl (by simp [runBeats_initDone, hm])

/-- A request taken whole changes `RSP` only by a response. -/
theorem perform_rsp {j : Job} {s t : State} (h : perform j s = .next t) :
    t.rsp = s.rsp ∨ ∃ v, j.verdict = .respond v := by
  obtain ⟨-, rfl⟩ | ⟨-, -, rfl⟩ | ⟨-, -, ⟨c, info, -, rfl⟩ | ⟨v, hv, -⟩ | ⟨bs, -, rfl⟩⟩ := perform_inv h
  · exact .inl rfl
  · exact .inl rfl
  · exact .inl (by simp)
  · exact .inr ⟨v, hv⟩
  · obtain ⟨-, -, -, -, -, -, hrsp, -⟩ := runBeats_frame bs (loadPorts j.ports s)
    exact .inl (by simp [hrsp])

/-- A request taken by a block that accepts it leaves its ports in the operand registers. -/
theorem perform_regs {j : Job} {s t : State} (hs : Accepts s) (h : perform j s = .next t) :
    t.regs = j.ports.getD s.regs := by
  obtain ⟨hb, -⟩ | ⟨-, hf, -⟩ | ⟨-, -, ⟨c, info, -, rfl⟩ | ⟨v, -, rfl⟩ | ⟨bs, -, rfl⟩⟩ := perform_inv h
  · simp [hs.1] at hb
  · exact absurd hs.2 hf
  · simp [loadPorts_regs]
  · simp [loadPorts_regs]
  · simp [(runBeats_frame bs _).2.1, loadPorts_regs]

/-- A step of the sequencer runs one beat and writes the sequencer's own fields. -/
theorem tick_runs_beat {s t : State} (h : tick s = .next t) :
    ∃ b ph busy prog done, t = setSeq ph busy prog done (runBeat b s) := by
  obtain ⟨i, b, -, -, ⟨-, rfl⟩ | ⟨-, rfl⟩⟩ := tick_cases h
  · exact ⟨b, some (i + 1), (runBeat b s).busy, (runBeat b s).prog, false, rfl⟩
  · exact ⟨b, none, false, [], true, rfl⟩

/-- What a step can do: a step of the sequencer, a wait, a request taken whole, or a request accepted with events to emit. -/
theorem step_inv {s t : State} (h : step s = .next t) :
    (s.busy = true ∧ tick s = .next t) ∨
    (s.busy = false ∧ t = { s with done := false }) ∨
    (∃ i rest, s.busy = false ∧ perform (jobOf i (takeItem rest s)) (takeItem rest s) = .next t) ∨
    (∃ i rest b bs, s.busy = false ∧ s.fault = 0 ∧ (jobOf i (takeItem rest s)).verdict = .run (b :: bs) ∧
      t = setSeq (some 0) true (b :: bs) false (loadPorts (jobOf i (takeItem rest s)).ports (takeItem rest s))) := by
  obtain ⟨hb, ht⟩ | ⟨hb, -, rfl⟩ | ⟨it, rest, i, hb, -, -, ⟨-, he⟩ | ⟨-, ha⟩⟩ := step_cases h
  · exact .inl ⟨hb, ht⟩
  · exact .inr (.inl ⟨hb, rfl⟩)
  · exact .inr (.inr (.inl ⟨i, rest, hb, (exec_eq_perform i _).symm.trans he⟩))
  · change accept (jobOf i (takeItem rest s)) (takeItem rest s) = .next t at ha
    by_cases hs : Starts (jobOf i (takeItem rest s)) (takeItem rest s)
    · obtain ⟨-, hf, b, bs, hv⟩ := hs
      rw [accept_run (s := takeItem rest s) hb hf hv] at ha
      cases ha
      exact .inr (.inr (.inr ⟨i, rest, b, bs, hb, hf, hv, rfl⟩))
    · exact .inr (.inr (.inl ⟨i, rest, hb, (accept_eq_perform hs).symm.trans ha⟩))

/-! ### The busy step (10_state R36) -/

theorem runBeat_emits (b : Beat) (s : State) : Emits [b.ev] s (runBeat b s) :=
  ⟨runBeat_trace b s, runBeat_rx b s⟩

/-- Settles O8: before the last phase and in it, the step runs the beat of the phase and writes only the sequencer's own fields. -/
theorem busyStepEmitsTheNextEvent : Obligations.BusyStepEmitsTheNextEvent := by
  intro s i b hbusy hp hb
  obtain ⟨htrace, hrx⟩ := runBeat_emits b s
  obtain ⟨hcfg, hregs, -, hbusy', hfault, hfinfo, hrsp, hprog, hinput, hgrain, -⟩ := runBeat_frame b s
  rw [step_busy hbusy]
  by_cases hlt : i + 1 < s.prog.length
  · exact ⟨_, tick_next hp hb hlt, ⟨htrace, hrx⟩, hcfg, hregs, hfault, hfinfo, hrsp, hinput, hgrain,
      fun _ => ⟨rfl, hbusy'.trans hbusy, hprog, rfl⟩, fun heq => absurd hlt heq.not_lt⟩
  · exact ⟨_, tick_last hp hb hlt, ⟨htrace, hrx⟩, hcfg, hregs, hfault, hfinfo, hrsp, hinput, hgrain,
      fun h => absurd h hlt, fun _ => ⟨rfl, rfl, rfl, rfl⟩⟩

/-! ### What no step writes (10_state R20, R31, R37, R40) -/

/-- Settles O14, by what a step can do. -/
theorem configurationNeverChanges : Obligations.ConfigurationNeverChanges := by
  intro s t h
  obtain ⟨-, ht⟩ | ⟨-, rfl⟩ | ⟨i, rest, -, hperf⟩ | ⟨i, rest, b, bs, -, -, -, rfl⟩ := step_inv h
  · obtain ⟨b, _, _, _, _, rfl⟩ := tick_runs_beat ht
    exact (runBeat_frame b s).1
  · rfl
  · exact (perform_cfg hperf).trans (takeItem_cfg rest s)
  · exact loadPorts_cfg _ _

/-- A step never clears `INIT_DONE`. -/
theorem step_initDone_mono {s t : State} (h : step s = .next t) (hs : s.initDone = true) : t.initDone = true := by
  obtain ⟨-, ht⟩ | ⟨-, rfl⟩ | ⟨i, rest, -, hperf⟩ | ⟨i, rest, b, bs, -, -, -, rfl⟩ := step_inv h
  · obtain ⟨b, _, _, _, _, rfl⟩ := tick_runs_beat ht
    exact (runBeat_initDone b s).trans (by rw [hs, Bool.true_or])
  · exact hs
  · obtain hsame | ⟨hset, -⟩ := perform_initDone hperf
    · exact hsame.trans hs
    · exact hset
  · exact (loadPorts_initDone _ _).trans hs

/-- Settles O15: a request sets `INIT_DONE` only by a transfer of its events, and only INIT's events carry that transfer. -/
theorem initDoneRisesOnlyByInit : Obligations.InitDoneRisesOnlyByInit := by
  refine ⟨fun i s t h hne => ?_, fun s t h hs => step_initDone_mono h hs⟩
  rw [exec_eq_perform] at h
  obtain hsame | ⟨hset, bs, hv, hm⟩ := perform_initDone h
  · exact absurd hsame hne
  · have hok := verdictOk_jobOf i s
    rw [hv] at hok
    exact ⟨by simpa [hset] using hne, hset, hok _ hm⟩

/-- Settles O16: only COLOR565 responds. -/
theorem responseIsWrittenOnlyByColor565 : Obligations.ResponseIsWrittenOnlyByColor565 := by
  intro i s t h hne
  rw [exec_eq_perform] at h
  obtain hsame | ⟨v, hv⟩ := perform_rsp h
  · exact absurd hsame hne
  · have hok := verdictOk_jobOf i s
    rw [hv] at hok
    exact hok

/-- Settles O17: acceptance loads the instruction's ports, and no beat moves the operand registers. -/
theorem operandRegistersAreLoadedAtAcceptance : Obligations.OperandRegistersAreLoadedAtAcceptance := by
  refine ⟨fun i s t hs h => ?_, fun s t hb h => ?_⟩
  · rw [exec_eq_perform] at h
    rw [← jobOf_ports i s]
    exact perform_regs hs h
  · rw [step_busy hb] at h
    obtain ⟨b, _, _, _, _, rfl⟩ := tick_runs_beat h
    exact (runBeat_frame b s).2.1

/-! ### What a request reads of the state (10_state R45) -/

/-- What acceptance fixes depends on the configuration and `INIT_DONE` alone. -/
theorem jobOf_eq_jobOf_reset (i : Instr) (s : State) :
    jobOf i s = jobOf i { State.reset with cfg := s.cfg, initDone := s.initDone } := by
  cases i <;> rfl

theorem jobOf_congr {s u : State} (hcfg : s.cfg = u.cfg) (hinit : s.initDone = u.initDone) (i : Instr) :
    jobOf i s = jobOf i u := by
  rw [jobOf_eq_jobOf_reset, hcfg, hinit, ← jobOf_eq_jobOf_reset]

/-- The two states have grown by the same events and agree on `FAULT`, `INIT_DONE`, and on `FINFO` and `RSP` if they did before. -/
def AppendAlike (s u t v : State) : Prop :=
  ∃ es, t.trace = s.trace ++ es ∧ v.trace = u.trace ++ es ∧ t.fault = v.fault ∧ t.initDone = v.initDone ∧
    (s.finfo = u.finfo → t.finfo = v.finfo) ∧ (s.rsp = u.rsp → t.rsp = v.rsp)

/-- The same verdict carried out from two states that agree on `FAULT` and `INIT_DONE`. -/
theorem settle_appendAlike {s u : State} (hfault : s.fault = u.fault) (hinit : s.initDone = u.initDone) (v : Verdict) :
    AppendAlike s u (settle v s) (settle v u) := by
  cases v with
  | fault c info => exact ⟨[], by simp [settle, hinit]⟩
  | respond x => exact ⟨[], by simp [settle, hfault, hinit]⟩
  | run bs =>
    obtain ⟨-, -, -, -, hsf, hsi, hsr, -⟩ := runBeats_frame bs s
    obtain ⟨-, -, -, -, huf, hui, hur, -⟩ := runBeats_frame bs u
    exact ⟨eventsOf bs, by simp [settle, runBeats_trace, runBeats_initDone, hsf, hsi, hsr, huf, hui, hur, hfault, hinit]⟩

/-- The same job taken whole by two idle blocks that agree on `FAULT` and `INIT_DONE`. -/
theorem perform_appendAlike {s u : State} (hs : s.busy = false) (hu : u.busy = false) (hfault : s.fault = u.fault)
    (hinit : s.initDone = u.initDone) (j : Job) :
    ∃ t v, perform j s = .next t ∧ perform j u = .next v ∧ AppendAlike s u t v := by
  by_cases hf : s.fault = 0
  · have halike := settle_appendAlike (s := loadPorts j.ports s) (u := loadPorts j.ports u) (by simpa using hfault)
      (by simpa using hinit) j.verdict
    simp only [AppendAlike, loadPorts_trace, loadPorts_finfo, loadPorts_rsp] at halike
    exact ⟨_, _, perform_settle j hs hf, perform_settle j hu (hfault ▸ hf), halike⟩
  · exact ⟨_, _, perform_faulted j hs hf, perform_faulted j hu (hfault ▸ hf), [], by simp [hfault, hinit]⟩

/-- Settles O24: the two states fix the same job, and carrying it out reads nothing else. -/
theorem unspecifiedValuesAreNeverRead : Obligations.UnspecifiedValuesAreNeverRead := by
  intro i s u hs hu hcfg hfault hinit
  obtain ⟨t, v, ht, hv, es, halike⟩ := perform_appendAlike hs hu hfault hinit (jobOf i u)
  exact ⟨es, t, v, by rw [exec_eq_perform, jobOf_congr hcfg hinit]; exact ht, by rw [exec_eq_perform]; exact hv, halike⟩

end Sys2Proof.Proofs

/-! PROOF. Every step keeps the invariant of the block, and block reset meets both invariants (10_state R28, R34, R36, R39, R45, 20_memory R76). -/

namespace Sys2Proof.Proofs

open Sys2Proof.Machine Sys2Proof.Safety

/-! ### The `CS` latch along the frame grammar (10_state R28) -/

/-- The `CS` latch is low exactly where the trace stands inside a frame. -/
def Latched (es : List Event) (cs : Bool) : Prop := (frameScan .between es).map (fun q => q != .inside) = some cs

/-- An event that can stand at a place in the frame grammar moves the place and the `CS` latch alike. -/
theorem frameStep_drivePins {q q' : FramePos} {e : Event} {p : Pins} (hstep : frameStep q e = some q')
    (hq : (q != .inside) = p.cs) : (q' != .inside) = (drivePins e p).cs := by
  cases q with
  | between => cases e <;> cases hstep <;> exact hq
  | driven =>
    cases e with
    | cs l => cases l <;> cases hstep; rfl
    | _ => cases hstep
  | inside =>
    cases e with
    | cs l => cases l <;> cases hstep; rfl
    | tx b => cases hstep; rw [drivePins_tx]; exact hq
    | _ => cases hstep

/-- One more event of a trace that goes on to be whole frames. -/
theorem Latched.snoc {es rest : List Event} {e : Event} {p : Pins} (h : Latched es p.cs)
    (hw : wholeFrames (es ++ e :: rest) = true) : Latched (es ++ [e]) (drivePins e p).cs := by
  obtain ⟨q, hq, hcs⟩ := Option.map_eq_some_iff.mp h
  rw [wholeFrames_iff, frameScan_append, hq, Option.bind_some, frameScan] at hw
  cases hstep : frameStep q e with
  | none => simp [hstep] at hw
  | some q' =>
    rw [Latched, frameScan_append, hq, Option.bind_some, frameScan, hstep]
    exact congrArg some (frameStep_drivePins hstep hcs)

/-! ### The chunk buffer keeps its size (10_state R34) -/

theorem pixelsBytes_length (ps : List Colour) : (pixelsBytes ps).length = 2 * ps.length := by
  simp [pixelsBytes, pixelBytes, List.length_flatMap, Nat.mul_comm]

/-- Every refill of the chunk buffer among the transfers fits it. -/
def RefillsFit (chunk : Nat) (xs : List Xfer) : Prop := ∀ ps, .cbLoad ps ∈ xs → ps.length ≤ chunk

/-- The chunk buffer has `2 * CHUNK_PIXELS` bytes. -/
def BufferSized (s : State) : Prop := s.work.cb.length = 2 * s.cfg.chunkPixels

theorem BufferSized.applyXfer {x : Xfer} {s : State} (h : BufferSized s)
    (hfit : ∀ ps, x = .cbLoad ps → ps.length ≤ s.cfg.chunkPixels) : BufferSized (applyXfer x s) := by
  cases x with
  | cbFill c => simp [BufferSized, fillPattern, pixelsBytes_length]
  | cbLoad ps =>
    have hps : ps.length ≤ s.cfg.chunkPixels := hfit ps rfl
    have hcb : s.work.cb.length = 2 * s.cfg.chunkPixels := h
    simp only [BufferSized, applyXfer_cbLoad_work, applyXfer_cfg, loadPrefix, List.length_append, List.length_drop,
      pixelsBytes_length, hcb]
    omega
  | window _ _ _ _ => exact h
  | cnt _ => exact h
  | ptr _ => exact h
  | initDone => exact h

theorem BufferSized.applyXfers {xs : List Xfer} {s : State} (h : BufferSized s)
    (hfit : RefillsFit s.cfg.chunkPixels xs) : BufferSized (applyXfers xs s) := by
  induction xs generalizing s with
  | nil => exact h
  | cons x xs ih =>
    refine ih (h.applyXfer fun ps hx => hfit ps (by simp [hx])) fun ps hx => ?_
    rw [applyXfer_cfg]
    exact hfit ps (List.mem_cons_of_mem x hx)

theorem BufferSized.runBeat {b : Beat} {s : State} (h : BufferSized s)
    (hfit : RefillsFit s.cfg.chunkPixels (b.pre ++ b.post)) : BufferSized (runBeat b s) := by
  have hpre : BufferSized (emit b.ev (Machine.applyXfers b.pre s)) :=
    h.applyXfers fun ps hx => hfit ps (List.mem_append_left _ hx)
  refine hpre.applyXfers fun ps hx => ?_
  rw [emit_cfg, applyXfers_cfg]
  exact hfit ps (List.mem_append_right _ hx)

/-! ### What beats keep -/

/-- The part of the block's invariant that each beat keeps: the chunk buffer has its size, the clock rests low, and the `CS` latch is low
exactly inside a frame. -/
structure BeatInv (s : State) : Prop where
  buffer : BufferSized s
  clock : s.pins.sck = false
  latch : Latched s.trace s.pins.cs

theorem drivePins_sck {e : Event} {p : Pins} (h : p.sck = false) : (drivePins e p).sck = false := by
  cases e with
  | tx b => simp
  | dc _ => exact h
  | cs _ => exact h
  | rst _ => exact h
  | wait _ => exact h

theorem BeatInv.runBeat {b : Beat} {s : State} {rest : List Event} (h : BeatInv s)
    (hfit : RefillsFit s.cfg.chunkPixels (b.pre ++ b.post)) (hw : wholeFrames (s.trace ++ b.ev :: rest) = true) :
    BeatInv (runBeat b s) where
  buffer := h.buffer.runBeat hfit
  clock := by rw [runBeat_pins]; exact drivePins_sck h.clock
  latch := by rw [runBeat_pins, runBeat_trace]; exact h.latch.snoc hw

theorem BeatInv.runBeats {bs : List Beat} {s : State} (h : BeatInv s) (hfit : RefillsFit s.cfg.chunkPixels (xfersOf bs))
    (hw : wholeFrames (s.trace ++ eventsOf bs) = true) : BeatInv (runBeats bs s) := by
  induction bs generalizing s with
  | nil => exact h
  | cons b bs ih =>
    have hb : BeatInv (Machine.runBeat b s) := h.runBeat (fun ps hx => hfit ps (List.mem_append_left _ hx)) hw
    refine ih hb ?_ ?_
    · rw [(runBeat_frame b s).1]
      exact fun ps hx => hfit ps (List.mem_append_right _ hx)
    · rw [runBeat_trace, List.append_assoc]
      exact hw

/-! ### The block's invariant between requests and during one -/

theorem faultCode_le (c : FaultCode) : (faultCode c).toNat ≤ 5 := by cases c <;> decide

theorem loadsFit_iff {s : State} : LoadsFit s ↔ RefillsFit s.cfg.chunkPixels (xfersOf s.prog) := by
  simp only [LoadsFit, RefillsFit, mem_xfersOf]
  exact ⟨fun h ps ⟨b, hb, hx⟩ => h b hb ps hx, fun h b hb ps hx => h ps ⟨b, hb, hx⟩⟩

/-- Between requests. -/
structure IdleInv (s : State) : Prop where
  busy : s.busy = false
  ph : s.ph = none
  prog : s.prog = []
  faultCode : s.fault.toNat ≤ 5
  beat : BeatInv s
  whole : wholeFrames s.trace = true

/-- In phase `i` of a request. -/
structure BusyInv (i : Nat) (s : State) : Prop where
  busy : s.busy = true
  ph : s.ph = some i
  inRange : i < s.prog.length
  faultCode : s.fault.toNat ≤ 5
  beat : BeatInv s
  fits : RefillsFit s.cfg.chunkPixels (xfersOf s.prog)
  whole : wholeFrames (s.trace ++ eventsOf (s.prog.drop i)) = true

theorem phaseOk_idle {s : State} (hb : s.busy = false) : PhaseOk s ↔ s.ph = none ∧ s.prog = [] := by
  cases hp : s.ph <;> simp [PhaseOk, hb, hp]

theorem phaseOk_busy {s : State} (hb : s.busy = true) : PhaseOk s ↔ ∃ i, s.ph = some i ∧ i < s.prog.length := by
  cases hp : s.ph <;> simp [PhaseOk, hb, hp]

theorem sequencerInv_idle {s : State} (hb : s.busy = false) : SequencerInv s ↔ IdleInv s := by
  constructor
  · intro ⟨hfault, hbuffer, hclock, hphase, _, hwhole, hlatch⟩
    obtain ⟨hp, hq⟩ := (phaseOk_idle hb).mp hphase
    exact ⟨hb, hp, hq, hfault, ⟨hbuffer, hclock, hlatch⟩, by simpa [remaining, hq] using hwhole⟩
  · intro ⟨_, hp, hq, hfault, ⟨hbuffer, hclock, hlatch⟩, hwhole⟩
    exact ⟨hfault, hbuffer, hclock, (phaseOk_idle hb).mpr ⟨hp, hq⟩, by simp [LoadsFit, hq],
      by simpa [remaining, hq] using hwhole, hlatch⟩

theorem sequencerInv_busy {s : State} (hb : s.busy = true) : SequencerInv s ↔ ∃ i, BusyInv i s := by
  constructor
  · intro ⟨hfault, hbuffer, hclock, hphase, hloads, hwhole, hlatch⟩
    obtain ⟨i, hp, hi⟩ := (phaseOk_busy hb).mp hphase
    exact ⟨i, hb, hp, hi, hfault, ⟨hbuffer, hclock, hlatch⟩, loadsFit_iff.mp hloads,
      by simpa [remaining, hp] using hwhole⟩
  · intro ⟨i, _, hp, hi, hfault, ⟨hbuffer, hclock, hlatch⟩, hfits, hwhole⟩
    exact ⟨hfault, hbuffer, hclock, (phaseOk_busy hb).mpr ⟨i, hp, hi⟩, loadsFit_iff.mpr hfits,
      by simpa [remaining, hp] using hwhole, hlatch⟩

theorem IdleInv.sequencerInv {s : State} (h : IdleInv s) : SequencerInv s := (sequencerInv_idle h.busy).mpr h

theorem BusyInv.sequencerInv {i : Nat} {s : State} (h : BusyInv i s) : SequencerInv s :=
  (sequencerInv_busy h.busy).mpr ⟨i, h⟩

/-- What the operand registers, the shifter, `FINFO`, `RSP`, the controller, the input and `done` hold is no part of the invariant. -/
theorem BeatInv.congr {s t : State} (h : BeatInv s) (hcfg : t.cfg = s.cfg := by rfl) (hwork : t.work = s.work := by rfl)
    (hpins : t.pins = s.pins := by rfl) (htrace : t.trace = s.trace := by rfl) : BeatInv t where
  buffer := by rw [BufferSized, hwork, hcfg]; exact h.buffer
  clock := by rw [hpins]; exact h.clock
  latch := by rw [htrace, hpins]; exact h.latch

/-! ### Taking a request -/

theorem IdleInv.setDone {s : State} (h : IdleInv s) (done : Bool) : IdleInv { s with done := done } :=
  ⟨h.busy, h.ph, h.prog, h.faultCode, h.beat.congr, h.whole⟩

theorem IdleInv.takeItem {s : State} (h : IdleInv s) (rest : List Item) : IdleInv (takeItem rest s) :=
  ⟨h.busy, h.ph, h.prog, h.faultCode, h.beat.congr, h.whole⟩

theorem IdleInv.loadPorts {s : State} (h : IdleInv s) (p : Option Ports) : IdleInv (loadPorts p s) := by
  cases p with
  | none => exact h
  | some q => exact ⟨h.busy, h.ph, h.prog, h.faultCode, h.beat.congr, h.whole⟩

theorem IdleInv.runBeats {bs : List Beat} {s : State} (h : IdleInv s) (hfit : RefillsFit s.cfg.chunkPixels (xfersOf bs))
    (hw : WholeBeats bs) : IdleInv (runBeats bs s) := by
  have hwhole : wholeFrames (s.trace ++ eventsOf bs) = true := wholeFrames_append h.whole hw
  obtain ⟨-, -, hph, hbusy, hfault, -, -, hprog, -⟩ := runBeats_frame bs s
  exact ⟨hbusy.trans h.busy, hph.trans h.ph, hprog.trans h.prog, hfault ▸ h.faultCode, h.beat.runBeats hfit hwhole,
    by rwa [runBeats_trace]⟩

theorem BeatsOk.refillsFit {i : Instr} {chunk : Nat} {bs : List Beat} (h : BeatsOk i chunk bs) :
    RefillsFit chunk (xfersOf bs) := fun _ hps => h _ hps

/-- A verdict carried out whole. -/
theorem IdleInv.settle {i : Instr} {v : Verdict} {s : State} (h : IdleInv s) (hok : VerdictOk i s.cfg.chunkPixels v)
    (hw : WholeVerdict v) : IdleInv (settle v s) := by
  cases v with
  | fault c info => exact ⟨h.busy, h.ph, h.prog, faultCode_le c, h.beat.congr, h.whole⟩
  | respond x => exact ⟨h.busy, h.ph, h.prog, h.faultCode, h.beat.congr, h.whole⟩
  | run bs => exact h.runBeats (BeatsOk.refillsFit hok) hw

/-- An instruction taken whole. -/
theorem IdleInv.perform {i : Instr} {s t : State} (h : IdleInv s) (ht : perform (jobOf i s) s = .next t) :
    IdleInv t := by
  by_cases hf : s.fault = 0
  · rw [perform_settle _ h.busy hf] at ht
    cases ht
    refine ((h.loadPorts (jobOf i s).ports).settle (i := i) ?_ (wholeVerdict_jobOf i s)).setDone true
    rw [loadPorts_cfg]
    exact verdictOk_jobOf i s
  · rw [perform_faulted _ h.busy hf] at ht
    cases ht
    exact h.setDone true

/-- An instruction accepted with events to emit. -/
theorem IdleInv.start {i : Instr} {s : State} {b : Beat} {bs : List Beat} (h : IdleInv s)
    (hv : (jobOf i s).verdict = .run (b :: bs)) :
    BusyInv 0 (setSeq (some 0) true (b :: bs) false (Machine.loadPorts (jobOf i s).ports s)) := by
  have hl : IdleInv (Machine.loadPorts (jobOf i s).ports s) := h.loadPorts _
  have hok : VerdictOk i s.cfg.chunkPixels (.run (b :: bs)) := hv ▸ verdictOk_jobOf i s
  have hw : WholeVerdict (.run (b :: bs)) := hv ▸ wholeVerdict_jobOf i s
  exact ⟨rfl, rfl, Nat.succ_pos _, hl.faultCode, hl.beat.congr,
    by simpa only [setSeq, loadPorts_cfg] using BeatsOk.refillsFit hok, wholeFrames_append hl.whole hw⟩

/-! ### A step of the sequencer -/

theorem drop_of_getElem? {α : Type} {l : List α} {i : Nat} {a : α} (h : l[i]? = some a) :
    l.drop i = a :: l.drop (i + 1) := by
  obtain ⟨hi, rfl⟩ := List.getElem?_eq_some_iff.mp h
  exact List.drop_eq_getElem_cons hi

/-- The beat of the phase runs, and the phase moves on or the block is idle again. -/
theorem BusyInv.tick {i : Nat} {s t : State} (h : BusyInv i s) (ht : tick s = .next t) : SequencerInv t := by
  obtain ⟨j, b, hj, hb, hcases⟩ := tick_cases ht
  obtain rfl : i = j := Option.some.inj (h.ph.symm.trans hj)
  have hwhole : wholeFrames (s.trace ++ b.ev :: eventsOf (s.prog.drop (i + 1))) = true := by
    rw [← eventsOf_cons, ← drop_of_getElem? hb]
    exact h.whole
  have hbeat : BeatInv (runBeat b s) :=
    h.beat.runBeat (fun ps hx => h.fits ps (mem_xfersOf.mpr ⟨b, List.mem_of_getElem? hb, hx⟩)) hwhole
  have hrest : wholeFrames ((runBeat b s).trace ++ eventsOf (s.prog.drop (i + 1))) = true := by
    simpa [runBeat_trace] using hwhole
  obtain ⟨hcfg, -, -, hbusy, hfault, -, -, hprog, -⟩ := runBeat_frame b s
  have hcode : (runBeat b s).fault.toNat ≤ 5 := hfault ▸ h.faultCode
  obtain ⟨hlt, rfl⟩ | ⟨hlast, rfl⟩ := hcases
  · have hnext : BusyInv (i + 1) { runBeat b s with ph := some (i + 1), done := false } :=
      ⟨hbusy.trans h.busy, rfl, hprog ▸ hlt, hcode, hbeat.congr, by simpa only [hcfg, hprog] using h.fits,
        by simpa only [hprog] using hrest⟩
    exact hnext.sequencerInv
  · have hidle : IdleInv { runBeat b s with ph := none, busy := false, prog := [], done := true } :=
      ⟨rfl, rfl, rfl, hcode, hbeat.congr, by simpa [hlast] using hrest⟩
    exact hidle.sequencerInv

/-- Settles O11: a busy block runs the beat of its phase, and an idle one waits, takes a request whole, or accepts one. -/
theorem sequencerInvariantIsKept : Obligations.SequencerInvariantIsKept := by
  intro s t hs _ h
  obtain ⟨hb, ht⟩ | ⟨hb, rfl⟩ | ⟨i, rest, hb, hperf⟩ | ⟨i, rest, b, bs, hb, -, hv, rfl⟩ := step_inv h
  · obtain ⟨i, hi⟩ := (sequencerInv_busy hb).mp hs
    exact hi.tick ht
  · exact (((sequencerInv_idle hb).mp hs).setDone false).sequencerInv
  · exact (((sequencerInv_idle hb).mp hs).takeItem rest).perform hperf |>.sequencerInv
  · exact (((sequencerInv_idle hb).mp hs).takeItem rest).start hv |>.sequencerInv

/-! ### Block reset (10_state R45, 20_memory R76) -/

theorem skip_ne (t n : Nat) : Config.skip t n ≠ t := by
  unfold Config.skip
  split <;> omega

/-- Skipping two numbers, the smaller first, gives neither of them (00_scope R10). -/
theorem skip_skip_ne {lo hi : Nat} (h : lo ≤ hi) (n : Nat) : Config.skip hi (Config.skip lo n) ≠ lo := by
  have hlo : Config.skip lo n ≠ lo := skip_ne lo n
  rw [Config.skip]
  split <;> omega

theorem default_pins_nodup : [Config.default.pinCs, Config.default.pinDc, Config.default.pinRst].Nodup := by
  have hdc : Config.default.pinDc ≠ Config.default.pinCs := skip_ne _ _
  have hmax : Config.default.pinRst ≠ max Config.default.pinCs Config.default.pinDc := skip_ne _ _
  have hmin : Config.default.pinRst ≠ min Config.default.pinCs Config.default.pinDc := skip_skip_ne min_le_max _
  have hrst : Config.default.pinRst ≠ Config.default.pinCs ∧ Config.default.pinRst ≠ Config.default.pinDc := by
    obtain hle | hle := le_total Config.default.pinCs Config.default.pinDc
    · exact ⟨min_eq_left hle ▸ hmin, max_eq_right hle ▸ hmax⟩
    · exact ⟨max_eq_left hle ▸ hmax, min_eq_right hle ▸ hmin⟩
  simp [hdc.symm, hrst.1.symm, hrst.2.symm]

theorem default_valid : Config.default.Valid :=
  ⟨by decide, by decide, Nat.succ_pos _, Nat.le_add_right _ _, default_pins_nodup, by decide⟩

theorem idleInv_reset : IdleInv State.reset :=
  ⟨rfl, rfl, rfl, by decide, ⟨List.length_replicate, rfl, rfl⟩, rfl⟩

theorem receiverInv_reset : ReceiverInv State.reset where
  cs := rfl
  dc := rfl
  gram := ⟨rfl, fun _ hc => absurd hc List.not_mem_nil, fun _ _ => rfl⟩
  cursor := fun hcmd => nomatch hcmd
  both := rfl
  hold := fun hhold => nomatch hhold

/-- Settles O13, by the values of the reset state. -/
theorem resetMeetsTheInvariants : Obligations.ResetMeetsTheInvariants :=
  ⟨⟨rfl, rfl, rfl, rfl, rfl, rfl, rfl, rfl, rfl, ⟨rfl, rfl, rfl, ⟨rfl, rfl, rfl, rfl⟩, ⟨rfl, rfl⟩, fun _ => rfl⟩, rfl, rfl⟩,
    idleInv_reset.sequencerInv, receiverInv_reset, default_valid⟩

end Sys2Proof.Proofs

/-! PROOF. What one event does to the controller, a rule a case, and what each rule leaves unchanged (20_memory R76 to
R85). -/

namespace Sys2Proof.Proofs

open Sys2Proof.Machine Sys2Proof.Safety

/-! ### The command bytes (00_scope R11) -/

/-- The address commands and memory-write are told apart. -/
theorem addressBytes_distinct {cfg : Config} (h : cfg.Valid) :
    cfg.cmdCaset ≠ cfg.cmdRamwr ∧ cfg.cmdPaset ≠ cfg.cmdRamwr ∧ cfg.cmdPaset ≠ cfg.cmdCaset := by
  obtain ⟨-, -, -, -, -, hbytes⟩ := h
  simp only [Config.commands, List.nodup_cons, List.mem_cons, not_or] at hbytes
  obtain ⟨-, -, ⟨hcaset_paset, hcaset_ramwr, -⟩, ⟨hpaset_ramwr, -⟩, -⟩ := hbytes
  exact ⟨hcaset_ramwr, hpaset_ramwr, Ne.symm hcaset_paset⟩

/-- A command whose parameter is one byte is not memory-write. -/
theorem parameterBytes_ne_ramwr {cfg : Config} (h : cfg.Valid) :
    cfg.cmdMadctl ≠ cfg.cmdRamwr ∧ cfg.cmdPixfmt ≠ cfg.cmdRamwr := by
  obtain ⟨-, -, -, -, -, hbytes⟩ := h
  simp only [Config.commands, List.nodup_cons, List.mem_cons, not_or] at hbytes
  obtain ⟨-, -, -, -, ⟨hramwr_madctl, hramwr_pixfmt, -⟩, -⟩ := hbytes
  exact ⟨Ne.symm hramwr_madctl, Ne.symm hramwr_pixfmt⟩

/-! ### Commands (20_memory R78, R84) -/

/-- The window is valid when its four bounds are known and fit the panel. -/
theorem rxWindowValid_iff {cfg : Config} {r : Rx} :
    rxWindowValid cfg r = true ↔ ∃ sc ec sp ep : Half, r.sc = some sc ∧ r.ec = some ec ∧ r.sp = some sp ∧
      r.ep = some ep ∧ WindowFits cfg sc.toNat sp.toNat ec.toNat ep.toNat := by
  unfold rxWindowValid
  split
  · next sc ec sp ep hsc hec hsp hep =>
    have hfits : WindowFits cfg sc.toNat sp.toNat ec.toNat ep.toNat ↔
        (sc.toNat ≤ ec.toNat ∧ ec.toNat < cfg.width) ∧ sp.toNat ≤ ep.toNat ∧ ep.toNat < cfg.height := by
      unfold WindowFits; omega
    simp [hsc, hec, hsp, hep, hfits]
  · next hnone =>
    refine iff_of_false Bool.false_ne_true ?_
    rintro ⟨sc, ec, sp, ep, hsc, hec, hsp, hep, -⟩
    exact hnone sc ec sp ep hsc hec hsp hep

/-- The command in effect, no parameter counted and no half pixel held. -/
def rxTake (b : Byte) (r : Rx) : Rx := { r with cmd := some b, pn := 0, hold := none }

section
variable {cfg : Config} {b : Byte} {r : Rx}

/-- Memory-write on a valid window starts at its first pixel. -/
theorem rxCommand_home (hw : rxWindowValid cfg r = true) :
    rxCommand cfg cfg.cmdRamwr r = rxHome (rxTake cfg.cmdRamwr r) := by
  have htake : rxWindowValid cfg (rxTake cfg.cmdRamwr r) = true := hw
  rw [rxCommand]
  exact (if_pos rfl).trans (if_pos htake)

/-- Memory-write on a window that is not valid loses the cursor. -/
theorem rxCommand_lose (hw : ¬ rxWindowValid cfg r = true) :
    rxCommand cfg cfg.cmdRamwr r = rxLoseCursor (rxTake cfg.cmdRamwr r) := by
  have htake : ¬ rxWindowValid cfg (rxTake cfg.cmdRamwr r) = true := hw
  rw [rxCommand]
  exact (if_pos rfl).trans (if_neg htake)

/-- An address command does nothing more. -/
theorem rxCommand_address (hw : b ≠ cfg.cmdRamwr) (ha : b = cfg.cmdCaset ∨ b = cfg.cmdPaset) :
    rxCommand cfg b r = rxTake b r := by
  rw [rxCommand]
  exact (if_neg hw).trans (if_pos ha)

/-- Any other command loses window and cursor. -/
theorem rxCommand_other (hw : b ≠ cfg.cmdRamwr) (ha : ¬ (b = cfg.cmdCaset ∨ b = cfg.cmdPaset)) :
    rxCommand cfg b r = rxLoseCursor (rxLoseWindow (rxTake b r)) := by
  rw [rxCommand]
  exact (if_neg hw).trans (if_neg ha)

/-- What a command byte can do. -/
theorem rxCommand_cases (cfg : Config) (b : Byte) (r : Rx) :
    (b = cfg.cmdRamwr ∧ rxWindowValid cfg r = true ∧ rxCommand cfg b r = rxHome (rxTake b r)) ∨
    (b = cfg.cmdRamwr ∧ ¬ rxWindowValid cfg r = true ∧ rxCommand cfg b r = rxLoseCursor (rxTake b r)) ∨
    (b ≠ cfg.cmdRamwr ∧ (b = cfg.cmdCaset ∨ b = cfg.cmdPaset) ∧ rxCommand cfg b r = rxTake b r) ∨
    (b ≠ cfg.cmdRamwr ∧ ¬ (b = cfg.cmdCaset ∨ b = cfg.cmdPaset) ∧
      rxCommand cfg b r = rxLoseCursor (rxLoseWindow (rxTake b r))) := by
  by_cases hb : b = cfg.cmdRamwr
  · subst hb
    by_cases hw : rxWindowValid cfg r = true
    · exact .inl ⟨rfl, hw, rxCommand_home hw⟩
    · exact .inr (.inl ⟨rfl, hw, rxCommand_lose hw⟩)
  · by_cases ha : b = cfg.cmdCaset ∨ b = cfg.cmdPaset
    · exact .inr (.inr (.inl ⟨hb, ha, rxCommand_address hb ha⟩))
    · exact .inr (.inr (.inr ⟨hb, ha, rxCommand_other hb ha⟩))

end

@[simp] theorem rxCommand_cmd (cfg : Config) (b : Byte) (r : Rx) : (rxCommand cfg b r).cmd = some b := by
  obtain ⟨-, -, h⟩ | ⟨-, -, h⟩ | ⟨-, -, h⟩ | ⟨-, -, h⟩ := rxCommand_cases cfg b r <;> rw [h] <;> rfl
@[simp] theorem rxCommand_pn (cfg : Config) (b : Byte) (r : Rx) : (rxCommand cfg b r).pn = 0 := by
  obtain ⟨-, -, h⟩ | ⟨-, -, h⟩ | ⟨-, -, h⟩ | ⟨-, -, h⟩ := rxCommand_cases cfg b r <;> rw [h] <;> rfl
@[simp] theorem rxCommand_hold (cfg : Config) (b : Byte) (r : Rx) : (rxCommand cfg b r).hold = none := by
  obtain ⟨-, -, h⟩ | ⟨-, -, h⟩ | ⟨-, -, h⟩ | ⟨-, -, h⟩ := rxCommand_cases cfg b r <;> rw [h] <;> rfl
@[simp] theorem rxCommand_cs (cfg : Config) (b : Byte) (r : Rx) : (rxCommand cfg b r).cs = r.cs := by
  obtain ⟨-, -, h⟩ | ⟨-, -, h⟩ | ⟨-, -, h⟩ | ⟨-, -, h⟩ := rxCommand_cases cfg b r <;> rw [h] <;> rfl
@[simp] theorem rxCommand_dc (cfg : Config) (b : Byte) (r : Rx) : (rxCommand cfg b r).dc = r.dc := by
  obtain ⟨-, -, h⟩ | ⟨-, -, h⟩ | ⟨-, -, h⟩ | ⟨-, -, h⟩ := rxCommand_cases cfg b r <;> rw [h] <;> rfl

/-! ### Data bytes (20_memory R79 to R83) -/

/-- A range set, or lost, by the address command `c`: the column range by column-address-set, the row range by the other. -/
def rxSetRange (cfg : Config) (c : Byte) (first last : Option Half) (r : Rx) : Rx :=
  { r with sc := if c = cfg.cmdCaset then first else r.sc, ec := if c = cfg.cmdCaset then last else r.ec,
           sp := if c = cfg.cmdCaset then r.sp else first, ep := if c = cfg.cmdCaset then r.ep else last }

section
variable {cfg : Config} {b c : Byte} {r : Rx}

theorem rxData_none (hc : r.cmd = none) : rxData cfg b r = r := by
  rw [rxData, hc]

theorem rxData_ramwr (hc : r.cmd = some cfg.cmdRamwr) :
    rxData cfg b r = { rxPixelByte cfg b r with pn := r.pn + 1 } := by
  simp [rxData, hc]

/-- A parameter byte of an address command: stored, and the fourth sets the command's range. -/
theorem rxData_address (hv : cfg.Valid) (hc : r.cmd = some c) (ha : c = cfg.cmdCaset ∨ c = cfg.cmdPaset) :
    rxData cfg b r =
      { (if r.pn = 3 then
          rxSetRange cfg c (some (join16 (rxSetParam b r).p0 (rxSetParam b r).p1))
            (some (join16 (rxSetParam b r).p2 (rxSetParam b r).p3)) (rxSetParam b r)
        else rxSetParam b r) with pn := r.pn + 1 } := by
  obtain ⟨hcw, hpw, hpc⟩ := addressBytes_distinct hv
  obtain rfl | rfl := ha
  · simp [rxData, hc, hcw, rxColumnByte, rxSetRange]
  · simp [rxData, hc, hpw, hpc, rxRowByte, rxSetRange]

/-- A data byte for any other command is only counted (20_memory R83). -/
theorem rxData_other (hc : r.cmd = some c) (hw : c ≠ cfg.cmdRamwr) (ha : ¬ (c = cfg.cmdCaset ∨ c = cfg.cmdPaset)) :
    rxData cfg b r = { r with pn := r.pn + 1 } := by
  rw [not_or] at ha
  simp [rxData, hc, hw, ha.1, ha.2]

/-- The first byte of a pixel is held. -/
theorem rxPixelByte_first {col row : Nat} (hcol : r.col = some col) (hrow : r.row = some row) (hh : r.hold = none) :
    rxPixelByte cfg b r = { r with hold := some b } := by
  simp [rxPixelByte, hcol, hrow, hh]

/-- The second byte of a pixel completes it. -/
theorem rxPixelByte_second {h : Byte} {col row : Nat} (hcol : r.col = some col) (hrow : r.row = some row)
    (hh : r.hold = some h) : rxPixelByte cfg b r = rxPixel cfg col row h b r := by
  simp [rxPixelByte, hcol, hrow, hh]

/-- With the cursor unknown every pixel becomes unknown. -/
theorem rxPixelByte_lost (h : r.col = none ∨ r.row = none) :
    rxPixelByte cfg b r = { r with gram := memForget } := by
  unfold rxPixelByte
  split
  · next hcol hrow => simp [hcol, hrow] at h
  · rfl

/-- What a byte of pixel data can do. -/
theorem rxPixelByte_cases (cfg : Config) (b : Byte) (r : Rx) :
    ((r.col = none ∨ r.row = none) ∧ rxPixelByte cfg b r = { r with gram := memForget }) ∨
    ∃ col row, r.col = some col ∧ r.row = some row ∧
      ((r.hold = none ∧ rxPixelByte cfg b r = { r with hold := some b }) ∨
       ∃ h, r.hold = some h ∧ rxPixelByte cfg b r = rxPixel cfg col row h b r) := by
  by_cases hlost : r.col = none ∨ r.row = none
  · exact .inl ⟨hlost, rxPixelByte_lost hlost⟩
  · obtain ⟨⟨col, hcol⟩, row, hrow⟩ := (not_or.mp hlost).imp Option.ne_none_iff_exists'.mp Option.ne_none_iff_exists'.mp
    refine .inr ⟨col, row, hcol, hrow, ?_⟩
    by_cases hh : r.hold = none
    · exact .inl ⟨hh, rxPixelByte_first hcol hrow hh⟩
    · obtain ⟨h, hh⟩ := Option.ne_none_iff_exists'.mp hh
      exact .inr ⟨h, hh, rxPixelByte_second hcol hrow hh⟩

end

/-! ### The cursor (20_memory R82) -/

/-- The column after one pixel: the next, or the window's first. -/
def nextCol (sc ec : Half) (col : Nat) : Nat := if col < ec.toNat then col + 1 else sc.toNat

/-- The row after one pixel: the same, and at the end of a row of the window the next, or the window's first. -/
def nextRow (ec sp ep : Half) (col row : Nat) : Nat :=
  if col < ec.toNat then row else if row < ep.toNat then row + 1 else sp.toNat

/-- The cursor stands in the window. -/
structure InWindow (sc ec sp ep : Half) (col row : Nat) : Prop where
  left : sc.toNat ≤ col
  right : col ≤ ec.toNat
  top : sp.toNat ≤ row
  bottom : row ≤ ep.toNat

/-- The cursor's next place is in the window too. -/
theorem InWindow.next {sc ec sp ep : Half} {col row : Nat} (h : InWindow sc ec sp ep col row) :
    InWindow sc ec sp ep (nextCol sc ec col) (nextRow ec sp ep col row) := by
  obtain ⟨hl, hr, ht, hb⟩ := h
  constructor <;> simp only [nextCol, nextRow] <;> split_ifs <;> omega

/-- On a known window the cursor moves to its next place. -/
theorem rxAdvance_known {r : Rx} {sc ec sp ep : Half} (hsc : r.sc = some sc) (hec : r.ec = some ec)
    (hsp : r.sp = some sp) (hep : r.ep = some ep) (col row : Nat) :
    rxAdvance col row r = { r with col := some (nextCol sc ec col), row := some (nextRow ec sp ep col row) } := by
  simp only [rxAdvance, hsc, hec, hsp, hep, nextCol, nextRow]
  split <;> rfl

/-- A complete pixel on a known window is written at the cursor, which moves on. -/
theorem rxPixel_known {cfg : Config} {r : Rx} {sc ec sp ep : Half} (hsc : r.sc = some sc) (hec : r.ec = some ec)
    (hsp : r.sp = some sp) (hep : r.ep = some ep) {col row : Nat} (ha : gramAddress cfg row col = true) (hi lo : Byte) :
    rxPixel cfg col row hi lo r =
      { r with gram := gramWrite row col (join16 hi lo) r.gram, hold := none, col := some (nextCol sc ec col),
               row := some (nextRow ec sp ep col row) } := by
  rw [rxPixel, if_pos ha]
  exact rxAdvance_known (r := { r with gram := _, hold := none }) hsc hec hsp hep col row

/-! ### What a data byte leaves unchanged -/

theorem rxAdvance_moves (col row : Nat) (r : Rx) :
    ∃ col' row', rxAdvance col row r = { r with col := col', row := row' } := by
  unfold rxAdvance
  split
  · split <;> exact ⟨_, _, rfl⟩
  · exact ⟨_, _, rfl⟩

theorem rxPixelByte_writes (cfg : Config) (b : Byte) (r : Rx) :
    ∃ col row hold gram, rxPixelByte cfg b r = { r with col := col, row := row, hold := hold, gram := gram } := by
  obtain ⟨-, h⟩ | ⟨col, row, -, -, ⟨-, h⟩ | ⟨h', -, h⟩⟩ := rxPixelByte_cases cfg b r
  · exact ⟨_, _, _, _, h⟩
  · exact ⟨_, _, _, _, h⟩
  · rw [h, rxPixel]
    obtain ⟨col', row', hmove⟩ := rxAdvance_moves col row _
    exact ⟨col', row', _, _, hmove⟩

theorem rxSetParam_stores (b : Byte) (r : Rx) :
    ∃ p0 p1 p2 p3, rxSetParam b r = { r with p0 := p0, p1 := p1, p2 := p2, p3 := p3 } := by
  unfold rxSetParam
  split <;> exact ⟨_, _, _, _, rfl⟩

section
variable {cfg : Config} {b : Byte} {r : Rx}

/-- With no memory-write in effect a data byte writes parameters and window only. -/
theorem rxData_parameter (hv : cfg.Valid) (hw : r.cmd ≠ some cfg.cmdRamwr) :
    ∃ pn p0 p1 p2 p3 sc ec sp ep, rxData cfg b r =
      { r with pn := pn, p0 := p0, p1 := p1, p2 := p2, p3 := p3, sc := sc, ec := ec, sp := sp, ep := ep } := by
  by_cases hnone : r.cmd = none
  · exact ⟨_, _, _, _, _, _, _, _, _, rxData_none hnone⟩
  · obtain ⟨c, hc⟩ := Option.ne_none_iff_exists'.mp hnone
    by_cases ha : c = cfg.cmdCaset ∨ c = cfg.cmdPaset
    · obtain ⟨p0, p1, p2, p3, hp⟩ := rxSetParam_stores b r
      rw [rxData_address hv hc ha, hp]
      split <;> exact ⟨_, _, _, _, _, _, _, _, _, rfl⟩
    · exact ⟨_, _, _, _, _, _, _, _, _, rxData_other hc (fun h => hw (hc.trans (congrArg some h))) ha⟩

/-- A data byte moves neither the levels nor the command in effect. -/
theorem rxData_keeps (hv : cfg.Valid) :
    (rxData cfg b r).cs = r.cs ∧ (rxData cfg b r).dc = r.dc ∧ (rxData cfg b r).cmd = r.cmd := by
  by_cases hw : r.cmd = some cfg.cmdRamwr
  · obtain ⟨_, _, _, _, h⟩ := rxPixelByte_writes cfg b r
    rw [rxData_ramwr hw, h]
    exact ⟨rfl, rfl, rfl⟩
  · obtain ⟨_, _, _, _, _, _, _, _, _, h⟩ := rxData_parameter (b := b) hv hw
    rw [h]
    exact ⟨rfl, rfl, rfl⟩

/-! ### Chip-select released (20_memory R85) -/

/-- An address command in the middle of a coordinate loses its range. -/
theorem rxResyncParam_half {c : Byte} (hv : cfg.Valid) (hc : r.cmd = some c)
    (ha : c = cfg.cmdCaset ∨ c = cfg.cmdPaset) (hp : r.pn = 1 ∨ r.pn = 3) :
    rxResyncParam cfg r = { rxSetRange cfg c none none r with pn := 4 } := by
  obtain ⟨-, -, hpc⟩ := addressBytes_distinct hv
  obtain rfl | rfl := ha
  · simp [rxResyncParam, hp, hc, rxSetRange]
  · simp [rxResyncParam, hp, hc, hpc, rxSetRange]

theorem rxResyncParam_whole (hp : ¬ (r.pn = 1 ∨ r.pn = 3)) : rxResyncParam cfg r = r := if_neg hp

/-- A command without a range has none to lose. -/
theorem rxResyncParam_other {c : Byte} (hc : r.cmd = some c) (ha : ¬ (c = cfg.cmdCaset ∨ c = cfg.cmdPaset)) :
    rxResyncParam cfg r = r := by
  rw [not_or] at ha
  simp [rxResyncParam, hc, ha.1, ha.2]

theorem rxResyncParam_ramwr (hv : cfg.Valid) (hc : r.cmd = some cfg.cmdRamwr) : rxResyncParam cfg r = r := by
  obtain ⟨hcw, hpw, -⟩ := addressBytes_distinct hv
  exact rxResyncParam_other hc (not_or.mpr ⟨hcw.symm, hpw.symm⟩)

theorem rxResyncParam_parameter (cfg : Config) (r : Rx) :
    ∃ pn sc ec sp ep, rxResyncParam cfg r = { r with pn := pn, sc := sc, ec := ec, sp := sp, ep := ep } := by
  unfold rxResyncParam
  split_ifs <;> exact ⟨_, _, _, _, _, rfl⟩

theorem rxResyncPixel_none (hh : r.hold = none) : rxResyncPixel r = r := by
  rw [rxResyncPixel, hh]

theorem rxResyncPixel_some {h : Byte} (hh : r.hold = some h) :
    rxResyncPixel r = rxLoseCursor { r with hold := none } := by
  rw [rxResyncPixel, hh]

/-- With no half pixel held, chip-select released concerns the parameters only. -/
theorem rxEvent_release (hh : r.hold = none) :
    rxEvent cfg (.cs true) r = rxResyncParam cfg { r with cs := true } :=
  congrArg (rxResyncParam cfg) (rxResyncPixel_none hh)

/-- With half a pixel held, chip-select released loses it and the cursor. -/
theorem rxEvent_release_half {h : Byte} (hh : r.hold = some h) :
    rxEvent cfg (.cs true) r = rxResyncParam cfg (rxLoseCursor { r with cs := true, hold := none }) :=
  congrArg (rxResyncParam cfg) (rxResyncPixel_some (r := { r with cs := true }) hh)

/-! ### Bytes by the level they are sent under -/

theorem rxEvent_tx_released (hcs : r.cs = true) : rxEvent cfg (.tx b) r = r := if_pos hcs

theorem rxEvent_tx_data (hcs : r.cs = false) (hdc : r.dc = true) : rxEvent cfg (.tx b) r = rxData cfg b r := by
  simp [rxEvent, hcs, hdc]

theorem rxEvent_tx_command (hcs : r.cs = false) (hdc : r.dc = false) :
    rxEvent cfg (.tx b) r = rxCommand cfg b r := by
  simp [rxEvent, hcs, hdc]

end

end Sys2Proof.Proofs

/-! PROOF. Every step keeps the invariant of the controller (20_memory R75 to R85). -/

namespace Sys2Proof.Proofs

open Sys2Proof.Machine Sys2Proof.Safety

/-! ### GRAM stays in canonical form, on the panel and known by whole pixels (20_memory R60, R75, R82) -/

theorem mem_memWrite {a : Nat} {v : Byte} {m : Memory} {c : Host.Cell} (h : c ∈ memWrite a v m) :
    c = (a, v) ∨ c ∈ m := by
  induction m with
  | nil => simpa [memWrite] using h
  | cons d rest ih =>
    rw [memWrite] at h
    split_ifs at h
    · simpa using h
    · obtain h | h := List.mem_cons.mp h
      · exact .inl h
      · exact .inr (List.mem_cons_of_mem d h)
    · obtain h | h := List.mem_cons.mp h
      · exact .inr (h ▸ List.mem_cons_self)
      · exact (ih h).imp_right (List.mem_cons_of_mem d)

/-- Both bytes of a pixel written are known, and whether a byte of another pixel is known does not change. -/
theorem memRead_gramWrite_isSome (row col r c : Nat) (v : Colour) {i : Nat} (hi : i < 2) (m : Memory) :
    (memRead (pixelKey r c + i) (gramWrite row col v m)).isSome =
      (decide (pixelKey r c = pixelKey row col) || (memRead (pixelKey r c + i) m).isSome) := by
  by_cases hkey : pixelKey r c = pixelKey row col
  · obtain rfl | rfl : i = 0 ∨ i = 1 := by omega
    · simp [gramWrite, hkey, memRead_memWrite_ne]
    · simp [gramWrite, hkey]
  · have heven : pixelKey r c + i ≠ pixelKey row col ∧ pixelKey r c + i ≠ pixelKey row col + 1 := by
      simp only [pixelKey] at hkey ⊢; omega
    simp [memRead_gramWrite_ne heven.1 heven.2, hkey]

theorem gramOk_memForget (cfg : Config) : GramOk cfg memForget :=
  ⟨rfl, fun _ hc => absurd hc List.not_mem_nil, fun _ _ => rfl⟩

theorem gramAddress_iff {cfg : Config} {row col : Nat} :
    gramAddress cfg row col = true ↔ row < cfg.height ∧ col < cfg.width := by
  simp [gramAddress]

/-- A pixel of the panel written keeps GRAM well formed. -/
theorem gramOk_gramWrite {cfg : Config} {m : Memory} {row col : Nat} (h : GramOk cfg m) (hv : cfg.Valid)
    (ha : gramAddress cfg row col = true) (v : Colour) : GramOk cfg (gramWrite row col v m) where
  canonical := gramWrite_wf row col v h.canonical
  onPanel := by
    have hcol : col < 65536 := by
      have := (gramAddress_iff.mp ha).2
      have := hv.1.2
      omega
    intro c hc
    have hown : ∀ i < 2,
        gramAddress cfg ((pixelKey row col + i) / 2 / 65536) ((pixelKey row col + i) / 2 % 65536) = true := by
      intro i hi
      have hplace : (pixelKey row col + i) / 2 / 65536 = row ∧ (pixelKey row col + i) / 2 % 65536 = col := by
        simp only [pixelKey]
        omega
      rw [hplace.1, hplace.2]
      exact ha
    obtain rfl | hc := mem_memWrite hc
    · exact hown 1 (by omega)
    · obtain rfl | hc := mem_memWrite hc
      · exact hown 0 (by omega)
      · exact h.onPanel c hc
  whole r c := by
    rw [memRead_gramWrite_isSome row col r c v (i := 1) (by omega)]
    exact (memRead_gramWrite_isSome row col r c v (i := 0) (by omega) m).trans (by rw [← h.whole]; rfl)

/-! ### The invariant of the controller by itself -/

/-- The controller's part of its invariant: all but that it sees the pin levels. -/
structure RxInv (cfg : Config) (r : Rx) : Prop where
  gram : GramOk cfg r.gram
  cursor : CursorOk cfg r
  both : r.col.isSome = r.row.isSome
  hold : r.hold.isSome = true → r.cs = false ∧ r.cmd = some cfg.cmdRamwr ∧ r.col.isSome = true

section
variable {cfg : Config} {r : Rx}

/-- With no memory-write in effect and no half pixel held, the invariant speaks of GRAM and of a cursor known or unknown. -/
theorem rxInv_of_cmd_ne (hw : r.cmd ≠ some cfg.cmdRamwr) (hg : GramOk cfg r.gram) (hb : r.col.isSome = r.row.isSome)
    (hh : r.hold = none) : RxInv cfg r where
  gram := hg
  cursor := fun hc => absurd hc hw
  both := hb
  hold := by simp [hh]

/-- With no known cursor and no half pixel held, the invariant speaks of GRAM. -/
theorem rxInv_of_cursor_none (hg : GramOk cfg r.gram) (hcol : r.col = none) (hrow : r.row = none)
    (hh : r.hold = none) : RxInv cfg r where
  gram := hg
  cursor := by simp [CursorOk, hcol]
  both := by rw [hcol, hrow]
  hold := by simp [hh]

/-- Half a pixel is held under memory-write only. -/
theorem RxInv.hold_none (h : RxInv cfg r) (hw : r.cmd ≠ some cfg.cmdRamwr) : r.hold = none := by
  by_contra hne
  exact hw (h.hold (Option.isSome_iff_ne_none.mpr hne)).2.1

/-- A command byte: memory-write homes the cursor on a valid window, and no command leaves half a pixel held. -/
theorem RxInv.rxCommand (h : RxInv cfg r) (b : Byte) : RxInv cfg (rxCommand cfg b r) := by
  have hb : (rxTake b r).col.isSome = (rxTake b r).row.isSome := h.both
  obtain ⟨-, hw, hq⟩ | ⟨-, -, hq⟩ | ⟨hb', -, hq⟩ | ⟨-, -, hq⟩ := rxCommand_cases cfg b r
  · obtain ⟨sc, ec, sp, ep, hsc, hec, hsp, hep, hfits⟩ := rxWindowValid_iff.mp hw
    unfold WindowFits at hfits
    rw [hq]
    refine ⟨h.gram, fun _ col row hcol hrow => ⟨sc, ec, sp, ep, hsc, hec, hsp, hep, ?_⟩, ?_, fun hh => nomatch hh⟩
    · obtain rfl : sc.toNat = col := by simpa [rxHome, rxTake, hsc] using hcol
      obtain rfl : sp.toNat = row := by simpa [rxHome, rxTake, hsp] using hrow
      omega
    · simp [rxHome, rxTake, hsc, hsp]
  · rw [hq]
    exact rxInv_of_cursor_none h.gram rfl rfl rfl
  · rw [hq]
    exact rxInv_of_cmd_ne (fun hc => hb' (Option.some.inj hc)) h.gram hb rfl
  · rw [hq]
    exact rxInv_of_cursor_none h.gram rfl rfl rfl

/-- Under memory-write a known cursor stands in a window of the panel. -/
theorem RxInv.inWindow (h : RxInv cfg r) (hc : r.cmd = some cfg.cmdRamwr) {col row : Nat} (hcol : r.col = some col)
    (hrow : r.row = some row) :
    ∃ sc ec sp ep, r.sc = some sc ∧ r.ec = some ec ∧ r.sp = some sp ∧ r.ep = some ep ∧ InWindow sc ec sp ep col row ∧
      ec.toNat < cfg.width ∧ ep.toNat < cfg.height := by
  obtain ⟨sc, ec, sp, ep, hsc, hec, hsp, hep, hl, hr, hwd, ht, hb, hht⟩ := h.cursor hc col row hcol hrow
  exact ⟨sc, ec, sp, ep, hsc, hec, hsp, hep, ⟨hl, hr, ht, hb⟩, hwd, hht⟩

theorem InWindow.gramAddress {sc ec sp ep : Half} {col row : Nat} (h : InWindow sc ec sp ep col row)
    (hw : ec.toNat < cfg.width) (hh : ep.toNat < cfg.height) : gramAddress cfg row col = true :=
  gramAddress_iff.mpr ⟨h.bottom.trans_lt hh, h.right.trans_lt hw⟩

/-- A byte of pixel data: held, or the pixel is written inside the window and the cursor moves on inside it. -/
theorem RxInv.rxPixelByte (h : RxInv cfg r) (hv : cfg.Valid) (hcs : r.cs = false) (hc : r.cmd = some cfg.cmdRamwr)
    (b : Byte) : RxInv cfg { rxPixelByte cfg b r with pn := r.pn + 1 } := by
  obtain ⟨-, hq⟩ | ⟨col, row, hcol, hrow, ⟨-, hq⟩ | ⟨h', -, hq⟩⟩ := rxPixelByte_cases cfg b r
  · rw [hq]
    exact ⟨gramOk_memForget cfg, h.cursor, h.both, h.hold⟩
  · rw [hq]
    exact ⟨h.gram, h.cursor, h.both, fun _ => ⟨hcs, hc, Option.isSome_of_eq_some hcol⟩⟩
  · obtain ⟨sc, ec, sp, ep, hsc, hec, hsp, hep, hin, hwd, hht⟩ := h.inWindow hc hcol hrow
    have ha : Machine.gramAddress cfg row col = true := hin.gramAddress hwd hht
    rw [hq, rxPixel_known hsc hec hsp hep ha]
    refine ⟨gramOk_gramWrite h.gram hv ha _, fun _ x y hx hy => ⟨sc, ec, sp, ep, hsc, hec, hsp, hep, ?_⟩, rfl,
      fun hh => nomatch hh⟩
    obtain ⟨hl, hr, ht, hb⟩ := hin.next
    obtain rfl := Option.some.inj hx
    obtain rfl := Option.some.inj hy
    exact ⟨hl, hr, hwd, ht, hb, hht⟩

/-- A data byte: pixel data under memory-write, otherwise a parameter. -/
theorem RxInv.rxData (h : RxInv cfg r) (hv : cfg.Valid) (hcs : r.cs = false) (b : Byte) :
    RxInv cfg (rxData cfg b r) := by
  by_cases hw : r.cmd = some cfg.cmdRamwr
  · rw [rxData_ramwr hw]
    exact h.rxPixelByte hv hcs hw b
  · obtain ⟨_, _, _, _, _, _, _, _, _, hq⟩ := rxData_parameter (b := b) hv hw
    rw [hq]
    exact rxInv_of_cmd_ne hw h.gram h.both (h.hold_none hw)

/-- Chip-select released: half a pixel is lost with the cursor, half a coordinate with its range. -/
theorem RxInv.release (h : RxInv cfg r) (hv : cfg.Valid) : RxInv cfg (rxEvent cfg (.cs true) r) := by
  by_cases hw : r.cmd = some cfg.cmdRamwr
  · by_cases hh : r.hold = none
    · rw [rxEvent_release hh, rxResyncParam_ramwr (r := { r with cs := true }) hv hw]
      exact ⟨h.gram, h.cursor, h.both, by simp [hh]⟩
    · obtain ⟨b, hh⟩ := Option.ne_none_iff_exists'.mp hh
      rw [rxEvent_release_half hh, rxResyncParam_ramwr (r := rxLoseCursor { r with cs := true, hold := none }) hv hw]
      exact rxInv_of_cursor_none h.gram rfl rfl rfl
  · have hh : r.hold = none := h.hold_none hw
    obtain ⟨_, _, _, _, _, hq⟩ := rxResyncParam_parameter cfg { r with cs := true }
    rw [rxEvent_release hh, hq]
    exact rxInv_of_cmd_ne hw h.gram h.both hh

/-- Every event keeps the controller's part of the invariant. -/
theorem RxInv.rxEvent (h : RxInv cfg r) (hv : cfg.Valid) (e : Event) : RxInv cfg (rxEvent cfg e r) := by
  cases e with
  | dc l => exact ⟨h.gram, h.cursor, h.both, h.hold⟩
  | cs l =>
    cases l with
    | false => exact ⟨h.gram, h.cursor, h.both, fun hh => ⟨rfl, (h.hold hh).2⟩⟩
    | true => exact h.release hv
  | tx b =>
    cases hcs : r.cs with
    | true => rw [rxEvent_tx_released hcs]; exact h
    | false =>
      cases hdc : r.dc with
      | true => rw [rxEvent_tx_data hcs hdc]; exact h.rxData hv hcs b
      | false => rw [rxEvent_tx_command hcs hdc]; exact h.rxCommand b
  | rst l =>
    cases l with
    | false => exact rxInv_of_cursor_none (gramOk_memForget cfg) rfl rfl rfl
    | true => exact h
  | wait ms => exact h

end

/-! ### The controller sees the pin levels (20_memory R77) -/

theorem rxEvent_release_levels (cfg : Config) (r : Rx) :
    (rxEvent cfg (.cs true) r).cs = true ∧ (rxEvent cfg (.cs true) r).dc = r.dc := by
  by_cases hh : r.hold = none
  · obtain ⟨_, _, _, _, _, hq⟩ := rxResyncParam_parameter cfg { r with cs := true }
    rw [rxEvent_release hh, hq]
    exact ⟨rfl, rfl⟩
  · obtain ⟨b, hh⟩ := Option.ne_none_iff_exists'.mp hh
    obtain ⟨_, _, _, _, _, hq⟩ := rxResyncParam_parameter cfg (rxLoseCursor { r with cs := true, hold := none })
    rw [rxEvent_release_half hh, hq]
    exact ⟨rfl, rfl⟩

/-- A byte moves neither level the controller sees. -/
theorem rxEvent_tx_levels {cfg : Config} (hv : cfg.Valid) (b : Byte) (r : Rx) :
    (rxEvent cfg (.tx b) r).cs = r.cs ∧ (rxEvent cfg (.tx b) r).dc = r.dc := by
  cases hcs : r.cs with
  | true => rw [rxEvent_tx_released hcs]; exact ⟨hcs, rfl⟩
  | false =>
    cases hdc : r.dc with
    | true =>
      obtain ⟨hcs', hdc', -⟩ := rxData_keeps (b := b) (r := r) hv
      rw [rxEvent_tx_data hcs hdc]
      exact ⟨hcs'.trans hcs, hdc'.trans hdc⟩
    | false =>
      rw [rxEvent_tx_command hcs hdc]
      exact ⟨(rxCommand_cs cfg b r).trans hcs, (rxCommand_dc cfg b r).trans hdc⟩

/-- The controller's levels move as the pins do. -/
theorem rxEvent_drivePins {cfg : Config} (hv : cfg.Valid) (e : Event) {r : Rx} {p : Pins} (hcs : r.cs = p.cs)
    (hdc : r.dc = p.dc) :
    (rxEvent cfg e r).cs = (drivePins e p).cs ∧ (rxEvent cfg e r).dc = (drivePins e p).dc := by
  cases e with
  | dc l => exact ⟨hcs, rfl⟩
  | cs l =>
    cases l with
    | false => exact ⟨rfl, hdc⟩
    | true => exact (rxEvent_release_levels cfg r).imp_right (·.trans hdc)
  | tx b =>
    obtain ⟨hcs', hdc'⟩ := rxEvent_tx_levels hv b r
    rw [drivePins_tx]
    exact ⟨hcs'.trans hcs, hdc'.trans hdc⟩
  | rst l => cases l <;> exact ⟨hcs, hdc⟩
  | wait ms => exact ⟨hcs, hdc⟩

/-! ### Beats, requests and steps -/

theorem receiverInv_iff {s : State} :
    ReceiverInv s ↔ s.rx.cs = s.pins.cs ∧ s.rx.dc = s.pins.dc ∧ RxInv s.cfg s.rx :=
  ⟨fun ⟨hcs, hdc, hg, hc, hb, hh⟩ => ⟨hcs, hdc, hg, hc, hb, hh⟩,
    fun ⟨hcs, hdc, hg, hc, hb, hh⟩ => ⟨hcs, hdc, hg, hc, hb, hh⟩⟩

/-- The invariant speaks of the configuration, the pins and the controller. -/
theorem receiverInv_congr {s t : State} (h : ReceiverInv s) (hcfg : t.cfg = s.cfg := by rfl)
    (hpins : t.pins = s.pins := by rfl) (hrx : t.rx = s.rx := by rfl) : ReceiverInv t := by
  rw [receiverInv_iff] at h ⊢
  rwa [hcfg, hpins, hrx]

theorem receiverInv_runBeat {s : State} (h : ReceiverInv s) (hv : s.cfg.Valid) (b : Beat) :
    ReceiverInv (runBeat b s) := by
  obtain ⟨hcs, hdc, hinv⟩ := receiverInv_iff.mp h
  obtain ⟨hcs', hdc'⟩ := rxEvent_drivePins hv b.ev hcs hdc
  refine receiverInv_iff.mpr ?_
  rw [runBeat_rx, runBeat_pins, (runBeat_frame b s).1]
  exact ⟨hcs', hdc', hinv.rxEvent hv b.ev⟩

theorem receiverInv_runBeats {s : State} (h : ReceiverInv s) (hv : s.cfg.Valid) (bs : List Beat) :
    ReceiverInv (runBeats bs s) := by
  induction bs generalizing s with
  | nil => exact h
  | cons b bs ih => exact ih (receiverInv_runBeat h hv b) (by rwa [(runBeat_frame b s).1])

theorem receiverInv_loadPorts {s : State} (h : ReceiverInv s) (p : Option Ports) : ReceiverInv (loadPorts p s) :=
  receiverInv_congr h (loadPorts_cfg p s) (loadPorts_pins p s) (loadPorts_rx p s)

/-- A request taken whole. -/
theorem receiverInv_perform {j : Job} {s t : State} (h : ReceiverInv s) (hv : s.cfg.Valid)
    (ht : perform j s = .next t) : ReceiverInv t := by
  have hl : ReceiverInv (Machine.loadPorts j.ports s) := receiverInv_loadPorts h j.ports
  obtain ⟨-, rfl⟩ | ⟨-, -, rfl⟩ | ⟨-, -, ⟨c, info, -, rfl⟩ | ⟨v, -, rfl⟩ | ⟨bs, -, rfl⟩⟩ := perform_inv ht
  · exact h
  · exact receiverInv_congr h
  · exact receiverInv_congr hl
  · exact receiverInv_congr hl
  · exact receiverInv_congr (receiverInv_runBeats hl (by rwa [loadPorts_cfg]) bs)

/-- Settles O12: a step emits one event, takes a request whole, or emits nothing, and every event keeps the invariant. -/
theorem receiverInvariantIsKept : Obligations.ReceiverInvariantIsKept := by
  intro s t h hv hstep
  obtain ⟨-, ht⟩ | ⟨-, rfl⟩ | ⟨i, rest, -, hperf⟩ | ⟨i, rest, b, bs, -, -, -, rfl⟩ := step_inv hstep
  · obtain ⟨b, _, _, _, _, rfl⟩ := tick_runs_beat ht
    exact receiverInv_congr (receiverInv_runBeat h hv b)
  · exact receiverInv_congr h
  · have htake : ReceiverInv (takeItem rest s) := receiverInv_congr h
    exact receiverInv_perform htake hv hperf
  · have htake : ReceiverInv (takeItem rest s) := receiverInv_congr h
    exact receiverInv_congr (receiverInv_loadPorts htake _)

end Sys2Proof.Proofs

/-! PROOF. What a command frame and a data frame do to the controller, and what commands and parameters leave alone
(20_memory R78 to R85). -/

namespace Sys2Proof.Proofs

open Sys2Proof.Machine Sys2Proof.Safety

/-! ### A command byte (20_memory R78) -/

/-- Settles O54, by the four cases of a command byte. -/
theorem receiverTakesCommands : Obligations.ReceiverTakesCommands := by
  intro cfg b r hv hcs hdc
  obtain ⟨hcw, hpw, -⟩ := addressBytes_distinct hv
  refine ⟨rxCommand cfg b r, (rxEvent_tx_command hcs hdc).symm, rxCommand_cmd cfg b r, rxCommand_pn cfg b r,
    rxCommand_hold cfg b r, rxCommand_gram cfg b r, ?_, ?_, ?_, ?_, ?_⟩
  · rintro sc ec sp ep rfl hsc hec hsp hep hfits
    rw [rxCommand_home (rxWindowValid_iff.mpr ⟨sc, ec, sp, ep, hsc, hec, hsp, hep, hfits⟩)]
    simp [rxHome, rxTake, hsc, hsp]
  · rintro rfl hnot
    rw [rxCommand_lose (mt rxWindowValid_iff.mp hnot)]
    exact ⟨rfl, rfl⟩
  · rintro (rfl | ha)
    · by_cases hw : rxWindowValid cfg r = true
      · rw [rxCommand_home hw]
        exact ⟨rfl, rfl, rfl, rfl⟩
      · rw [rxCommand_lose hw]
        exact ⟨rfl, rfl, rfl, rfl⟩
    · rw [rxCommand_address (ha.elim (· ▸ hcw) (· ▸ hpw)) ha]
      exact ⟨rfl, rfl, rfl, rfl⟩
  · intro ha
    rw [rxCommand_address (ha.elim (· ▸ hcw) (· ▸ hpw)) ha]
    exact ⟨rfl, rfl⟩
  · intro hw hc hp
    rw [rxCommand_other hw (not_or.mpr ⟨hc, hp⟩)]
    exact ⟨rfl, rfl, rfl, rfl, rfl, rfl⟩

/-! ### Frames (00_scope R13) -/

/-- The controller seeing these levels. -/
def rxLevels (cs dc : Bool) (r : Rx) : Rx := { r with cs := cs, dc := dc }

/-- The data bytes of one frame, in order. -/
def rxBytes (cfg : Config) (bs : List Byte) (r : Rx) : Rx := bs.foldl (fun q b => rxData cfg b q) r

@[simp] theorem rxBytes_nil (cfg : Config) (r : Rx) : rxBytes cfg [] r = r := rfl
@[simp] theorem rxBytes_cons (cfg : Config) (b : Byte) (bs : List Byte) (r : Rx) :
    rxBytes cfg (b :: bs) r = rxBytes cfg bs (rxData cfg b r) := rfl

section
variable {cfg : Config} {r : Rx}

theorem rxRun_tx_data (hv : cfg.Valid) (hcs : r.cs = false) (hdc : r.dc = true) (bs : List Byte) :
    rxRun cfg (bs.map .tx) r = rxBytes cfg bs r := by
  induction bs generalizing r with
  | nil => rfl
  | cons b bs ih =>
    obtain ⟨hcs', hdc', -⟩ := rxData_keeps (b := b) (r := r) hv
    rw [List.map_cons, rxRun_cons, rxEvent_tx_data hcs hdc, ih (hcs'.trans hcs) (hdc'.trans hdc), rxBytes_cons]

/-- A data frame: its bytes in order, then chip-select released. -/
theorem rxRun_dataFrame (hv : cfg.Valid) (bs : List Byte) (r : Rx) :
    rxRun cfg (dataFrame bs) r = rxEvent cfg (.cs true) (rxBytes cfg bs (rxLevels false true r)) := by
  have hbytes : rxRun cfg (bs.map .tx) (rxLevels false true r) = rxBytes cfg bs (rxLevels false true r) :=
    rxRun_tx_data hv rfl rfl bs
  rw [dataFrame, rxRun_append, rxRun_append, ← hbytes]
  rfl

/-- A command frame: the command byte, and nothing is left half done for chip-select to lose. -/
theorem rxRun_commandFrame (cfg : Config) (c : Byte) (r : Rx) :
    rxRun cfg (commandFrame c) r = { rxCommand cfg c (rxLevels false false r) with cs := true } := by
  have hrun : rxRun cfg (commandFrame c) r = rxEvent cfg (.cs true) (rxCommand cfg c (rxLevels false false r)) := rfl
  rw [hrun, rxEvent_release (rxCommand_hold _ _ _)]
  exact rxResyncParam_whole (by simp)

theorem rxRun_commandFrame_cmd (cfg : Config) (c : Byte) (r : Rx) : (rxRun cfg (commandFrame c) r).cmd = some c := by
  simp [rxRun_commandFrame]

theorem rxRun_commandFrame_gram (cfg : Config) (c : Byte) (r : Rx) : (rxRun cfg (commandFrame c) r).gram = r.gram := by
  simp [rxRun_commandFrame, rxLevels]

/-! ### Parameters leave GRAM and the command in effect alone (20_memory R80, R81, R83) -/

theorem rxBytes_cmd (hv : cfg.Valid) (bs : List Byte) : (rxBytes cfg bs r).cmd = r.cmd := by
  induction bs generalizing r with
  | nil => rfl
  | cons b bs ih => exact ih.trans (rxData_keeps hv).2.2

/-- With no memory-write in effect the bytes of a frame leave GRAM alone. -/
theorem rxBytes_gram (hv : cfg.Valid) (hw : r.cmd ≠ some cfg.cmdRamwr) (bs : List Byte) :
    (rxBytes cfg bs r).gram = r.gram := by
  induction bs generalizing r with
  | nil => rfl
  | cons b bs ih =>
    obtain ⟨_, _, _, _, _, _, _, _, _, hq⟩ := rxData_parameter (b := b) hv hw
    rw [rxBytes_cons, hq]
    exact ih hw

theorem rxEvent_release_gram (cfg : Config) (r : Rx) : (rxEvent cfg (.cs true) r).gram = r.gram := by
  simp [rxEvent]

theorem rxEvent_release_cmd (cfg : Config) (r : Rx) : (rxEvent cfg (.cs true) r).cmd = r.cmd := by
  by_cases hh : r.hold = none
  · obtain ⟨_, _, _, _, _, hq⟩ := rxResyncParam_parameter cfg { r with cs := true }
    rw [rxEvent_release hh, hq]
  · obtain ⟨b, hh⟩ := Option.ne_none_iff_exists'.mp hh
    obtain ⟨_, _, _, _, _, hq⟩ := rxResyncParam_parameter cfg (rxLoseCursor { r with cs := true, hold := none })
    rw [rxEvent_release_half hh, hq]
    rfl

theorem rxRun_dataFrame_cmd (hv : cfg.Valid) (bs : List Byte) (r : Rx) :
    (rxRun cfg (dataFrame bs) r).cmd = r.cmd := by
  rw [rxRun_dataFrame hv, rxEvent_release_cmd, rxBytes_cmd hv]
  rfl

/-- With no memory-write in effect a data frame leaves GRAM alone. -/
theorem rxRun_dataFrame_gram (hv : cfg.Valid) (hw : r.cmd ≠ some cfg.cmdRamwr) (bs : List Byte) :
    (rxRun cfg (dataFrame bs) r).gram = r.gram := by
  rw [rxRun_dataFrame hv, rxEvent_release_gram]
  exact rxBytes_gram (r := rxLevels false true r) hv hw bs

/-- A command other than memory-write and its parameters, in any number of frames, leave GRAM alone. -/
theorem rxRun_parameterFrames_gram (hv : cfg.Valid) {c : Byte} (hc : c ≠ cfg.cmdRamwr) (frames : List (List Byte))
    (r : Rx) : (rxRun cfg (commandFrame c ++ frames.flatMap dataFrame) r).gram = r.gram := by
  have hframes : ∀ q : Rx, q.cmd ≠ some cfg.cmdRamwr → (rxRun cfg (frames.flatMap dataFrame) q).gram = q.gram := by
    induction frames with
    | nil => exact fun _ _ => rfl
    | cons bs frames ih =>
      intro q hq
      rw [List.flatMap_cons, rxRun_append, ih _ (by rwa [rxRun_dataFrame_cmd hv]), rxRun_dataFrame_gram hv hq]
  rw [rxRun_append, hframes _ (by rw [rxRun_commandFrame_cmd]; simpa using hc), rxRun_commandFrame_gram]

end

/-! ### The event lists of the instructions that leave pixels alone -/

theorem eventsOf_windowBeats (cfg : Config) (x0 y0 x1 y1 : Int) :
    eventsOf (windowBeats cfg x0 y0 x1 y1) = windowEvents cfg (coord x0) (coord y0) (coord x1) (coord y1) := rfl

/-- SET_WINDOW's events: column range, row range, memory-write (42_controller_protocol R165). -/
theorem windowEvents_eq (cfg : Config) (x0 y0 x1 y1 : Half) :
    windowEvents cfg x0 y0 x1 y1 =
      (commandFrame cfg.cmdCaset ++ [[hi8 x0, lo8 x0], [hi8 x1, lo8 x1]].flatMap dataFrame) ++
      (commandFrame cfg.cmdPaset ++ [[hi8 y0, lo8 y0], [hi8 y1, lo8 y1]].flatMap dataFrame) ++
      commandFrame cfg.cmdRamwr := rfl

theorem rxRun_windowEvents_gram {cfg : Config} (hv : cfg.Valid) (x0 y0 x1 y1 : Half) (r : Rx) :
    (rxRun cfg (windowEvents cfg x0 y0 x1 y1) r).gram = r.gram := by
  obtain ⟨hcw, hpw, -⟩ := addressBytes_distinct hv
  rw [windowEvents_eq, rxRun_append, rxRun_append, rxRun_commandFrame_gram, rxRun_parameterFrames_gram hv hpw,
    rxRun_parameterFrames_gram hv hcw]

/-- The events a verdict runs leave GRAM alone, from any controller. -/
def LeavesGram (cfg : Config) : Verdict → Prop
  | .run bs => ∀ r, (rxRun cfg (eventsOf bs) r).gram = r.gram
  | .fault _ _ => True
  | .respond _ => True

/-- A request whose verdict leaves GRAM alone, taken whole. -/
theorem perform_gram {j : Job} {s t : State} (hj : LeavesGram s.cfg j.verdict) (ht : perform j s = .next t) :
    t.rx.gram = s.rx.gram := by
  obtain he | ⟨bs, hv, he⟩ := perform_emits ht
  · rw [he.received, rxRun_nil]
  · rw [hv] at hj
    rw [he.received]
    exact hj s.rx

theorem leavesGram_command (cfg : Config) (c : Byte) : LeavesGram cfg (.run (frameK c)) :=
  rxRun_commandFrame_gram cfg c

/-- A named command with parameter frames. -/
theorem leavesGram_parameterFrames {cfg : Config} (hv : cfg.Valid) {c : Byte} (hc : c ≠ cfg.cmdRamwr) {bs : List Beat}
    (frames : List (List Byte)) (h : eventsOf bs = commandFrame c ++ frames.flatMap dataFrame) :
    LeavesGram cfg (.run bs) := by
  intro r
  rw [h, rxRun_parameterFrames_gram hv hc]

theorem leavesGram_jobSetWindow {s : State} (hv : s.cfg.Valid) (p : Ports) :
    LeavesGram s.cfg (jobSetWindow p s).verdict := by
  simp only [jobSetWindow, needInit, windowThen, needWindow]
  split
  · split
    · intro r
      rw [List.append_nil, eventsOf_windowBeats, rxRun_windowEvents_gram hv]
    · trivial
  · trivial

/-- Settles O51: each instruction of the list runs commands other than memory-write with their parameters, memory-write alone, or
no byte at all. -/
theorem commandsLeavePixelsAlone : Obligations.CommandsLeavePixelsAlone := by
  intro p first last b s t i hv hi hexec a
  obtain ⟨hcw, hpw, -⟩ := addressBytes_distinct hv
  obtain ⟨hmw, hfw⟩ := parameterBytes_ne_ramwr hv
  rw [exec_eq_perform] at hexec
  suffices hj : LeavesGram s.cfg (jobOf i s).verdict by rw [perform_gram hj hexec]
  simp only [List.mem_cons, List.not_mem_nil, or_false] at hi
  obtain rfl | rfl | rfl | rfl | rfl | rfl | rfl | rfl | rfl | rfl | rfl | rfl := hi
  · exact leavesGram_command _ _
  · exact fun _ => rfl
  · trivial
  · exact leavesGram_jobSetWindow hv p
  · exact leavesGram_command _ _
  · exact leavesGram_command _ _
  · exact leavesGram_parameterFrames hv hcw [[hi8 first, lo8 first], [hi8 last, lo8 last]] rfl
  · exact leavesGram_parameterFrames hv hpw [[hi8 first, lo8 first], [hi8 last, lo8 last]] rfl
  · exact leavesGram_command _ _
  · exact leavesGram_parameterFrames hv hmw [[b]] rfl
  · exact leavesGram_parameterFrames hv hfw [[b]] rfl
  · exact leavesGram_command _ _

end Sys2Proof.Proofs

/-! PROOF. The parameters of an address command across frames, and half values lost when chip-select rises (20_memory R80,
R81, R85). -/

namespace Sys2Proof.Proofs

open Sys2Proof.Machine Sys2Proof.Safety

/-- The four bounds of a window: first and last column, first and last row. -/
abbrev Bounds : Type := Option Half × Option Half × Option Half × Option Half

/-- The bounds the controller holds. -/
def boundsOf (r : Rx) : Bounds := (r.sc, r.ec, r.sp, r.ep)

/-- Bounds after the address command `c` has set its range, or lost it: the other range is kept. -/
def withRange (cfg : Config) (c : Byte) (first last : Option Half) (w : Bounds) : Bounds :=
  if c = cfg.cmdCaset then (first, last, w.2.2) else (w.1, w.2.1, first, last)

theorem boundsOf_rxSetRange (cfg : Config) (c : Byte) (first last : Option Half) (r : Rx) :
    boundsOf (rxSetRange cfg c first last r) = withRange cfg c first last (boundsOf r) := by
  by_cases hc : c = cfg.cmdCaset <;> simp [boundsOf, rxSetRange, withRange, hc]

theorem withRange_caset (cfg : Config) (first last : Option Half) (w : Bounds) :
    withRange cfg cfg.cmdCaset first last w = (first, last, w.2.2) := if_pos rfl

theorem withRange_paset {cfg : Config} (hv : cfg.Valid) (first last : Option Half) (w : Bounds) :
    withRange cfg cfg.cmdPaset first last w = (w.1, w.2.1, first, last) := if_neg (addressBytes_distinct hv).2.2

/-- The address command `c` is in effect with `n` parameter bytes counted, and the window has the bounds `w`. -/
structure Addressing (cfg : Config) (c : Byte) (n : Nat) (w : Bounds) (r : Rx) : Prop where
  command : c = cfg.cmdCaset ∨ c = cfg.cmdPaset
  cmd : r.cmd = some c
  pn : r.pn = n
  hold : r.hold = none
  bounds : boundsOf r = w

section
variable {cfg : Config} {c : Byte} {n : Nat} {w : Bounds} {r : Rx}

theorem Addressing.levels (h : Addressing cfg c n w r) (cs dc : Bool) : Addressing cfg c n w (rxLevels cs dc r) :=
  ⟨h.command, h.cmd, h.pn, h.hold, h.bounds⟩

/-- After its command frame an address command is in effect, the window as before. -/
theorem addressing_commandFrame (hv : cfg.Valid) (ha : c = cfg.cmdCaset ∨ c = cfg.cmdPaset) (r : Rx) :
    Addressing cfg c 0 (boundsOf r) (rxRun cfg (commandFrame c) r) := by
  obtain ⟨hcw, hpw, -⟩ := addressBytes_distinct hv
  rw [rxRun_commandFrame, rxCommand_address (ha.elim (· ▸ hcw) (· ▸ hpw)) ha]
  exact ⟨ha, rfl, rfl, rfl, rfl⟩

/-! ### Parameter bytes -/

/-- A byte that is not the fourth is stored and counted. -/
theorem Addressing.store (h : Addressing cfg c n w r) (hv : cfg.Valid) (hn : n ≠ 3) (b : Byte) :
    rxData cfg b r = { rxSetParam b r with pn := n + 1 } ∧ Addressing cfg c (n + 1) w (rxData cfg b r) := by
  obtain ⟨ha, hc, hpn, hh, hw⟩ := h
  have hdata : rxData cfg b r = { rxSetParam b r with pn := n + 1 } := by
    rw [rxData_address hv hc ha, hpn, if_neg hn]
  obtain ⟨_, _, _, _, hp⟩ := rxSetParam_stores b r
  refine ⟨hdata, ?_⟩
  rw [hdata, hp]
  exact ⟨ha, hc, rfl, hh, hw⟩

/-- The first coordinate is stored. -/
theorem Addressing.firstPair (h : Addressing cfg c 0 w r) (hv : cfg.Valid) (b0 b1 : Byte) :
    Addressing cfg c 2 w (rxBytes cfg [b0, b1] r) ∧ (rxBytes cfg [b0, b1] r).p0 = b0 ∧
      (rxBytes cfg [b0, b1] r).p1 = b1 := by
  obtain ⟨hdata0, h1⟩ := h.store hv (by decide) b0
  obtain ⟨hdata1, h2⟩ := h1.store hv (by decide) b1
  refine ⟨h2, ?_⟩
  rw [rxBytes_cons, rxBytes_cons, rxBytes_nil, hdata1, hdata0]
  simp [rxSetParam, h.pn]

/-- The second coordinate sets the command's range. -/
theorem Addressing.secondPair (h : Addressing cfg c 2 w r) (hv : cfg.Valid) (b2 b3 : Byte) :
    Addressing cfg c 4 (withRange cfg c (some (join16 r.p0 r.p1)) (some (join16 b2 b3)) w) (rxBytes cfg [b2, b3] r) := by
  obtain ⟨hdata2, h3⟩ := h.store hv (by decide) b2
  have hp : rxSetParam b2 r = { r with p2 := b2 } := by rw [rxSetParam, h.pn]
  rw [hdata2, hp] at h3
  rw [rxBytes_cons, rxBytes_cons, rxBytes_nil, hdata2, hp, rxData_address hv h3.cmd h.command, if_pos rfl, ← h.bounds]
  exact ⟨h.command, h.cmd, rfl, h.hold, boundsOf_rxSetRange ..⟩

/-- Bytes after the fourth are only counted. -/
theorem Addressing.furtherBytes (h : Addressing cfg c n w r) (hv : cfg.Valid) (hn : 4 ≤ n) (bs : List Byte) :
    Addressing cfg c (n + bs.length) w (rxBytes cfg bs r) := by
  induction bs generalizing n r with
  | nil => exact h
  | cons b bs ih =>
    rw [List.length_cons, Nat.add_comm bs.length 1, ← Nat.add_assoc]
    exact ih (h.store hv (by omega) b).2 (by omega)

/-! ### Chip-select released after parameter bytes (20_memory R85) -/

/-- Between coordinates nothing is lost. -/
theorem Addressing.release_whole (h : Addressing cfg c n w r) (hn : ¬ (n = 1 ∨ n = 3)) :
    rxEvent cfg (.cs true) r = { r with cs := true } := by
  rw [rxEvent_release h.hold]
  exact rxResyncParam_whole (h.pn.symm ▸ hn)

/-- Inside a coordinate the command's range is lost, and no more parameters are taken. -/
theorem Addressing.release_half (h : Addressing cfg c n w r) (hv : cfg.Valid) (hn : n = 1 ∨ n = 3) :
    Addressing cfg c 4 (withRange cfg c none none w) (rxEvent cfg (.cs true) r) := by
  rw [rxEvent_release h.hold, rxResyncParam_half (r := { r with cs := true }) hv h.cmd h.command (h.pn.symm ▸ hn),
    ← h.bounds]
  exact ⟨h.command, h.cmd, rfl, h.hold, boundsOf_rxSetRange ..⟩

/-! ### Frames of parameter bytes -/

/-- A frame whose bytes end between coordinates: what they leave stays. -/
theorem Addressing.wholeFrame {bs : List Byte} (hv : cfg.Valid)
    (h : Addressing cfg c n w (rxBytes cfg bs (rxLevels false true r))) (hn : ¬ (n = 1 ∨ n = 3)) :
    rxRun cfg (dataFrame bs) r = { rxBytes cfg bs (rxLevels false true r) with cs := true } ∧
      Addressing cfg c n w (rxRun cfg (dataFrame bs) r) := by
  have hrun := (rxRun_dataFrame hv bs r).trans (h.release_whole hn)
  exact ⟨hrun, hrun ▸ ⟨h.command, h.cmd, h.pn, h.hold, h.bounds⟩⟩

/-- The four parameter bytes in one frame. -/
theorem Addressing.oneFrame (h : Addressing cfg c 0 w r) (hv : cfg.Valid) (b0 b1 b2 b3 : Byte) :
    Addressing cfg c 4 (withRange cfg c (some (join16 b0 b1)) (some (join16 b2 b3)) w)
      (rxRun cfg (dataFrame [b0, b1, b2, b3]) r) := by
  obtain ⟨h2, hp0, hp1⟩ := (h.levels false true).firstPair hv b0 b1
  have h4 := h2.secondPair hv b2 b3
  rw [hp0, hp1] at h4
  exact (Addressing.wholeFrame (bs := [b0, b1, b2, b3]) hv h4 (by decide)).2

/-- The four parameter bytes in two frames, a coordinate each. -/
theorem Addressing.twoFrames (h : Addressing cfg c 0 w r) (hv : cfg.Valid) (b0 b1 b2 b3 : Byte) :
    Addressing cfg c 4 (withRange cfg c (some (join16 b0 b1)) (some (join16 b2 b3)) w)
      (rxRun cfg (dataFrame [b0, b1] ++ dataFrame [b2, b3]) r) := by
  obtain ⟨hbytes, hp0, hp1⟩ := (h.levels false true).firstPair hv b0 b1
  obtain ⟨hrun, h2⟩ := hbytes.wholeFrame hv (by decide)
  have h4 := (h2.levels false true).secondPair hv b2 b3
  have hstored : (rxLevels false true (rxRun cfg (dataFrame [b0, b1]) r)).p0 = b0 ∧
      (rxLevels false true (rxRun cfg (dataFrame [b0, b1]) r)).p1 = b1 := by
    rw [hrun]; exact ⟨hp0, hp1⟩
  rw [hstored.1, hstored.2] at h4
  rw [rxRun_append]
  exact (h4.wholeFrame hv (by decide)).2

/-- A frame after the fourth parameter byte is ignored. -/
theorem Addressing.furtherFrame (h : Addressing cfg c n w r) (hv : cfg.Valid) (hn : 4 ≤ n) (bs : List Byte) :
    Addressing cfg c (n + bs.length) w (rxRun cfg (dataFrame bs) r) :=
  (((h.levels false true).furtherBytes hv hn bs).wholeFrame hv (by omega)).2

/-- A frame of one byte where a coordinate begins loses the command's range. -/
theorem Addressing.halfFrame (h : Addressing cfg c n w r) (hv : cfg.Valid) (hn : n = 0 ∨ n = 2) (b : Byte) :
    Addressing cfg c 4 (withRange cfg c none none w) (rxRun cfg (dataFrame [b]) r) := by
  rw [rxRun_dataFrame hv]
  exact ((h.levels false true).store hv (by omega) b).2.release_half hv (by omega)

/-- However framed, the four parameter bytes set the command's range. -/
theorem boundsOf_addressFrames (hv : cfg.Valid) (ha : c = cfg.cmdCaset ∨ c = cfg.cmdPaset) (r : Rx)
    (b0 b1 b2 b3 b4 b5 : Byte) {es : List Event}
    (hes : es ∈ [dataFrame [b0, b1, b2, b3], dataFrame [b0, b1] ++ dataFrame [b2, b3],
        dataFrame [b0, b1, b2, b3] ++ dataFrame [b4, b5]]) :
    boundsOf (rxRun cfg (commandFrame c ++ es) r) =
      withRange cfg c (some (join16 b0 b1)) (some (join16 b2 b3)) (boundsOf r) := by
  have h0 := addressing_commandFrame hv ha r
  simp only [List.mem_cons, List.not_mem_nil, or_false] at hes
  rw [rxRun_append]
  obtain rfl | rfl | rfl := hes
  · exact (h0.oneFrame hv b0 b1 b2 b3).bounds
  · exact (h0.twoFrames hv b0 b1 b2 b3).bounds
  · rw [rxRun_append]
    exact ((h0.oneFrame hv b0 b1 b2 b3).furtherFrame hv (by decide) [b4, b5]).bounds

end

theorem boundsOf_eq {r : Rx} {sc ec sp ep : Option Half} :
    boundsOf r = (sc, ec, sp, ep) ↔ r.sc = sc ∧ r.ec = ec ∧ r.sp = sp ∧ r.ep = ep := by
  simp only [boundsOf, Prod.mk.injEq]

/-- Settles O55, by the bounds after the frames. -/
theorem addressParametersCountAcrossFrames : Obligations.AddressParametersCountAcrossFrames := by
  intro cfg r b0 b1 b2 b3 b4 b5 hv es hes
  have hcolumn := boundsOf_addressFrames hv (.inl rfl) r b0 b1 b2 b3 b4 b5 hes
  have hrow := boundsOf_addressFrames hv (.inr rfl) r b0 b1 b2 b3 b4 b5 hes
  rw [withRange_caset] at hcolumn
  rw [withRange_paset hv] at hrow
  obtain ⟨hsc, hec, hsp, hep⟩ := boundsOf_eq.mp hrow
  exact ⟨boundsOf_eq.mp hcolumn, hsp, hep, hsc, hec⟩

/-! ### Half values (20_memory R85) -/

/-- Half a pixel in a frame of its own loses the cursor. -/
theorem rxRun_halfPixelFrame {cfg : Config} (hv : cfg.Valid) {r : Rx} {col row : Nat} (hc : r.cmd = some cfg.cmdRamwr)
    (hcol : r.col = some col) (hrow : r.row = some row) (hh : r.hold = none) (b : Byte) :
    rxRun cfg (dataFrame [b]) r = rxLoseCursor { r with cs := true, dc := true, hold := none, pn := r.pn + 1 } := by
  have hbyte : rxBytes cfg [b] (rxLevels false true r) =
      { r with cs := false, dc := true, hold := some b, pn := r.pn + 1 } := by
    rw [rxBytes_cons, rxBytes_nil, rxData_ramwr (r := rxLevels false true r) hc,
      rxPixelByte_first (r := rxLevels false true r) hcol hrow hh]
    rfl
  rw [rxRun_dataFrame hv, hbyte, rxEvent_release_half rfl]
  exact rxResyncParam_ramwr hv hc

/-- Settles O56: half a pixel goes with the cursor, half a coordinate with its range. -/
theorem halfValuesResynchronise : Obligations.HalfValuesResynchronise := by
  intro cfg r b b' hv hh
  refine ⟨fun hc hcol hrow => ?_, fun hc hn => ?_, fun hc hn => ?_⟩
  · obtain ⟨col, hcol⟩ := Option.isSome_iff_exists.mp hcol
    obtain ⟨row, hrow⟩ := Option.isSome_iff_exists.mp hrow
    rw [rxRun_halfPixelFrame hv hc hcol hrow hh]
    exact ⟨_, rfl, rfl, rfl, rfl, rfl⟩
  · have hlost := Addressing.halfFrame ⟨.inl rfl, hc, rfl, hh, rfl⟩ hv hn b
    have hrest := hlost.furtherFrame hv (by decide) [b', b']
    rw [withRange_caset] at hlost hrest
    obtain ⟨hsc, hec, hsp, hep⟩ := boundsOf_eq.mp hlost.bounds
    obtain ⟨hsc', hec', -⟩ := boundsOf_eq.mp hrest.bounds
    exact ⟨_, rfl, hsc, hec, hsp, hep, hlost.pn, hsc', hec'⟩
  · have hlost := Addressing.halfFrame ⟨.inr rfl, hc, rfl, hh, rfl⟩ hv hn b
    have hrest := hlost.furtherFrame hv (by decide) [b', b']
    rw [withRange_paset hv] at hlost hrest
    obtain ⟨hsc, hec, hsp, hep⟩ := boundsOf_eq.mp hlost.bounds
    obtain ⟨-, -, hsp', hep'⟩ := boundsOf_eq.mp hrest.bounds
    exact ⟨_, rfl, hsp, hep, hsc, hec, hlost.pn, hsp', hep'⟩

end Sys2Proof.Proofs

/-! PROOF. Where raw pixel data lands: at the cursor, and inside the window (20_memory R82 to R86). -/

namespace Sys2Proof.Proofs

open Sys2Proof.Machine Sys2Proof.Safety

/-! ### Instructions that send one data frame -/

/-- An instruction whose events are one data frame, taken by a block that accepts it. -/
theorem exec_dataFrame {i : Instr} {s : State} {beats : List Beat} (bs : List Byte) (hs : Accepts s)
    (hj : (jobOf i s).verdict = .run beats) (he : eventsOf beats = dataFrame bs) :
    ∃ t, exec i s = .next t ∧ t.rx = rxRun s.cfg (dataFrame bs) s.rx := by
  refine ⟨_, (exec_eq_perform i s).trans (perform_run hs.1 hs.2 hj), ?_⟩
  simp [runBeats_rx, he]

theorem exec_sendData {s : State} (hs : Accepts s) (p : Ports) :
    ∃ t, exec (.sendData p) s = .next t ∧ t.rx = rxRun s.cfg (dataFrame [lo8 p.v]) s.rx :=
  exec_dataFrame [lo8 p.v] hs rfl rfl

theorem exec_sendData16 {s : State} (hs : Accepts s) (p : Ports) :
    ∃ t, exec (.sendData16 p) s = .next t ∧ t.rx = rxRun s.cfg (dataFrame [hi8 p.v, lo8 p.v]) s.rx :=
  exec_dataFrame [hi8 p.v, lo8 p.v] hs rfl rfl

theorem exec_pixel {s : State} (hs : Accepts s) (r : BitVec 5) (g : BitVec 6) (b : BitVec 5) :
    ∃ t, exec (.pixel r g b) s = .next t ∧
      t.rx = rxRun s.cfg (dataFrame [hi8 (packColour r g b), lo8 (packColour r g b)]) s.rx :=
  exec_dataFrame [hi8 (packColour r g b), lo8 (packColour r g b)] hs rfl rfl

/-! ### Raw data at the cursor (20_memory R82) -/

section
variable {cfg : Config} {r : Rx}

theorem rxData_lost (hc : r.cmd = some cfg.cmdRamwr) (hlost : r.col = none ∨ r.row = none) (b : Byte) :
    rxData cfg b r = { r with gram := memForget, pn := r.pn + 1 } := by
  rw [rxData_ramwr hc, rxPixelByte_lost hlost]

/-- With the cursor unknown the first byte of pixel data makes all of GRAM unknown, and it stays so. -/
theorem rxBytes_lost_gram (hc : r.cmd = some cfg.cmdRamwr) (hlost : r.col = none ∨ r.row = none) (b : Byte)
    (bs : List Byte) : (rxBytes cfg (b :: bs) r).gram = memForget := by
  induction bs generalizing b r with
  | nil => rw [rxBytes_cons, rxBytes_nil, rxData_lost hc hlost]
  | cons b' bs ih =>
    rw [rxBytes_cons, rxData_lost hc hlost]
    exact ih (r := { r with gram := memForget, pn := r.pn + 1 }) hc hlost b'

theorem rxRun_dataFrame_lost (hv : cfg.Valid) (hc : r.cmd = some cfg.cmdRamwr) (hlost : r.col = none ∨ r.row = none)
    (b : Byte) (bs : List Byte) : (rxRun cfg (dataFrame (b :: bs)) r).gram = memForget := by
  rw [rxRun_dataFrame hv, rxEvent_release_gram]
  exact rxBytes_lost_gram (r := rxLevels false true r) hc hlost b bs

/-- Two bytes with none held are one pixel at the cursor. -/
theorem rxBytes_pixel {col row : Nat} (hc : r.cmd = some cfg.cmdRamwr) (hcol : r.col = some col)
    (hrow : r.row = some row) (hh : r.hold = none) (hi lo : Byte) :
    rxBytes cfg [hi, lo] r =
      { rxPixel cfg col row hi lo { r with hold := some hi, pn := r.pn + 1 } with pn := r.pn + 2 } := by
  rw [rxBytes_cons, rxBytes_cons, rxBytes_nil, rxData_ramwr hc, rxPixelByte_first hcol hrow hh]
  have hsecond := rxData_ramwr (b := lo) (r := { r with hold := some hi, pn := r.pn + 1 }) hc
  rwa [rxPixelByte_second (r := { r with hold := some hi, pn := r.pn + 1 }) hcol hrow rfl] at hsecond

/-- A pixel in a frame of its own is written at a cursor on the panel. -/
theorem rxRun_pixelFrame_gram (hv : cfg.Valid) {col row : Nat} (hc : r.cmd = some cfg.cmdRamwr)
    (hcol : r.col = some col) (hrow : r.row = some row) (hh : r.hold = none) (ha : gramAddress cfg row col = true)
    (v : Colour) : (rxRun cfg (dataFrame [hi8 v, lo8 v]) r).gram = gramWrite row col v r.gram := by
  rw [rxRun_dataFrame hv, rxEvent_release_gram, rxBytes_pixel (r := rxLevels false true r) hc hcol hrow hh]
  simp [rxPixel, ha, rxLevels]

/-- Any raw data frame of at least one byte: nothing stored without memory-write, nothing known without a cursor. -/
theorem rxRun_dataFrame_noStore (hv : cfg.Valid) (b : Byte) (bs : List Byte) :
    (r.cmd ≠ some cfg.cmdRamwr → ∀ a, memRead a (rxRun cfg (dataFrame (b :: bs)) r).gram = memRead a r.gram) ∧
      (r.cmd = some cfg.cmdRamwr → r.col = none ∨ r.row = none →
        ∀ a, memRead a (rxRun cfg (dataFrame (b :: bs)) r).gram = none) :=
  ⟨fun hw a => by rw [rxRun_dataFrame_gram hv hw], fun hc hlost a => by rw [rxRun_dataFrame_lost hv hc hlost]; rfl⟩

/-- A pixel in a frame of its own reads back at the cursor, and every other byte reads as before. -/
theorem rxRun_pixelFrame_stores (hv : cfg.Valid) {col row : Nat} (hc : r.cmd = some cfg.cmdRamwr)
    (hcol : r.col = some col) (hrow : r.row = some row) (hh : r.hold = none) (ha : gramAddress cfg row col = true)
    (v : Colour) :
    gramRead (rxRun cfg (dataFrame [hi8 v, lo8 v]) r).gram row col = some v ∧
      ∀ a, a ≠ pixelKey row col → a ≠ pixelKey row col + 1 →
        memRead a (rxRun cfg (dataFrame [hi8 v, lo8 v]) r).gram = memRead a r.gram := by
  rw [rxRun_pixelFrame_gram hv hc hcol hrow hh ha]
  exact ⟨gramRead_gramWrite_self row col v r.gram, fun a h h' => memRead_gramWrite_ne h h' v r.gram⟩

end

/-- Settles O52: each of the three instructions sends one data frame. -/
theorem rawDataStoresOnlyAtTheCursor : Obligations.RawDataStoresOnlyAtTheCursor := by
  intro p cr cg cb s hv hs hh
  obtain ⟨t1, h1, hrx1⟩ := exec_sendData hs p
  obtain ⟨t2, h2, hrx2⟩ := exec_sendData16 hs p
  obtain ⟨t3, h3, hrx3⟩ := exec_pixel hs cr cg cb
  refine ⟨fun i hi => ?_, fun row col hc hrow hcol ha => ⟨⟨t1, h1, ?_⟩, ⟨t2, h2, ?_⟩, ⟨t3, h3, ?_⟩⟩⟩
  · simp only [List.mem_cons, List.not_mem_nil, or_false] at hi
    obtain rfl | rfl | rfl := hi
    · exact ⟨t1, h1, hrx1 ▸ rxRun_dataFrame_noStore hv _ _⟩
    · exact ⟨t2, h2, hrx2 ▸ rxRun_dataFrame_noStore hv _ _⟩
    · exact ⟨t3, h3, hrx3 ▸ rxRun_dataFrame_noStore hv _ _⟩
  · rw [hrx1, rxRun_halfPixelFrame hv hc hcol hrow hh]
    exact fun _ => rfl
  · exact hrx2 ▸ rxRun_pixelFrame_stores hv hc hcol hrow hh ha p.v
  · exact hrx3 ▸ rxRun_pixelFrame_stores hv hc hcol hrow hh ha (packColour cr cg cb)

/-! ### Drawing inside a window -/

/-- Memory-write is in effect on a window of the panel, with the cursor at a place in it. -/
structure Drawing (cfg : Config) (sc ec sp ep : Half) (x y : Nat) (r : Rx) : Prop where
  cmd : r.cmd = some cfg.cmdRamwr
  bounds : boundsOf r = (some sc, some ec, some sp, some ep)
  col : r.col = some x
  row : r.row = some y
  inWindow : InWindow sc ec sp ep x y
  width : ec.toNat < cfg.width
  height : ep.toNat < cfg.height

section
variable {cfg : Config} {sc ec sp ep : Half} {col row : Nat} {r : Rx}

theorem Drawing.levels (h : Drawing cfg sc ec sp ep col row r) (cs dc : Bool) :
    Drawing cfg sc ec sp ep col row (rxLevels cs dc r) :=
  ⟨h.cmd, h.bounds, h.col, h.row, h.inWindow, h.width, h.height⟩

theorem Drawing.gramAddress (h : Drawing cfg sc ec sp ep col row r) : gramAddress cfg row col = true :=
  h.inWindow.gramAddress h.width h.height

/-- The first byte of a pixel is held and moves nothing. -/
theorem Drawing.firstByte (h : Drawing cfg sc ec sp ep col row r) (hh : r.hold = none) (b : Byte) :
    Drawing cfg sc ec sp ep col row (rxData cfg b r) ∧ (rxData cfg b r).hold = some b ∧
      (rxData cfg b r).gram = r.gram := by
  rw [rxData_ramwr h.cmd, rxPixelByte_first h.col h.row hh]
  exact ⟨⟨h.cmd, h.bounds, h.col, h.row, h.inWindow, h.width, h.height⟩, rfl, rfl⟩

/-- The second byte writes the pixel at the cursor, which moves to its next place. -/
theorem Drawing.secondByte (h : Drawing cfg sc ec sp ep col row r) {hi : Byte} (hh : r.hold = some hi) (lo : Byte) :
    Drawing cfg sc ec sp ep (nextCol sc ec col) (nextRow ec sp ep col row) (rxData cfg lo r) ∧
      (rxData cfg lo r).hold = none ∧ (rxData cfg lo r).gram = gramWrite row col (join16 hi lo) r.gram := by
  obtain ⟨hsc, hec, hsp, hep⟩ := boundsOf_eq.mp h.bounds
  rw [rxData_ramwr h.cmd, rxPixelByte_second h.col h.row hh, rxPixel_known hsc hec hsp hep h.gramAddress]
  exact ⟨⟨h.cmd, h.bounds, rfl, rfl, h.inWindow.next, h.width, h.height⟩, rfl, rfl⟩

/-- One pixel. -/
theorem Drawing.pixel (h : Drawing cfg sc ec sp ep col row r) (hh : r.hold = none) (v : Colour) :
    Drawing cfg sc ec sp ep (nextCol sc ec col) (nextRow ec sp ep col row) (rxBytes cfg [hi8 v, lo8 v] r) ∧
      (rxBytes cfg [hi8 v, lo8 v] r).hold = none ∧
      (rxBytes cfg [hi8 v, lo8 v] r).gram = gramWrite row col v r.gram := by
  obtain ⟨h1, hh1, hg1⟩ := h.firstByte hh (hi8 v)
  obtain ⟨h2, hh2, hg2⟩ := h1.secondByte hh1 (lo8 v)
  exact ⟨h2, hh2, by rw [rxBytes_cons, rxBytes_cons, rxBytes_nil, hg2, hg1, join16_hi8_lo8]⟩

/-- Chip-select released between pixels. -/
theorem Drawing.release (h : Drawing cfg sc ec sp ep col row r) (hv : cfg.Valid) (hh : r.hold = none) :
    Drawing cfg sc ec sp ep col row (rxEvent cfg (.cs true) r) ∧ (rxEvent cfg (.cs true) r).hold = none := by
  rw [rxEvent_release hh, rxResyncParam_ramwr (r := { r with cs := true }) hv h.cmd]
  exact ⟨⟨h.cmd, h.bounds, h.col, h.row, h.inWindow, h.width, h.height⟩, hh⟩

/-! ### However many bytes, nothing outside the window is stored (20_memory R86) -/

/-- The address is no byte of a pixel of the window. -/
def Outside (sc ec sp ep : Half) (a : Nat) : Prop :=
  ∀ y x, sp.toNat ≤ y → y ≤ ep.toNat → sc.toNat ≤ x → x ≤ ec.toNat → a ≠ pixelKey y x ∧ a ≠ pixelKey y x + 1

theorem Drawing.data_outside (h : Drawing cfg sc ec sp ep col row r) (b : Byte) {a : Nat}
    (ha : Outside sc ec sp ep a) :
    (∃ col' row', Drawing cfg sc ec sp ep col' row' (rxData cfg b r)) ∧
      memRead a (rxData cfg b r).gram = memRead a r.gram := by
  by_cases hh : r.hold = none
  · obtain ⟨hd, -, hg⟩ := h.firstByte hh b
    exact ⟨⟨_, _, hd⟩, by rw [hg]⟩
  · obtain ⟨hi, hh⟩ := Option.ne_none_iff_exists'.mp hh
    obtain ⟨hd, -, hg⟩ := h.secondByte hh b
    obtain ⟨hl, hr, ht, hb⟩ := h.inWindow
    obtain ⟨hne, hne'⟩ := ha row col ht hb hl hr
    exact ⟨⟨_, _, hd⟩, by rw [hg, memRead_gramWrite_ne hne hne']⟩

theorem Drawing.bytes_outside (h : Drawing cfg sc ec sp ep col row r) (bs : List Byte) {a : Nat}
    (ha : Outside sc ec sp ep a) : memRead a (rxBytes cfg bs r).gram = memRead a r.gram := by
  induction bs generalizing col row r with
  | nil => rfl
  | cons b bs ih =>
    obtain ⟨⟨_, _, hd⟩, hg⟩ := h.data_outside b ha
    exact (ih hd).trans hg

/-- The controller's invariant under memory-write with the cursor and the window known. -/
theorem RxInv.drawing (h : RxInv cfg r) (hc : r.cmd = some cfg.cmdRamwr) (hcol : r.col = some col)
    (hrow : r.row = some row) (hb : boundsOf r = (some sc, some ec, some sp, some ep)) :
    Drawing cfg sc ec sp ep col row r := by
  obtain ⟨sc', ec', sp', ep', hsc, hec, hsp, hep, hin, hwd, hht⟩ := h.inWindow hc hcol hrow
  have heq : (some sc', some ec', some sp', some ep') = (some sc, some ec, some sp, some ep) :=
    (boundsOf_eq.mpr ⟨hsc, hec, hsp, hep⟩).symm.trans hb
  simp only [Prod.mk.injEq, Option.some.injEq] at heq
  obtain ⟨rfl, rfl, rfl, rfl⟩ := heq
  exact ⟨hc, hb, hcol, hrow, hin, hwd, hht⟩

end

theorem eventsOf_streamFrame (bs : List Byte) : eventsOf (streamFrame bs) = dataFrame bs := by
  simp [streamFrame, eventsOf_streamBytes, dataFrame]

/-- SEND_STREAM emits nothing or its payload as one data frame (41_bus_transport R148). -/
theorem exec_sendStream_rx {p : Ports} {pay : List Byte} {s t : State} (h : exec (.sendStream p pay) s = .next t) :
    t.rx = s.rx ∨ t.rx = rxRun s.cfg (dataFrame pay) s.rx := by
  obtain he | ⟨bs, hj, he⟩ := perform_emits ((exec_eq_perform _ s).symm.trans h)
  · exact .inl he.received
  · have hbs : bs = streamFrame pay := by
      simp only [jobOf, jobSendStream, needLength] at hj
      split at hj
      · exact (Verdict.run.inj hj).symm
      · cases hj
    rw [hbs, eventsOf_streamFrame] at he
    exact .inr he.received

/-- Settles O53: every pixel of the stream is written at a cursor in the window. -/
theorem rawStreamStaysInTheWindow : Obligations.RawStreamStaysInTheWindow := by
  intro p pay s t col row sc ec sp ep hv hinv _ _ hc hcol hrow hsc hec hsp hep hexec a ha
  obtain ⟨-, -, hrx⟩ := receiverInv_iff.mp hinv
  have hd : Drawing s.cfg sc ec sp ep col row s.rx :=
    hrx.drawing hc hcol hrow (boundsOf_eq.mpr ⟨hsc, hec, hsp, hep⟩)
  obtain ht | ht := exec_sendStream_rx hexec
  · rw [ht]
  · rw [ht, rxRun_dataFrame hv, rxEvent_release_gram]
    exact (hd.levels false true).bytes_outside pay ha

end Sys2Proof.Proofs

/-! PROOF. The landing rule (20_memory R89). -/

namespace Sys2Proof.Proofs

open Sys2Proof.Machine Sys2Proof.Safety

/-! ### The place of pixel `i` of a stream -/

/-- How many columns, or rows, a window has from its first to its last. -/
def span (first last : Half) : Nat := last.toNat - first.toNat + 1

/-- The column of pixel `i`. -/
def streamCol (x0 x1 : Half) (i : Nat) : Nat := x0.toNat + i % span x0 x1

/-- The row of pixel `i`. -/
def streamRow (x0 x1 y0 y1 : Half) (i : Nat) : Nat := y0.toNat + i / span x0 x1 % span y0 y1

/-- One more pixel is one more column, or the first column of one more row. -/
theorem succ_div_mod {w : Nat} (i : Nat) (hw : 0 < w) :
    (i % w + 1 < w ∧ (i + 1) / w = i / w ∧ (i + 1) % w = i % w + 1) ∨
    (i % w + 1 = w ∧ (i + 1) / w = i / w + 1 ∧ (i + 1) % w = 0) := by
  have hi : i % w + w * (i / w) = i := Nat.mod_add_div i w
  have hlt : i % w < w := Nat.mod_lt i hw
  by_cases h : i % w + 1 < w
  · exact .inl ⟨h, (Nat.div_mod_unique hw).mpr ⟨by omega, h⟩⟩
  · refine .inr ⟨by omega, (Nat.div_mod_unique hw).mpr ⟨?_, hw⟩⟩
    rw [Nat.mul_add]
    omega

section
variable {x0 x1 y0 y1 : Half}

theorem span_pos (first last : Half) : 0 < span first last := Nat.succ_pos _

theorem streamCol_le (hx : x0.toNat ≤ x1.toNat) (i : Nat) : streamCol x0 x1 i ≤ x1.toNat := by
  have hlt : i % span x0 x1 < span x0 x1 := Nat.mod_lt i (span_pos x0 x1)
  have hspan : span x0 x1 = x1.toNat - x0.toNat + 1 := rfl
  unfold streamCol
  omega

theorem streamCol_lt (hx : x0.toNat ≤ x1.toNat) (i : Nat) : streamCol x0 x1 i < 65536 :=
  (streamCol_le hx i).trans_lt x1.isLt

/-- Before the last bound of a window: the next place is not yet a wrap. -/
theorem add_mod_span_lt_iff {first last : Half} (h : first.toNat ≤ last.toNat) (k : Nat) :
    first.toNat + k % span first last < last.toNat ↔ k % span first last + 1 < span first last := by
  generalize k % span first last = m
  unfold span
  omega

/-- The cursor's next column is the column of the next pixel. -/
theorem nextCol_streamCol (hx : x0.toNat ≤ x1.toNat) (i : Nat) :
    nextCol x0 x1 (streamCol x0 x1 i) = streamCol x0 x1 (i + 1) := by
  obtain ⟨hlt, -, hm⟩ | ⟨heq, -, hm⟩ := succ_div_mod i (span_pos x0 x1)
  · rw [nextCol, streamCol, if_pos ((add_mod_span_lt_iff hx i).mpr hlt), streamCol, hm, Nat.add_assoc]
  · rw [nextCol, streamCol, if_neg (mt (add_mod_span_lt_iff hx i).mp heq.not_lt), streamCol, hm, Nat.add_zero]

/-- The cursor's next row is the row of the next pixel. -/
theorem nextRow_streamRow (hx : x0.toNat ≤ x1.toNat) (hy : y0.toNat ≤ y1.toNat) (i : Nat) :
    nextRow x1 y0 y1 (streamCol x0 x1 i) (streamRow x0 x1 y0 y1 i) = streamRow x0 x1 y0 y1 (i + 1) := by
  obtain ⟨hlt, hd, -⟩ | ⟨heq, hd, -⟩ := succ_div_mod i (span_pos x0 x1)
  · rw [nextRow, streamCol, if_pos ((add_mod_span_lt_iff hx i).mpr hlt), streamRow, streamRow, hd]
  · rw [nextRow, streamCol, if_neg (mt (add_mod_span_lt_iff hx i).mp heq.not_lt), streamRow, streamRow, hd]
    obtain ⟨hlt, -, hm⟩ | ⟨heq, -, hm⟩ := succ_div_mod (i / span x0 x1) (span_pos y0 y1)
    · rw [if_pos ((add_mod_span_lt_iff hy _).mpr hlt), hm, Nat.add_assoc]
    · rw [if_neg (mt (add_mod_span_lt_iff hy _).mp heq.not_lt), hm, Nat.add_zero]

/-- After the window's area the stream is at its first pixel again. -/
theorem stream_area (x0 x1 y0 y1 : Half) :
    streamCol x0 x1 (span x0 x1 * span y0 y1) = x0.toNat ∧
      streamRow x0 x1 y0 y1 (span x0 x1 * span y0 y1) = y0.toNat := by
  simp [streamCol, streamRow, Nat.mul_div_cancel_left _ (span_pos x0 x1)]

end

/-! ### GRAM after a run of pixels -/

/-- GRAM after the pixels, the first of which is pixel `i` of the stream. -/
def landed (x0 x1 y0 y1 : Half) : Nat → List Colour → Memory → Memory
  | _, [], m => m
  | i, v :: ps, m =>
    landed x0 x1 y0 y1 (i + 1) ps (gramWrite (streamRow x0 x1 y0 y1 i) (streamCol x0 x1 i) v m)

section
variable {x0 x1 y0 y1 : Half}

theorem landed_append (as bs : List Colour) (i : Nat) (m : Memory) :
    landed x0 x1 y0 y1 i (as ++ bs) m = landed x0 x1 y0 y1 (i + as.length) bs (landed x0 x1 y0 y1 i as m) := by
  induction as generalizing i m with
  | nil => rfl
  | cons v as ih => rw [List.cons_append, landed, ih, landed, List.length_cons, Nat.add_right_comm, Nat.add_assoc]

/-- A pixel on which none of the run lands reads as before. -/
theorem gramRead_landed_of_not_hit (hx : x0.toNat ≤ x1.toNat) {row col : Nat} (hcol : col < 65536) (ps : List Colour)
    (i : Nat) (hmiss : ∀ k < ps.length, ¬ (row = streamRow x0 x1 y0 y1 (i + k) ∧ col = streamCol x0 x1 (i + k)))
    (m : Memory) : gramRead (landed x0 x1 y0 y1 i ps m) row col = gramRead m row col := by
  induction ps generalizing i m with
  | nil => rfl
  | cons v ps ih =>
    have hfirst : ¬ (row = streamRow x0 x1 y0 y1 i ∧ col = streamCol x0 x1 i) := hmiss 0 (Nat.succ_pos _)
    rw [landed, ih (i + 1), gramRead_gramWrite_ne (streamCol_lt hx i) hcol hfirst]
    intro k hk
    rw [Nat.add_assoc, Nat.add_comm 1 k]
    exact hmiss (k + 1) (Nat.succ_lt_succ hk)

/-- A pixel of the run stands where it lands unless a later one lands there. -/
theorem gramRead_landed (hx : x0.toNat ≤ x1.toNat) (ps : List Colour) (i k : Nat) (hk : k < ps.length)
    (hlast : ∀ l, k < l → l < ps.length →
      ¬ (streamRow x0 x1 y0 y1 (i + k) = streamRow x0 x1 y0 y1 (i + l) ∧ streamCol x0 x1 (i + k) = streamCol x0 x1 (i + l)))
    (m : Memory) :
    gramRead (landed x0 x1 y0 y1 i ps m) (streamRow x0 x1 y0 y1 (i + k)) (streamCol x0 x1 (i + k)) = ps[k]? := by
  induction ps generalizing i k m with
  | nil => exact absurd hk (Nat.not_lt_zero k)
  | cons v ps ih =>
    have hshift : ∀ l, i + (l + 1) = i + 1 + l := fun l => by omega
    cases k with
    | zero =>
      rw [landed, gramRead_landed_of_not_hit hx (streamCol_lt hx _) ps (i + 1)]
      · rw [Nat.add_zero, gramRead_gramWrite_self, List.getElem?_cons_zero]
      · intro l hl
        rw [← hshift l]
        exact hlast (l + 1) (Nat.succ_pos l) (Nat.succ_lt_succ hl)
    | succ k =>
      rw [landed, hshift k, List.getElem?_cons_succ]
      refine ih (i + 1) k (Nat.lt_of_succ_lt_succ hk) (fun l hkl hl => ?_) _
      rw [← hshift k, ← hshift l]
      exact hlast (l + 1) (Nat.succ_lt_succ hkl) (Nat.succ_lt_succ hl)

end

/-! ### The controller after a run of pixels -/

/-- The controller has taken `i` whole pixels of a stream into the window, none of them half held. -/
structure StreamAt (cfg : Config) (x0 x1 y0 y1 : Half) (i : Nat) (r : Rx) : Prop where
  drawing : Drawing cfg x0 x1 y0 y1 (streamCol x0 x1 i) (streamRow x0 x1 y0 y1 i) r
  hold : r.hold = none

section
variable {cfg : Config} {x0 x1 y0 y1 : Half} {i : Nat} {r : Rx}

theorem StreamAt.ordered (h : StreamAt cfg x0 x1 y0 y1 i r) : x0.toNat ≤ x1.toNat ∧ y0.toNat ≤ y1.toNat := by
  obtain ⟨hl, hr, ht, hb⟩ := h.drawing.inWindow
  exact ⟨hl.trans hr, ht.trans hb⟩

theorem StreamAt.pixel (h : StreamAt cfg x0 x1 y0 y1 i r) (v : Colour) :
    StreamAt cfg x0 x1 y0 y1 (i + 1) (rxBytes cfg [hi8 v, lo8 v] r) ∧
      (rxBytes cfg [hi8 v, lo8 v] r).gram =
        gramWrite (streamRow x0 x1 y0 y1 i) (streamCol x0 x1 i) v r.gram := by
  obtain ⟨hx, hy⟩ := h.ordered
  obtain ⟨hd, hh, hg⟩ := h.drawing.pixel h.hold v
  rw [nextCol_streamCol hx, nextRow_streamRow hx hy] at hd
  exact ⟨⟨hd, hh⟩, hg⟩

theorem StreamAt.pixels (h : StreamAt cfg x0 x1 y0 y1 i r) (ps : List Colour) :
    StreamAt cfg x0 x1 y0 y1 (i + ps.length) (rxBytes cfg (colourBytes ps) r) ∧
      (rxBytes cfg (colourBytes ps) r).gram = landed x0 x1 y0 y1 i ps r.gram := by
  induction ps generalizing i r with
  | nil => exact ⟨h, rfl⟩
  | cons v ps ih =>
    obtain ⟨hv, hg⟩ := h.pixel v
    obtain ⟨hps, hgs⟩ := ih hv
    rw [Nat.add_assoc, Nat.add_comm 1] at hps
    exact ⟨hps, hgs.trans (by rw [hg, landed])⟩

/-- Whole pixels in one data frame. -/
theorem StreamAt.frame (h : StreamAt cfg x0 x1 y0 y1 i r) (hv : cfg.Valid) (ps : List Colour) :
    StreamAt cfg x0 x1 y0 y1 (i + ps.length) (rxRun cfg (dataFrame (colourBytes ps)) r) ∧
      (rxRun cfg (dataFrame (colourBytes ps)) r).gram = landed x0 x1 y0 y1 i ps r.gram := by
  have hlevels : StreamAt cfg x0 x1 y0 y1 i (rxLevels false true r) := ⟨h.drawing.levels false true, h.hold⟩
  obtain ⟨⟨hd, hh⟩, hg⟩ := hlevels.pixels ps
  obtain ⟨hd', hh'⟩ := hd.release hv hh
  rw [rxRun_dataFrame hv]
  exact ⟨⟨hd', hh'⟩, (rxEvent_release_gram cfg _).trans hg⟩

/-- Whole pixels in data frames with no command between. -/
theorem StreamAt.frames (h : StreamAt cfg x0 x1 y0 y1 i r) (hv : cfg.Valid) (frames : List (List Colour)) :
    StreamAt cfg x0 x1 y0 y1 (i + frames.flatten.length)
        (rxRun cfg (frames.flatMap fun f => dataFrame (colourBytes f)) r) ∧
      (rxRun cfg (frames.flatMap fun f => dataFrame (colourBytes f)) r).gram =
        landed x0 x1 y0 y1 i frames.flatten r.gram := by
  induction frames generalizing i r with
  | nil => exact ⟨h, rfl⟩
  | cons f frames ih =>
    obtain ⟨hf, hg⟩ := h.frame hv f
    obtain ⟨hfs, hgs⟩ := ih hf
    rw [List.flatMap_cons, rxRun_append, List.flatten_cons, List.length_append, landed_append, ← hg, ← Nat.add_assoc]
    exact ⟨hfs, hgs⟩

/-- An address command with its two coordinates sets its range. -/
theorem boundsOf_rangeFrames (hv : cfg.Valid) {c : Byte} (ha : c = cfg.cmdCaset ∨ c = cfg.cmdPaset)
    (first last : Half) (r : Rx) :
    boundsOf (rxRun cfg (commandFrame c ++ [[hi8 first, lo8 first], [hi8 last, lo8 last]].flatMap dataFrame) r) =
      withRange cfg c (some first) (some last) (boundsOf r) := by
  have h := ((addressing_commandFrame hv ha r).twoFrames hv (hi8 first) (lo8 first) (hi8 last) (lo8 last)).bounds
  rw [join16_hi8_lo8, join16_hi8_lo8, ← rxRun_append] at h
  rw [← h]
  rfl

/-- Memory-write on a window that fits the panel: the controller stands before the window's first pixel. -/
theorem streamAt_memoryWrite (hfits : WindowFits cfg x0.toNat y0.toNat x1.toNat y1.toNat)
    (hb : boundsOf r = (some x0, some x1, some y0, some y1)) :
    StreamAt cfg x0 x1 y0 y1 0 (rxRun cfg (commandFrame cfg.cmdRamwr) r) := by
  obtain ⟨hsc, hec, hsp, hep⟩ := boundsOf_eq.mp hb
  have hw : rxWindowValid cfg (rxLevels false false r) = true :=
    rxWindowValid_iff.mpr ⟨x0, x1, y0, y1, hsc, hec, hsp, hep, hfits⟩
  have hcol : streamCol x0 x1 0 = x0.toNat := by simp [streamCol]
  have hrow : streamRow x0 x1 y0 y1 0 = y0.toNat := by simp [streamRow]
  rw [rxRun_commandFrame, rxCommand_home hw]
  unfold WindowFits at hfits
  refine ⟨⟨rfl, hb, ?_, ?_, ⟨?_, ?_, ?_, ?_⟩, ?_, ?_⟩, rfl⟩
  · exact hcol ▸ congrArg (Option.map BitVec.toNat) hsc
  · exact hrow ▸ congrArg (Option.map BitVec.toNat) hsp
  all_goals omega

/-- After SET_WINDOW's events the controller stands before the first pixel of the window. -/
theorem streamAt_windowEvents (hv : cfg.Valid) (hfits : WindowFits cfg x0.toNat y0.toNat x1.toNat y1.toNat) (r : Rx) :
    StreamAt cfg x0 x1 y0 y1 0 (rxRun cfg (windowEvents cfg x0 y0 x1 y1) r) := by
  rw [windowEvents_eq, rxRun_append, rxRun_append]
  refine streamAt_memoryWrite hfits ?_
  rw [boundsOf_rangeFrames hv (.inr rfl), boundsOf_rangeFrames hv (.inl rfl), withRange_caset, withRange_paset hv]

end

/-- Settles O50: the window's events put the controller before its first pixel, and each frame of whole pixels moves it on. -/
theorem landingRule : Obligations.LandingRule := by
  intro cfg r x0 y0 x1 y1 frames hv hfits
  obtain ⟨hstream, hgram⟩ := (streamAt_windowEvents hv hfits r).frames hv frames
  obtain ⟨hx, -⟩ := hstream.ordered
  rw [← rxRun_append, Nat.zero_add] at hstream
  rw [← rxRun_append, rxRun_windowEvents_gram hv] at hgram
  refine ⟨_, _, _, _, rfl, rfl, rfl, rfl, fun i hi hlast => ?_, fun row col ha hmiss => ?_, fun harea => ?_⟩
  · have hread := gramRead_landed (y0 := y0) (y1 := y1) hx frames.flatten 0 i hi (fun j hij hj ⟨hrow, hcol⟩ =>
      hlast j hij hj (by
        rw [Nat.zero_add, Nat.zero_add] at hrow hcol
        exact ⟨Nat.add_left_cancel hcol.symm, Nat.add_left_cancel hrow.symm⟩)) r.gram
    rw [← hgram, Nat.zero_add] at hread
    exact hread
  · have hcol : col < 65536 := by
      have := (gramAddress_iff.mp ha).2
      have := hv.1.2
      omega
    rw [hgram]
    refine gramRead_landed_of_not_hit hx hcol frames.flatten 0 (fun k hk => ?_) r.gram
    rw [Nat.zero_add]
    exact hmiss k hk
  · obtain ⟨hcol, hrow⟩ := stream_area x0 x1 y0 y1
    rw [harea] at hstream
    exact ⟨hstream.drawing.col.trans (congrArg some hcol), hstream.drawing.row.trans (congrArg some hrow)⟩

end Sys2Proof.Proofs

/-! PROOF. Encoding and decoding are inverse to each other, on requests and on the wire (30_encoding R100 to R118). -/

namespace Sys2Proof.Proofs

open Sys2Proof.Machine

/-! ### Colours and payload bytes (30_encoding R117, 20_memory R66) -/

@[simp] theorem redOf_packColour (r : BitVec 5) (g : BitVec 6) (b : BitVec 5) : redOf (packColour r g b) = r :=
  (BitVec.extractLsb'_append_eq_of_le (xhi := r ++ g) (xlo := b) (by omega)).trans BitVec.extractLsb'_append_eq_left

@[simp] theorem greenOf_packColour (r : BitVec 5) (g : BitVec 6) (b : BitVec 5) : greenOf (packColour r g b) = g :=
  (BitVec.extractLsb'_append_eq_of_le (xhi := r ++ g) (xlo := b) (by omega)).trans BitVec.extractLsb'_append_eq_right

@[simp] theorem blueOf_packColour (r : BitVec 5) (g : BitVec 6) (b : BitVec 5) : blueOf (packColour r g b) = b :=
  BitVec.extractLsb'_append_eq_right

@[simp] theorem packColour_channels (v : Colour) : packColour (redOf v) (greenOf v) (blueOf v) = v := by
  have hhigh : redOf v ++ greenOf v = v.extractLsb' 5 11 := BitVec.extractLsb'_append_extractLsb'_eq_extractLsb' rfl
  rw [packColour, hhigh]
  exact (BitVec.extractLsb'_append_extractLsb'_eq_extractLsb' rfl).trans BitVec.extractLsb'_eq_self

/-- A byte on the payload read port is read back. -/
@[simp] theorem lo8_zeroExtend (b : Byte) : lo8 (b.zeroExtend 16) = b :=
  (BitVec.extractLsb'_setWidth_of_le (by omega)).trans BitVec.extractLsb'_eq_self

@[simp] theorem map_lo8_map_zeroExtend (bs : List Byte) : (bs.map (BitVec.zeroExtend 16)).map lo8 = bs := by
  rw [List.map_map]
  exact List.map_id'' lo8_zeroExtend bs

/-! ### The formats of the named commands (30_encoding R112) -/

@[simp] theorem decodeW4_w4Params (f : Half → Half → Instr) (first last : Half) :
    decodeW4 f (w4Params first last) = .ok (f first last, []) := by
  simp [decodeW4, w4Params]

/-- Format W4 reads two coordinates, most significant byte first. -/
theorem decodeW4_eq_ok {f : Half → Half → Instr} {bs rest : List Byte} {i : Instr} (h : decodeW4 f bs = .ok (i, rest)) :
    ∃ first last, i = f first last ∧ bs = w4Params first last ++ rest := by
  unfold decodeW4 at h
  split at h
  · next h0 l0 h1 l1 _ =>
    cases h
    exact ⟨join16 h0 l0, join16 h1 l1, rfl, by simp [w4Params]⟩
  · cases h

/-- Format W1 reads one byte. -/
theorem decodeW1_eq_ok {f : Byte → Instr} {bs rest : List Byte} {i : Instr} (h : decodeW1 f bs = .ok (i, rest)) :
    ∃ p, i = f p ∧ bs = p :: rest := by
  unfold decodeW1 at h
  split at h
  · next p _ => cases h; exact ⟨p, rfl, rfl⟩
  · cases h

/-! ### Named commands (30_encoding R115) -/

/-- With distinct command bytes (00_scope R11) each of the seven selects its own format. -/
theorem decodeNamed_commands {cfg : Config} (h : cfg.commands.Nodup) (rest : List Byte) :
    decodeNamed cfg cfg.cmdSlpout rest = .ok (.slpout, rest) ∧
    decodeNamed cfg cfg.cmdDispon rest = .ok (.dispon, rest) ∧
    decodeNamed cfg cfg.cmdCaset rest = decodeW4 .caset rest ∧
    decodeNamed cfg cfg.cmdPaset rest = decodeW4 .paset rest ∧
    decodeNamed cfg cfg.cmdRamwr rest = .ok (.ramwr, rest) ∧
    decodeNamed cfg cfg.cmdMadctl rest = decodeW1 .madctl rest ∧
    decodeNamed cfg cfg.cmdPixfmt rest = decodeW1 .pixfmt rest := by
  -- in this order each byte's clause says that it differs from the bytes compared before it
  have hbefore : [cfg.cmdPixfmt, cfg.cmdMadctl, cfg.cmdRamwr, cfg.cmdPaset, cfg.cmdCaset, cfg.cmdDispon,
      cfg.cmdSlpout].Nodup := List.nodup_reverse.mpr h
  simp only [List.nodup_cons, List.mem_cons, not_or] at hbefore
  simp [decodeNamed, hbefore]

/-- A byte that is none of the seven is no named command. -/
theorem decodeNamed_unknown {cfg : Config} {c : Byte} (h : c ∉ cfg.commands) (rest : List Byte) :
    decodeNamed cfg c rest = .error (.unknownCommand c) := by
  simp only [Config.commands, List.mem_cons, not_or] at h
  obtain ⟨hs, hd, hc, hp, hr, hm, hf, -⟩ := h
  simp [decodeNamed, hs, hd, hc, hp, hr, hm, hf]

/-- A named command read to its last byte is encoded by the same bytes. -/
theorem encode_of_decodeNamed {cfg : Config} {c : Byte} {bs : List Byte} {i : Instr}
    (h : decodeNamed cfg c bs = .ok (i, [])) : encode cfg i = named (c :: bs) := by
  unfold decodeNamed at h
  split_ifs at h with hs hd hc hp hr hm hf
  · cases h; rw [hs]; rfl
  · cases h; rw [hd]; rfl
  · obtain ⟨first, last, rfl, rfl⟩ := decodeW4_eq_ok h; rw [hc]; rfl
  · obtain ⟨first, last, rfl, rfl⟩ := decodeW4_eq_ok h; rw [hp]; rfl
  · cases h; rw [hr]; rfl
  · obtain ⟨p, rfl, rfl⟩ := decodeW1_eq_ok h; rw [hm]; rfl
  · obtain ⟨p, rfl, rfl⟩ := decodeW1_eq_ok h; rw [hf]; rfl

/-! ### Wire words -/

/-- A wire word decodes when an instruction takes all its bytes. -/
theorem decode_wire_eq_ok {cfg : Config} {w : WireWord} {i : Instr} :
    decode cfg (.wire w) = .ok i ↔ decodeWire cfg w = .ok (i, []) := by
  rcases hw : decodeWire cfg w with why | ⟨j, - | ⟨b, bs⟩⟩ <;> simp [decode, hw]

theorem decode_named {cfg : Config} {c : Byte} {bs : List Byte} {i : Instr} (h : decodeNamed cfg c bs = .ok (i, [])) :
    decode cfg (named (c :: bs)) = .ok i :=
  decode_wire_eq_ok.mpr h

/-- A wire word read to its last byte is encoded by the same bytes. -/
theorem encode_of_decodeWire {cfg : Config} {w : WireWord} {i : Instr} (h : decodeWire cfg w = .ok (i, [])) :
    encode cfg i = .wire w := by
  obtain ⟨source, bytes⟩ := w
  cases source with
  | named =>
    cases bytes with
    | nil => cases h
    | cons c bs => exact encode_of_decodeNamed h
  | table | raw =>
    cases bytes with
    | nil => cases h
    | cons c bs => cases h; rfl
  | pixels =>
    rcases bytes with - | ⟨hi, - | ⟨lo, bs⟩⟩
    · cases h
    · cases h
    · cases h; simp [encode]

/-- Settles O2: whatever its source, a word that is read to its last byte is the encoding of what was read. -/
theorem encodeInvertsDecodeOnTheWire : Obligations.EncodeInvertsDecodeOnTheWire :=
  fun _ _ _ h => encode_of_decodeWire (decode_wire_eq_ok.mp h)

/-- Settles O1: a request is read back by its operation number, a named command by its byte, and the other wire words by their source. -/
theorem decodeInvertsEncode : Obligations.DecodeInvertsEncode := by
  intro cfg i h
  cases i with
  | sendCmd p | sendData p | sendData16 p | rstAssert p | rstRelease p | resetSeq p | init p | setWindow p
  | fillScreen p | drawPixel p | fillRect p | drawBitmap p pay | color565 p | reserved14 p | reserved15 p => rfl
  | sendStream p pay =>
    exact congrArg (fun bs => Except.ok (Instr.sendStream p bs)) (map_lo8_map_zeroExtend pay)
  | slpout =>
    obtain ⟨hslpout, -⟩ := decodeNamed_commands h []
    exact decode_named hslpout
  | dispon =>
    obtain ⟨-, hdispon, -⟩ := decodeNamed_commands h []
    exact decode_named hdispon
  | caset first last =>
    obtain ⟨-, -, hcaset, -⟩ := decodeNamed_commands h (w4Params first last)
    exact decode_named (hcaset.trans (decodeW4_w4Params _ _ _))
  | paset first last =>
    obtain ⟨-, -, -, hpaset, -⟩ := decodeNamed_commands h (w4Params first last)
    exact decode_named (hpaset.trans (decodeW4_w4Params _ _ _))
  | ramwr =>
    obtain ⟨-, -, -, -, hramwr, -⟩ := decodeNamed_commands h []
    exact decode_named hramwr
  | madctl param =>
    obtain ⟨-, -, -, -, -, hmadctl, -⟩ := decodeNamed_commands h [param]
    exact decode_named hmadctl
  | pixfmt param =>
    obtain ⟨-, -, -, -, -, -, hpixfmt⟩ := decodeNamed_commands h [param]
    exact decode_named hpixfmt
  | tableEntry cmd params | rawCmd cmd => rfl
  | pixel r g b => simp [encode, decode, decodeWire]

/-! ### Requests (30_encoding R102, R103, R121) -/

theorem decodeRequest_ports? (r : Request) : (decodeRequest r).ports? = some r.ports := by
  unfold decodeRequest
  split <;> rfl

theorem decodeRequest_op? (r : Request) : (decodeRequest r).op? = some r.op := by
  unfold decodeRequest
  split
  case h_16 =>
    have hlt : r.op.toNat < 16 := r.op.isLt
    have hop : r.op.toNat = 15 := by grind
    exact congrArg some (BitVec.eq_of_toNat_eq hop.symm)
  all_goals
    next hop => exact congrArg some (BitVec.eq_of_toNat_eq hop.symm)

theorem decodeRequest_stream {r : Request} (h : r.op = 3) : decodeRequest r = .sendStream r.ports (r.pay.map lo8) := by
  simp [decodeRequest, h]

theorem decodeRequest_bitmap {r : Request} (h : r.op = 12) : decodeRequest r = .drawBitmap r.ports r.pay := by
  simp [decodeRequest, h]

/-- An instruction with an operation number that takes no payload is encoded by that number and its ports. -/
theorem encode_without_payload (cfg : Config) {i : Instr} {op : BitVec 4} {p : Ports} (hop : i.op? = some op)
    (hp : i.ports? = some p) (h3 : op ≠ 3) (h12 : op ≠ 12) : encode cfg i = request op p [] := by
  cases i with
  | sendStream q pay => cases hop; exact absurd rfl h3
  | drawBitmap q pay => cases hop; exact absurd rfl h12
  | sendCmd q | sendData q | sendData16 q | rstAssert q | rstRelease q | resetSeq q | init q | setWindow q | fillScreen q
  | drawPixel q | fillRect q | color565 q | reserved14 q | reserved15 q => cases hop; cases hp; rfl
  | slpout | dispon | caset | paset | ramwr | madctl | pixfmt | tableEntry | rawCmd | pixel => cases hop

/-- Settles O3: the decoded instruction has the request's operation number and ports, which fix all but the payload. -/
theorem requestDecodesByItsOperationNumber : Obligations.RequestDecodesByItsOperationNumber :=
  fun cfg r => ⟨decodeRequest r, rfl, decodeRequest_op? r, decodeRequest_ports? r, decodeRequest_stream,
    decodeRequest_bitmap, encode_without_payload cfg (decodeRequest_op? r) (decodeRequest_ports? r)⟩

/-- Settles O4: each word runs through the decoder. -/
theorem knownWordsDecode : Obligations.KnownWordsDecode :=
  ⟨by decide, by decide, by decide, by decide, rfl, rfl⟩

end Sys2Proof.Proofs

/-! PROOF. What acceptance and a step make of the item first on the input (30_encoding R101, R112, R122, 10_state R36, 00_scope R15). -/

namespace Sys2Proof.Proofs

open Sys2Proof.Machine Sys2Proof.Safety

/-! ### The item first on the input -/

/-- An idle block refuses an item that does not decode (log entry 28). -/
theorem step_undecodable {s : State} {it : Item} {rest : List Item} {why : DecodeError} (hb : s.busy = false)
    (hi : s.input = it :: rest) (hd : decode s.cfg it = .error why) : step s = .refused (.undecodable why) := by
  simp [step, hb, hi, hd]

/-- Settles O5: a byte that is none of the seven does not decode. -/
theorem unknownCommandIsRefused : Obligations.UnknownCommandIsRefused := by
  intro s c ps rest hb hc hi
  refine step_undecodable hb hi ?_
  simp [decode, decodeWire, decodeNamed_unknown hc]

/-- Settles O6, by the step of an idle block that takes requests whole. -/
theorem stepRunsTheDecodedInstruction : Obligations.StepRunsTheDecodedInstruction :=
  fun _ _ _ _ hb hg hi hd => step_whole hb hg hi hd

/-! ### Acceptance beside the big step -/

/-- Acceptance and the big step of one job: both complete it when it emits nothing, and otherwise acceptance fixes the events the big step
appends and emits none of them. -/
theorem accept_beside_perform (j : Job) (s : State) :
    ∃ t es, perform j s = .next t ∧ t.trace = s.trace ++ es ∧
      (es = [] → accept j s = .next t) ∧
      (es ≠ [] → ∃ u, accept j s = .next u ∧ u.busy = true ∧ u.ph = some 0 ∧ eventsOf u.prog = es ∧ u.trace = s.trace ∧
        u.rx = s.rx ∧ u.pins = s.pins ∧ u.regs = t.regs ∧ u.initDone = s.initDone ∧ u.done = false) := by
  by_cases hstarts : Starts j s
  · obtain ⟨hb, hf, b, bs, hv⟩ := hstarts
    obtain ⟨-, hregs, -⟩ := runBeats_frame (b :: bs) (loadPorts j.ports s)
    have htrace := runBeats_trace (b :: bs) (loadPorts j.ports s)
    rw [loadPorts_trace] at htrace
    exact ⟨_, eventsOf (b :: bs), perform_run hb hf hv, htrace, fun hnil => absurd hnil (by simp),
      fun _ => ⟨_, accept_run hb hf hv, rfl, rfl, rfl, loadPorts_trace _ _, loadPorts_rx _ _, loadPorts_pins _ _,
        hregs.symm, loadPorts_initDone _ _, rfl⟩⟩
  · obtain ⟨t, ht, -⟩ := perform_cases j s
    exact ⟨t, [], ht, by simp [perform_trace_eq hstarts ht], fun _ => (accept_eq_perform hstarts).trans ht,
      fun hne => absurd rfl hne⟩

/-- Settles O9: a job with events to emit is accepted with them, and any other as it is taken whole. -/
theorem acceptanceFixesTheEventList : Obligations.AcceptanceFixesTheEventList := by
  intro s it rest i hb hg hi hd
  rw [step_perEvent hb hg hi hd, exec_eq_perform]
  exact accept_beside_perform _ { s with input := rest, done := false }

/-! ### Wire instructions (30_encoding R112, log entry 16) -/

/-- Beats without register transfers leave the working registers alone. -/
theorem runBeats_work {bs : List Beat} (h : xfersOf bs = []) (s : State) : (runBeats bs s).work = s.work := by
  induction bs generalizing s with
  | nil => rfl
  | cons b bs ih =>
    rw [xfersOf_cons, List.append_eq_nil_iff, List.append_eq_nil_iff] at h
    obtain ⟨⟨hpre, hpost⟩, hbs⟩ := h
    rw [runBeats_cons, ih hbs]
    simp [runBeat, hpre, hpost]

/-- Beats without register transfers leave the status alone, but for the pulse of `done`. -/
theorem runBeats_sameStatus {bs : List Beat} (h : xfersOf bs = []) (s : State) :
    SameStatus s { runBeats bs s with done := true } := by
  obtain ⟨hcfg, -, hph, hbusy, hfault, hfinfo, hrsp, hprog, hinput, hgrain, -⟩ := runBeats_frame bs s
  exact ⟨hcfg, by simp [runBeats_initDone, h], hbusy, hfault, hfinfo, hrsp, hph, hprog, hinput, hgrain⟩

/-- An instruction that presents no ports and whose events come with no register transfer. -/
theorem exec_crosses {i : Instr} {s : State} {bs : List Beat} {es : List Event} (hs : Accepts s)
    (hj : jobOf i s = ⟨none, .run bs⟩) (hx : xfersOf bs = []) (he : eventsOf bs = es) :
    ∃ t, exec i s = .next t ∧ Crosses es s t := by
  subst he
  obtain ⟨-, hregs, -⟩ := runBeats_frame bs s
  have hexec : exec i s = .next { runBeats bs s with done := true } := by
    rw [exec_eq_perform, hj]
    exact perform_run hs.1 hs.2 rfl
  exact ⟨_, hexec, runBeats_sameStatus hx s, hregs, runBeats_work hx s, rfl, runBeats_trace bs s, runBeats_rx bs s⟩

theorem eventsOf_beatsTableEntry (c : Byte) (ps : List Byte) :
    eventsOf (beatsTableEntry c ps) = commandFrame c ++ ps.flatMap fun b => dataFrame [b] := by
  have hparams : eventsOf (ps.flatMap frameQ) = ps.flatMap fun b => dataFrame [b] := List.map_flatMap
  rw [beatsTableEntry, eventsOf_append, hparams]
  rfl

/-- Settles O57: each wire instruction's events are its frames, without register transfers. -/
theorem wireInstructionsSendTheirFrames : Obligations.WireInstructionsSendTheirFrames :=
  fun _ hs =>
    ⟨exec_crosses hs rfl (xfersOf_frameK _) rfl,
      exec_crosses hs rfl (xfersOf_frameK _) rfl,
      exec_crosses hs rfl (xfersOf_frameK _) rfl,
      fun _ _ => exec_crosses hs rfl (xfersOf_beatsCaset _ _ _ _) rfl,
      fun _ _ => exec_crosses hs rfl (xfersOf_beatsPaset _ _ _) rfl,
      fun _ => exec_crosses hs rfl (xfersOf_beatsMadctl _ _) rfl,
      fun _ => exec_crosses hs rfl (xfersOf_beatsPixfmt _ _) rfl,
      fun c ps => exec_crosses hs rfl (xfersOf_beatsTableEntry _ _) (eventsOf_beatsTableEntry c ps),
      fun _ => exec_crosses hs rfl (xfersOf_frameK _) rfl,
      fun _ _ _ => exec_crosses hs rfl (xfersOf_frameP _) rfl⟩

end Sys2Proof.Proofs

/-! PROOF. The bus transport operations: what a request that runs its events leaves behind, and what its frames do to the pins
(41_bus_transport R141, R145 to R151). -/

namespace Sys2Proof.Proofs

open Sys2Proof.Machine Sys2Proof.Safety

/-! ### Decoding and refusal -/

/-- An operation that takes no payload decodes alike whatever payload is given (30_encoding R102, R121). -/
theorem hasOp_of_decodeRequest {op : BitVec 4} {mk : Ports → Instr}
    (h : ∀ p pay, decodeRequest ⟨op, p, pay⟩ = mk p) : HasOp op mk := by
  rintro cfg ⟨_, p, pay⟩ rfl
  exact congrArg Except.ok (h p pay)

theorem refusedWhenFaulted (i : Instr) : RefusedWhenFaulted i :=
  fun s hb hf => (exec_eq_perform i s).trans (perform_faulted _ hb hf)

/-! ### A request that runs its events -/

/-- The state after a request with these ports has run these beats. -/
def afterBeats (p : Ports) (bs : List Beat) (s : State) : State :=
  { runBeats bs (loadPorts (some p) s) with done := true }

theorem exec_eq_afterBeats {i : Instr} {p : Ports} {bs : List Beat} {s : State} (hs : Accepts s)
    (hj : jobOf i s = ⟨some p, .run bs⟩) : exec i s = .next (afterBeats p bs s) := by
  rw [exec_eq_perform, hj]
  exact perform_run hs.1 hs.2 rfl

/-- Events whose transfers do not set `INIT_DONE` complete the request with the status unchanged. -/
theorem afterBeats_completes {bs : List Beat} (h : .initDone ∉ xfersOf bs) (p : Ports) (s : State) :
    Completes p s (afterBeats p bs s) := by
  obtain ⟨hcfg, hregs, hph, hbusy, hfault, hfinfo, hrsp, hprog, hinput, hgrain, -⟩ :=
    runBeats_frame bs (loadPorts (some p) s)
  have hinit : (afterBeats p bs s).initDone = s.initDone := by simp [afterBeats, runBeats_initDone, h]
  exact ⟨⟨hcfg, hinit, hbusy, hfault, hfinfo, hrsp, hph, hprog, hinput, hgrain⟩, hregs, rfl⟩

theorem afterBeats_emits (p : Ports) (bs : List Beat) (s : State) : Emits (eventsOf bs) s (afterBeats p bs s) :=
  ⟨runBeats_trace bs _, runBeats_rx bs _⟩

/-! ### The pins and the shifter over a list of events (10_state R27, R35) -/

/-- The pins after a list of events, in order. -/
def pinsRun (es : List Event) (p : Pins) : Pins := es.foldl (fun q e => drivePins e q) p

@[simp] theorem pinsRun_nil (p : Pins) : pinsRun [] p = p := rfl
@[simp] theorem pinsRun_cons (e : Event) (es : List Event) (p : Pins) :
    pinsRun (e :: es) p = pinsRun es (drivePins e p) := rfl
theorem pinsRun_append (as bs : List Event) (p : Pins) : pinsRun (as ++ bs) p = pinsRun bs (pinsRun as p) :=
  List.foldl_append

theorem afterBeats_pins (p : Ports) (bs : List Beat) (s : State) :
    (afterBeats p bs s).pins = pinsRun (eventsOf bs) s.pins :=
  runBeats_pins bs _

/-- The shifter after a list of events, in order. -/
def shifterRun (es : List Event) (sh : Shifter) : Shifter := es.foldl (fun q e => driveShifter e q) sh

theorem runBeats_shifter (bs : List Beat) (s : State) :
    (runBeats bs s).shifter = shifterRun (eventsOf bs) s.shifter := by
  induction bs generalizing s with
  | nil => rfl
  | cons b bs ih =>
    have hb : (runBeat b s).shifter = driveShifter b.ev s.shifter := by simp [runBeat]
    rw [runBeats_cons, ih, hb]
    rfl

/-- A request whose events come with no register transfer. -/
theorem exec_without_transfers {i : Instr} {p : Ports} {bs : List Beat} {s : State} (hs : Accepts s)
    (hj : jobOf i s = ⟨some p, .run bs⟩) (hx : xfersOf bs = []) :
    ∃ t, exec i s = .next t ∧ Completes p s t ∧ Emits (eventsOf bs) s t ∧ t.work = s.work ∧
      t.shifter = shifterRun (eventsOf bs) s.shifter ∧ t.pins = pinsRun (eventsOf bs) s.pins :=
  ⟨_, exec_eq_afterBeats hs hj, afterBeats_completes (by simp [hx]) p s, afterBeats_emits p bs s, runBeats_work hx _,
    runBeats_shifter bs _, afterBeats_pins p bs s⟩

/-- Bytes rest the clock low and leave the data pin at the last bit of the last byte. -/
theorem pinsRun_tx (bs : List Byte) (b : Byte) (p : Pins) :
    pinsRun ((bs ++ [b]).map .tx) p = { p with sck := false, mosi := b.getLsbD 0 } := by
  induction bs generalizing p with
  | nil => simp
  | cons c bs ih => rw [List.cons_append, List.map_cons, pinsRun_cons, ih, drivePins_tx]

/-- A frame of at least one byte (00_scope R13). -/
theorem pinsRun_frame (dc : Bool) (bs : List Byte) (b : Byte) (p : Pins) :
    pinsRun (.dc dc :: .cs false :: ((bs ++ [b]).map .tx ++ [.cs true])) p = pinsAfter p dc b := by
  rw [pinsRun_cons, pinsRun_cons, pinsRun_append, pinsRun_tx]
  rfl

/-- Settles O31: the pulses of the shifter, most significant bit first. -/
theorem bytesShiftOutMostSignificantBitFirst : Obligations.BytesShiftOutMostSignificantBitFirst := by
  refine fun b p => ⟨?_, drivePins_tx b p⟩
  rw [shiftOut_eq]
  rfl

/-! ### Requests of one short frame (41_bus_transport R145 to R147) -/

/-- A request whose events are one frame of at least one byte, without register transfers. -/
theorem exec_frame {i : Instr} {p : Ports} {s : State} (dc : Bool) (bs : List Byte) (b : Byte) (hs : Accepts s)
    (hj : jobOf i s = ⟨some p, .run (frame dc (bs ++ [b]))⟩) :
    ∃ t, exec i s = .next t ∧ Completes p s t ∧ Emits (eventsOf (frame dc (bs ++ [b]))) s t ∧ t.work = s.work ∧
      t.pins = pinsAfter s.pins dc b := by
  obtain ⟨t, ht, hcomplete, hemits, hwork, -, hpins⟩ := exec_without_transfers hs hj (xfersOf_frame _ _)
  rw [frame, eventsOf_frameWith, pinsRun_frame] at hpins
  exact ⟨t, ht, hcomplete, hemits, hwork, hpins⟩

/-- Settles O25: one frame under level 0, whose byte the controller takes as a command. -/
theorem sendCmdSendsOneCommandFrame : Obligations.SendCmdSendsOneCommandFrame := by
  refine ⟨hasOp_of_decodeRequest fun _ _ => rfl, fun p => refusedWhenFaulted _, fun p s hs => ?_⟩
  obtain ⟨t, ht, hcomplete, hemits, hwork, hpins⟩ := exec_frame (i := .sendCmd p) false [] (lo8 p.v) hs rfl
  have hrx : t.rx = rxRun s.cfg (commandFrame (lo8 p.v)) s.rx := hemits.received
  refine ⟨t, ht, hcomplete, hemits, hwork, hpins, ?_, fun a => ?_⟩
  · rw [hrx, rxRun_commandFrame_cmd]
    rfl
  · rw [hrx, rxRun_commandFrame_gram]

/-- Settles O26: one frame under level 1, half a pixel under memory-write. -/
theorem sendDataSendsOneByte : Obligations.SendDataSendsOneByte := by
  refine ⟨hasOp_of_decodeRequest fun _ _ => rfl, fun p => refusedWhenFaulted _, fun p s hs => ?_⟩
  obtain ⟨t, ht, hcomplete, hemits, hwork, hpins⟩ := exec_frame (i := .sendData p) true [] (lo8 p.v) hs rfl
  have hrx : t.rx = rxRun s.cfg (dataFrame [lo8 p.v]) s.rx := hemits.received
  refine ⟨t, ht, hcomplete, hemits, hwork, hpins, fun hv hc hh hcol hrow => ?_⟩
  obtain ⟨col, hcol⟩ := Option.isSome_iff_exists.mp hcol
  obtain ⟨row, hrow⟩ := Option.isSome_iff_exists.mp hrow
  rw [hrx, rxRun_halfPixelFrame hv hc hcol hrow hh]
  exact ⟨rfl, rfl, rfl, rfl⟩

/-- Settles O27: one frame under level 1 of both bytes. -/
theorem sendData16SendsTwoBytesInOneFrame : Obligations.SendData16SendsTwoBytesInOneFrame :=
  ⟨hasOp_of_decodeRequest fun _ _ => rfl, fun _ => refusedWhenFaulted _,
    fun p _ hs => exec_frame (i := .sendData16 p) true [hi8 p.v] (lo8 p.v) hs rfl⟩

/-! ### SEND_STREAM (41_bus_transport R148, 60_exceptions R235) -/

/-- Each byte of a stream counts `CNT` down and `PTR` up by one. -/
theorem runBeats_streamBytes_work (bs : List Byte) (i : Nat) {s : State} (hcnt : s.work.cnt = BitVec.ofNat 32 bs.length)
    (hptr : s.work.ptr = BitVec.ofNat 32 i) :
    (runBeats (streamBytes i bs) s).work = { s.work with cnt := 0, ptr := BitVec.ofNat 32 (i + bs.length) } := by
  induction bs generalizing i s with
  | nil =>
    change s.work = { s.work with cnt := BitVec.ofNat 32 ([] : List Byte).length, ptr := BitVec.ofNat 32 i }
    rw [← hcnt, ← hptr]
  | cons b bs ih =>
    rw [streamBytes, runBeats_cons, ih (i + 1) rfl rfl, List.length_cons, Nat.add_right_comm, ← Nat.add_assoc]
    rfl

/-- After the frame of a stream `CNT` is at 0 and `PTR` at the number of bytes. -/
theorem runBeats_streamFrame_work (bs : List Byte) (s : State) :
    (runBeats (streamFrame bs) s).work = { s.work with cnt := 0, ptr := BitVec.ofNat 32 bs.length } := by
  rw [streamFrame, runBeats_cons, runBeats_cons, runBeats_append, runBeats_work rfl,
    runBeats_streamBytes_work bs 0 rfl rfl, Nat.zero_add]
  rfl

/-- A stream asks for no transfer that only INIT can ask for (10_state R37). -/
theorem initDone_notMem_xfersOf_streamFrame (bs : List Byte) : .initDone ∉ xfersOf (streamFrame bs) := by
  intro hmem
  obtain ⟨p, hp⟩ : ∃ p, Instr.sendStream Ports.zero bs = .init p := beatsOk_streamFrame (chunk := 0) bs _ hmem
  cases hp

theorem pinsRun_dataFrame_nil (p : Pins) : pinsRun (dataFrame []) p = { p with cs := true, dc := true } := rfl

theorem pinsRun_dataFrame {bs : List Byte} {b : Byte} (h : bs.getLast? = some b) (p : Pins) :
    pinsRun (dataFrame bs) p = pinsAfter p true b := by
  obtain ⟨init, rfl⟩ := List.getLast?_eq_some_iff.mp h
  exact pinsRun_frame true init b p

theorem jobOf_sendStream_of_length {p : Ports} {pay : List Byte} (h : pay.length = p.n.toNat) (s : State) :
    jobOf (.sendStream p pay) s = ⟨some p, .run (streamFrame pay)⟩ := by
  simp [jobOf, jobSendStream, needLength, h]

theorem jobOf_sendStream_of_length_ne {p : Ports} {pay : List Byte} (h : pay.length ≠ p.n.toNat) (s : State) :
    jobOf (.sendStream p pay) s = ⟨some p, .fault .length (BitVec.ofNat 32 pay.length)⟩ := by
  simp [jobOf, jobSendStream, needLength, lengthInfo, h]

/-- A request whose check fails raises its fault (60_exceptions R236). -/
theorem exec_raises {i : Instr} {p : Ports} {c : FaultCode} {info : Word} {s : State} (hs : Accepts s)
    (hj : jobOf i s = ⟨some p, .fault c info⟩) : ∃ t, exec i s = .next t ∧ Raises (faultCode c) info p s t := by
  refine ⟨_, ?_, rfl⟩
  rw [exec_eq_perform, hj]
  exact perform_fault hs.1 hs.2 rfl

/-- Settles O28, by the length check: the counters follow the bytes of the one frame, or `F_LENGTH` is raised. -/
theorem sendStreamSendsOneFrame : Obligations.SendStreamSendsOneFrame := by
  refine fun p pay s hs => ⟨fun hlen => ?_, fun hne => exec_raises hs (jobOf_sendStream_of_length_ne hne s)⟩
  have hemits := afterBeats_emits p (streamFrame pay) s
  have hpins := afterBeats_pins p (streamFrame pay) s
  rw [eventsOf_streamFrame] at hemits hpins
  have hptr : BitVec.ofNat 32 pay.length = p.n := by rw [hlen, BitVec.ofNat_toNat, BitVec.setWidth_eq]
  have hwork : (afterBeats p (streamFrame pay) s).work = { s.work with cnt := 0, ptr := p.n } := by
    rw [← hptr]
    exact runBeats_streamFrame_work pay _
  refine ⟨_, exec_eq_afterBeats hs (jobOf_sendStream_of_length hlen s),
    afterBeats_completes (initDone_notMem_xfersOf_streamFrame pay) p s, hemits, hwork, ?_,
    fun b hb => hpins.trans (pinsRun_dataFrame hb _)⟩
  rintro rfl
  exact hpins.trans (pinsRun_dataFrame_nil _)

/-! ### The reset line (41_bus_transport R149 to R151, 20_memory R76) -/

theorem forgotten_rxForget (r : Rx) : Forgotten (rxForget r) :=
  ⟨rfl, rfl, rfl, ⟨rfl, rfl, rfl, rfl⟩, ⟨rfl, rfl⟩, fun _ => rfl⟩

/-- Settles O29: each of the two requests has one event, which moves the reset pin alone. -/
theorem resetLineIsDriven : Obligations.ResetLineIsDriven := by
  refine ⟨hasOp_of_decodeRequest fun _ _ => rfl, hasOp_of_decodeRequest fun _ _ => rfl, fun p s hs => ⟨?_, ?_⟩⟩
  · obtain ⟨t, ht, hcomplete, hemits, hwork, hshifter, hpins⟩ :=
      exec_without_transfers (i := .rstAssert p) (bs := [bare (.rst false)]) hs rfl rfl
    exact ⟨t, ht, hcomplete, hemits, hwork, hshifter, hpins, hemits.received ▸ forgotten_rxForget s.rx⟩
  · obtain ⟨t, ht, hcomplete, hemits, hwork, hshifter, hpins⟩ :=
      exec_without_transfers (i := .rstRelease p) (bs := [bare (.rst true)]) hs rfl rfl
    exact ⟨t, ht, hcomplete, hemits, hwork, hshifter, hpins, hemits.received⟩

/-- Settles O30: the six events move the reset pin alone, and the low level makes the controller forget. -/
theorem resetSeqHoldsTheThreeDelays : Obligations.ResetSeqHoldsTheThreeDelays := by
  refine ⟨hasOp_of_decodeRequest fun _ _ => rfl, fun p s hs => ?_⟩
  obtain ⟨t, ht, hcomplete, hemits, hwork, hshifter, hpins⟩ :=
    exec_without_transfers (i := .resetSeq p) hs rfl xfersOf_resetBeats
  exact ⟨t, ht, hcomplete, hemits, hwork, hshifter, hpins, hemits.received ▸ forgotten_rxForget s.rx⟩

end Sys2Proof.Proofs

/-! PROOF. What the controller protocol operations share: the mode and window checks, the register transfers of a list of beats, and
the pins after the window's events (30_encoding R104, 42_controller_protocol R165, R166, 60_exceptions R232, R234, R240). -/

namespace Sys2Proof.Proofs

open Sys2Proof.Machine Sys2Proof.Safety

/-! ### The mode check and the window check -/

theorem needInit_ready {s : State} (h : s.initDone = true) (op : BitVec 4) (v : Verdict) : needInit op s v = v :=
  if_pos h

theorem needInit_uninit {s : State} (h : s.initDone = false) (op : BitVec 4) (v : Verdict) :
    needInit op s v = .fault .uninit (opInfo op) := by
  simp [needInit, h]

theorem windowOK_iff {cfg : Config} {x0 y0 x1 y1 : Int} :
    windowOK cfg x0 y0 x1 y1 = true ↔ WindowFits cfg x0 y0 x1 y1 := by
  simp [windowOK, WindowFits, and_assoc]

theorem windowThen_fits {cfg : Config} {x0 y0 x1 y1 : Int} (h : WindowFits cfg x0 y0 x1 y1) (rest : List Beat) :
    windowThen cfg x0 y0 x1 y1 rest = .run (windowBeats cfg x0 y0 x1 y1 ++ rest) :=
  if_pos (windowOK_iff.mpr h)

theorem windowThen_not_fits {cfg : Config} {x0 y0 x1 y1 : Int} (h : ¬ WindowFits cfg x0 y0 x1 y1) (rest : List Beat) :
    windowThen cfg x0 y0 x1 y1 rest = .fault .window (windowMask cfg x0 y0 x1 y1) :=
  if_neg (mt windowOK_iff.mp h)

theorem getLsbD_maskBit (b : Prop) [Decidable b] {i : Nat} (hi : i < 32) (j : Nat) :
    (maskBit b i).getLsbD j = (decide b && decide (i = j)) := by
  unfold maskBit
  split
  · next hb => simp [hb, hi]
  · next hb => simp [hb]

/-- Bit `j` of the mask says which bound is broken. -/
theorem getLsbD_windowMask (cfg : Config) (x0 y0 x1 y1 : Int) (j : Nat) :
    (windowMask cfg x0 y0 x1 y1).getLsbD j =
      (decide (x0 > x1) && decide (0 = j) || decide (x1 > (cfg.width : Int) - 1) && decide (1 = j) ||
        decide (y0 > y1) && decide (2 = j) || decide (y1 > (cfg.height : Int) - 1) && decide (3 = j) ||
        decide (x0 < 0) && decide (4 = j) || decide (y0 < 0) && decide (5 = j)) := by
  simp [windowMask, getLsbD_maskBit]

/-- A window that does not fit breaks a bound, and the mask says which. -/
theorem windowInfo_windowMask {cfg : Config} {x0 y0 x1 y1 : Int} (h : ¬ WindowFits cfg x0 y0 x1 y1) :
    WindowInfo (windowMask cfg x0 y0 x1 y1) cfg x0 y0 x1 y1 := by
  have hbit := getLsbD_windowMask cfg x0 y0 x1 y1
  refine ⟨(hbit 0).trans (by simp), (hbit 1).trans (by simp), (hbit 2).trans (by simp), (hbit 3).trans (by simp),
    (hbit 4).trans (by simp), (hbit 5).trans (by simp), fun i hi => (hbit i).trans ?_, fun hzero => h ?_⟩
  · have hne : ∀ k < 6, ¬ k = i := by omega
    simp [hne]
  · simp only [hzero] at hbit
    have hx : ¬ x0 > x1 ∧ ¬ x1 > (cfg.width : Int) - 1 ∧ ¬ x0 < 0 :=
      ⟨by simpa using hbit 0, by simpa using hbit 1, by simpa using hbit 4⟩
    have hy : ¬ y0 > y1 ∧ ¬ y1 > (cfg.height : Int) - 1 ∧ ¬ y0 < 0 :=
      ⟨by simpa using hbit 2, by simpa using hbit 3, by simpa using hbit 5⟩
    unfold WindowFits
    omega

/-- An unsigned coordinate crosses the wire as it is (20_memory R61). -/
@[simp] theorem coord_unsigned16 (v : Half) : coord (unsigned16 v) = v := by
  simp [coord, unsigned16]

/-! ### The register transfers of a list of beats (10_state R33, R34) -/

theorem applyXfers_append (xs ys : List Xfer) (s : State) :
    applyXfers (xs ++ ys) s = applyXfers ys (applyXfers xs s) :=
  List.foldl_append

/-- A transfer's effect on the working registers depends on them and the configuration alone. -/
theorem applyXfers_work_congr {s t : State} (hcfg : s.cfg = t.cfg) (hwork : s.work = t.work) (xs : List Xfer) :
    (applyXfers xs s).work = (applyXfers xs t).work := by
  induction xs generalizing s t with
  | nil => exact hwork
  | cons x xs ih =>
    refine ih (by simp [hcfg]) ?_
    cases x <;> simp [hcfg, hwork]

/-- Events move no working register: those after a list of beats are what its transfers make of them. -/
theorem runBeats_work_eq (bs : List Beat) (s : State) : (runBeats bs s).work = (applyXfers (xfersOf bs) s).work := by
  induction bs generalizing s with
  | nil => rfl
  | cons b bs ih =>
    rw [runBeats_cons, ih, xfersOf_cons, applyXfers_append]
    refine applyXfers_work_congr (by simp [runBeat]) ?_ _
    rw [applyXfers_append]
    exact applyXfers_work_congr (by simp) (by simp) _

theorem afterBeats_work (p : Ports) (bs : List Beat) (s : State) :
    (afterBeats p bs s).work = (applyXfers (xfersOf bs) s).work :=
  (runBeats_work_eq bs _).trans (applyXfers_work_congr (by simp) (by simp) _)

/-! ### The pins (10_state R21 to R27) -/

theorem pinsRun_commandFrame (c : Byte) (p : Pins) : pinsRun (commandFrame c) p = pinsAfter p false c :=
  pinsRun_frame false [] c p

/-- Every frame of at least one byte drives all pins but `RST` anew. -/
theorem pinsAfter_pinsAfter (p : Pins) (d d' : Bool) (b b' : Byte) :
    pinsAfter (pinsAfter p d b) d' b' = pinsAfter p d' b' := rfl

theorem pinsAfter_of_rst {q : Pins} {l : Bool} (h : q.rst = l) (p : Pins) (d : Bool) (b : Byte) :
    pinsAfter q d b = { pinsAfter p d b with rst := l } :=
  h ▸ rfl

/-- The window's events end with the memory-write frame. -/
theorem pinsRun_windowEvents (cfg : Config) (x0 y0 x1 y1 : Half) (p : Pins) :
    pinsRun (windowEvents cfg x0 y0 x1 y1) p = pinsAfter p false cfg.cmdRamwr := by
  have hpair : ∀ (v : Half) (q : Pins), pinsRun (dataFrame [hi8 v, lo8 v]) q = pinsAfter q true (lo8 v) :=
    fun _ _ => pinsRun_dataFrame rfl _
  simp only [windowEvents_eq, pinsRun_append, List.flatMap_cons, List.flatMap_nil, List.append_nil,
    pinsRun_commandFrame, hpair, pinsAfter_pinsAfter]

/-- Events without a drive of the reset pin leave it alone. -/
theorem pinsRun_rst {es : List Event} (h : ∀ l, .rst l ∉ es) (p : Pins) : (pinsRun es p).rst = p.rst := by
  induction es generalizing p with
  | nil => rfl
  | cons e es ih =>
    have hrest : ∀ l, .rst l ∉ es := fun l hl => h l (List.mem_cons_of_mem e hl)
    rw [pinsRun_cons, ih hrest]
    cases e with
    | tx b => rw [drivePins_tx]
    | rst l => exact absurd List.mem_cons_self (h l)
    | dc l | cs l | wait ms => rfl

end Sys2Proof.Proofs

/-! PROOF. INIT and SET_WINDOW: what they send, what they leave behind, and the window the controller then has
(42_controller_protocol R161, R165, R167). -/

namespace Sys2Proof.Proofs

open Sys2Proof.Machine Sys2Proof.Safety

/-! ### INIT (42_controller_protocol R161) -/

theorem eventsOf_initBeats (cfg : Config) : eventsOf (initBeats cfg) = initEvents cfg := by
  have htable : eventsOf (cfg.initTable.flatMap fun e => beatsTableEntry e.cmd e.params) =
      cfg.initTable.flatMap fun e => commandFrame e.cmd ++ e.params.flatMap fun b => dataFrame [b] :=
    List.map_flatMap.trans (congrArg cfg.initTable.flatMap (funext fun e => eventsOf_beatsTableEntry e.cmd e.params))
  simp only [initBeats, eventsOf_append, htable]
  rfl

/-- The reset sequence leaves the reset pin high, and the frames after it leave it alone. -/
theorem pinsRun_initEvents (cfg : Config) (p : Pins) :
    pinsRun (initEvents cfg) p = { pinsAfter p false cfg.cmdDispon with rst := true } := by
  rw [initEvents, pinsRun_append, pinsRun_commandFrame]
  refine pinsAfter_of_rst ?_ p false cfg.cmdDispon
  simp only [List.append_assoc]
  rw [pinsRun_append, pinsRun_rst (by simp [commandFrame, dataFrame])]
  rfl

/-- A request's events complete it, the status unchanged but for `INIT_DONE`. -/
theorem afterBeats_completes_initDone (p : Ports) (bs : List Beat) (s : State) :
    Completes p { s with initDone := (afterBeats p bs s).initDone } (afterBeats p bs s) := by
  obtain ⟨hcfg, hregs, hph, hbusy, hfault, hfinfo, hrsp, hprog, hinput, hgrain, -⟩ :=
    runBeats_frame bs (loadPorts (some p) s)
  exact ⟨⟨hcfg, rfl, hbusy, hfault, hfinfo, hrsp, hph, hprog, hinput, hgrain⟩, hregs, rfl⟩

theorem jobOf_init_uninit {s : State} (h : s.initDone = false) (p : Ports) :
    jobOf (.init p) s = ⟨some p, .run (initBeats s.cfg)⟩ := by
  simp [jobOf, jobInit, h]

theorem jobOf_init_ready {s : State} (h : s.initDone = true) (p : Ports) :
    jobOf (.init p) s = ⟨some p, .fault .reinit 0⟩ := by
  simp [jobOf, jobInit, h]

/-- Settles O32: INIT's one register transfer is `INIT_DONE <- 1`. -/
theorem initSendsThePowerUpSequence : Obligations.InitSendsThePowerUpSequence := by
  refine ⟨hasOp_of_decodeRequest fun _ _ => rfl, fun p s => ⟨fun ⟨hs, hinit⟩ => ?_, fun ⟨hs, hinit⟩ =>
    exec_raises hs (jobOf_init_ready hinit p)⟩⟩
  have hset : (afterBeats p (initBeats s.cfg) s).initDone = true := by simp [afterBeats, runBeats_initDone]
  have hcomplete := afterBeats_completes_initDone p (initBeats s.cfg) s
  have hemits := afterBeats_emits p (initBeats s.cfg) s
  have hpins := afterBeats_pins p (initBeats s.cfg) s
  have hwork := afterBeats_work p (initBeats s.cfg) s
  rw [hset] at hcomplete
  rw [eventsOf_initBeats] at hemits hpins
  rw [xfersOf_initBeats] at hwork
  exact ⟨_, exec_eq_afterBeats hs (jobOf_init_uninit hinit p), hcomplete, hemits, hset, hwork,
    hpins.trans (pinsRun_initEvents s.cfg s.pins)⟩

/-! ### SET_WINDOW (42_controller_protocol R165) -/

section
variable {p : Ports} {s : State}

theorem jobOf_setWindow_fits (h : s.initDone = true)
    (hfits : WindowFits s.cfg (unsigned16 p.a) (unsigned16 p.b) (unsigned16 p.c) (unsigned16 p.d)) :
    jobOf (.setWindow p) s =
      ⟨some p, .run (windowBeats s.cfg (unsigned16 p.a) (unsigned16 p.b) (unsigned16 p.c) (unsigned16 p.d))⟩ := by
  rw [jobOf, jobSetWindow, needInit_ready h, windowThen_fits hfits, List.append_nil]

theorem jobOf_setWindow_not_fits (h : s.initDone = true)
    (hfits : ¬ WindowFits s.cfg (unsigned16 p.a) (unsigned16 p.b) (unsigned16 p.c) (unsigned16 p.d)) :
    jobOf (.setWindow p) s = ⟨some p, .fault .window
      (windowMask s.cfg (unsigned16 p.a) (unsigned16 p.b) (unsigned16 p.c) (unsigned16 p.d))⟩ := by
  rw [jobOf, jobSetWindow, needInit_ready h, windowThen_not_fits hfits]

theorem jobOf_setWindow_uninit (h : s.initDone = false) :
    jobOf (.setWindow p) s = ⟨some p, .fault .uninit 8⟩ := by
  rw [jobOf, jobSetWindow, needInit_uninit h]
  rfl

/-- SET_WINDOW with a window that fits: its events, and the coordinates latched. -/
theorem exec_setWindow_fits (hs : Ready s) (hfits : WindowFits s.cfg p.a.toNat p.b.toNat p.c.toNat p.d.toNat) :
    ∃ t, exec (.setWindow p) s = .next t ∧ Completes p s t ∧ Emits (windowEvents s.cfg p.a p.b p.c p.d) s t ∧
      t.work = { s.work with wx0 := p.a, wy0 := p.b, wx1 := p.c, wy1 := p.d } ∧
      t.pins = pinsAfter s.pins false s.cfg.cmdRamwr := by
  have hexec := exec_eq_afterBeats hs.1 (jobOf_setWindow_fits hs.2 hfits)
  generalize hbs : windowBeats s.cfg (unsigned16 p.a) (unsigned16 p.b) (unsigned16 p.c) (unsigned16 p.d) = bs at hexec
  have hevents : eventsOf bs = windowEvents s.cfg p.a p.b p.c p.d := by
    rw [← hbs, eventsOf_windowBeats]
    simp only [coord_unsigned16]
  have hxfers : xfersOf bs = [.window p.a p.b p.c p.d] := by
    rw [← hbs, xfersOf_windowBeats]
    simp only [coord_unsigned16]
  have hemits := afterBeats_emits p bs s
  have hpins := afterBeats_pins p bs s
  have hwork := afterBeats_work p bs s
  rw [hevents] at hemits hpins
  rw [hxfers] at hwork
  exact ⟨_, hexec, afterBeats_completes (by simp [hxfers]) p s, hemits, hwork,
    hpins.trans (pinsRun_windowEvents ..)⟩

end

/-- Settles O34, by the mode check and the window check. -/
theorem setWindowSendsTheWindow : Obligations.SetWindowSendsTheWindow :=
  ⟨hasOp_of_decodeRequest fun _ _ => rfl, fun _ _ => ⟨exec_setWindow_fits,
    fun hs hfits =>
      have ⟨t, ht, hraises⟩ := exec_raises hs.1 (jobOf_setWindow_not_fits hs.2 hfits)
      ⟨t, _, ht, hraises, windowInfo_windowMask hfits⟩,
    fun hs => exec_raises hs.1 (jobOf_setWindow_uninit hs.2)⟩⟩

/-! ### The window the controller has (42_controller_protocol R167, 20_memory R78 to R84) -/

/-- A controller that draws has a valid window. -/
theorem Drawing.windowValid {cfg : Config} {sc ec sp ep : Half} {col row : Nat} {r : Rx}
    (h : Drawing cfg sc ec sp ep col row r) : rxWindowValid cfg r = true := by
  obtain ⟨hsc, hec, hsp, hep⟩ := boundsOf_eq.mp h.bounds
  obtain ⟨hl, hr, ht, hb⟩ := h.inWindow
  have hw := h.width
  have hh := h.height
  refine rxWindowValid_iff.mpr ⟨sc, ec, sp, ep, hsc, hec, hsp, hep, ?_⟩
  unfold WindowFits
  omega

/-- A request that completes in mode READY with the controller drawing leaves it as a draw expects it. -/
theorem Drawing.drawable {p : Ports} {s t : State} {sc ec sp ep : Half} {col row : Nat} (hs : Ready s)
    (ht : Completes p s t) (h : Drawing s.cfg sc ec sp ep col row t.rx) : Drawable t := by
  obtain ⟨⟨hbusy, hfault⟩, hinit⟩ := hs
  have hst := ht.status
  refine ⟨⟨⟨hst.busy.trans hbusy, hst.fault.trans hfault⟩, hst.initDone.trans hinit⟩, ?_, ?_⟩
  · rw [hst.cfg]
    exact h.windowValid
  · rw [hst.cfg]
    exact h.cmd

/-- Settles O35: after the window's events the controller stands before the window's first pixel. -/
theorem setWindowAimsTheController : Obligations.SetWindowAimsTheController := by
  intro p s hv hs hfits
  obtain ⟨t, ht, hcomplete, hemits, -⟩ := exec_setWindow_fits hs hfits
  obtain ⟨hdraw, hhold⟩ := streamAt_windowEvents hv hfits s.rx
  have hgram := rxRun_windowEvents_gram hv p.a p.b p.c p.d s.rx
  rw [← hemits.received] at hdraw hhold hgram
  obtain ⟨hsc, hec, hsp, hep⟩ := boundsOf_eq.mp hdraw.bounds
  have hcol : streamCol p.a p.c 0 = p.a.toNat := by simp [streamCol]
  have hrow : streamRow p.a p.c p.b p.d 0 = p.b.toNat := by simp [streamRow]
  exact ⟨t, ht, hdraw.drawable hs hcomplete, hsc, hec, hsp, hep, hcol ▸ hdraw.col, hrow ▸ hdraw.row, hhold, hgram⟩

/-! ### SET_WINDOW as wire instructions (30_encoding R112, R115, log entry 16) -/

/-- The events left the block accepting, and fixed its trace, controller, pins and shifter. -/
structure Driven (es : List Event) (s t : State) : Prop where
  accepts : Accepts t
  cfg : t.cfg = s.cfg
  trace : t.trace = s.trace ++ es
  rx : t.rx = rxRun s.cfg es s.rx
  pins : t.pins = pinsRun es s.pins
  shifter : t.shifter = shifterRun es s.shifter

theorem Driven.append {as bs : List Event} {s t u : State} (h : Driven as s t) (k : Driven bs t u) :
    Driven (as ++ bs) s u := by
  refine ⟨k.accepts, k.cfg.trans h.cfg, ?_, ?_, ?_, ?_⟩
  · rw [k.trace, h.trace, List.append_assoc]
  · rw [k.rx, h.cfg, h.rx, rxRun_append]
  · rw [k.pins, h.pins, pinsRun_append]
  · rw [k.shifter, h.shifter]
    exact List.foldl_append.symm

/-- An instruction that runs its events. -/
theorem exec_driven {i : Instr} {bs : List Beat} {s t : State} (hs : Accepts s) (hj : (jobOf i s).verdict = .run bs)
    (ht : exec i s = .next t) : Driven (eventsOf bs) s t := by
  rw [exec_eq_perform, perform_run hs.1 hs.2 hj] at ht
  cases ht
  obtain ⟨hcfg, -, -, hbusy, hfault, -⟩ := runBeats_frame bs (loadPorts (jobOf i s).ports s)
  rw [loadPorts_cfg] at hcfg
  rw [loadPorts_busy] at hbusy
  rw [loadPorts_fault] at hfault
  refine ⟨⟨hbusy.trans hs.1, hfault.trans hs.2⟩, hcfg, ?_, ?_, ?_, ?_⟩
  · simp [runBeats_trace]
  · simp [runBeats_rx]
  · simp [runBeats_pins, pinsRun]
  · simp [runBeats_shifter]

/-- Settles O58: the two sides run the same events from the same state. -/
theorem setWindowIsMadeOfWireInstructions : Obligations.SetWindowIsMadeOfWireInstructions := by
  intro p s t u v w hs hfits ht hu hv hw
  have hcaset := exec_driven hs.1 rfl ht
  have hpaset := exec_driven hcaset.accepts rfl hu
  have hramwr := exec_driven hpaset.accepts rfl hv
  have hwire := (hcaset.append hpaset).append hramwr
  have hwindow := exec_driven hs.1 (congrArg Job.verdict (jobOf_setWindow_fits hs.2 hfits)) hw
  have hevents : eventsOf (windowBeats s.cfg (unsigned16 p.a) (unsigned16 p.b) (unsigned16 p.c) (unsigned16 p.d)) =
      eventsOf (beatsCaset s.cfg [] p.a p.c) ++ eventsOf (beatsPaset t.cfg p.b p.d) ++ eventsOf (beatsRamwr u.cfg) := by
    rw [hpaset.cfg, hcaset.cfg, eventsOf_windowBeats]
    simp only [coord_unsigned16]
    rfl
  rw [hevents] at hwindow
  exact ⟨hwindow.trace.trans hwire.trace.symm, hwindow.rx.trans hwire.rx.symm, hwindow.pins.trans hwire.pins.symm,
    hwindow.shifter.trans hwire.shifter.symm⟩

end Sys2Proof.Proofs

/-! PROOF. The stream engine of FILL_SCREEN and its chunks (43_pixel_stream R186), and where a stream of the window's area lands
(20_memory R89). -/

namespace Sys2Proof.Proofs

open Sys2Proof.Machine Sys2Proof.Safety

/-! ### A pixel stream cut into chunks -/

theorem colourBytes_append (as bs : List Colour) : colourBytes (as ++ bs) = colourBytes as ++ colourBytes bs :=
  List.flatMap_append

theorem colourBytes_length (ps : List Colour) : (colourBytes ps).length = 2 * ps.length := by
  induction ps with
  | nil => rfl
  | cons v ps ih =>
    rw [List.length_cons, Nat.mul_add, ← ih]
    rfl

/-- The last byte of a stream is the less significant byte of its last pixel. -/
theorem colourBytes_getLast? {ps : List Colour} {v : Colour} (h : ps.getLast? = some v) :
    (colourBytes ps).getLast? = some (lo8 v) := by
  obtain ⟨init, rfl⟩ := List.getLast?_eq_some_iff.mp h
  rw [colourBytes_append, List.getLast?_append]
  rfl

/-- The pixels of a stream, chunk by chunk. -/
def chunksOf (chunk : Nat) (ps : List Colour) : List (List Colour) :=
  (List.range (chunkCount chunk ps.length)).map fun k => (ps.drop (k * chunk)).take chunk

theorem streamEvents_eq_chunks (chunk : Nat) (ps : List Colour) :
    streamEvents chunk ps = (chunksOf chunk ps).flatMap fun f => dataFrame (colourBytes f) := by
  rw [chunksOf, List.flatMap_map]
  rfl

section
variable {chunk : Nat}

theorem chunkCount_zero (chunk : Nat) : chunkCount chunk 0 = 0 := by simp [chunkCount]

/-- The first chunk, and those of what is left. -/
theorem chunkCount_sub (hc : 1 ≤ chunk) {n : Nat} (hn : 0 < n) :
    chunkCount chunk n = chunkCount chunk (n - chunk) + 1 := by
  unfold chunkCount
  by_cases h : chunk ≤ n
  · rw [Nat.div_eq_sub_div hc h, Nat.mod_eq_sub_mod h]
    omega
  · have hlt : n < chunk := Nat.lt_of_not_le h
    have hsub : n - chunk = 0 := by omega
    simp [hsub, Nat.div_eq_of_lt hlt, Nat.mod_eq_of_lt hlt, hn]

theorem chunksOf_nil (chunk : Nat) : chunksOf chunk [] = [] := by
  simp [chunksOf, chunkCount_zero]

theorem chunksOf_of_ne_nil (hc : 1 ≤ chunk) {ps : List Colour} (hps : ps ≠ []) :
    chunksOf chunk ps = ps.take chunk :: chunksOf chunk (ps.drop chunk) := by
  have hdrop : ∀ k, (ps.drop chunk).drop (k * chunk) = ps.drop ((k + 1) * chunk) := fun k => by
    rw [List.drop_drop, Nat.succ_mul, Nat.add_comm]
  rw [chunksOf, chunkCount_sub hc (List.length_pos_iff.mpr hps), List.range_succ_eq_map, List.map_cons, List.map_map,
    Nat.zero_mul, List.drop_zero, chunksOf, List.length_drop]
  simp only [Function.comp_def, Nat.succ_eq_add_one, hdrop]

/-- Induction along the chunks of a stream. -/
theorem chunks_induction {motive : List Colour → Prop} (hc : 1 ≤ chunk) (nil : motive [])
    (step : ∀ ps, ps ≠ [] → motive (ps.drop chunk) → motive ps) (ps : List Colour) : motive ps := by
  by_cases hps : ps = []
  · exact hps ▸ nil
  · have hlen : 0 < ps.length := List.length_pos_iff.mpr hps
    have hlt : (ps.drop chunk).length < ps.length := by
      rw [List.length_drop]
      omega
    exact step ps hps (chunks_induction hc nil step (ps.drop chunk))
termination_by ps.length

theorem chunksOf_flatten (hc : 1 ≤ chunk) (ps : List Colour) : (chunksOf chunk ps).flatten = ps := by
  induction ps using chunks_induction hc with
  | nil => rw [chunksOf_nil, List.flatten_nil]
  | step ps hps ih => rw [chunksOf_of_ne_nil hc hps, List.flatten_cons, ih, List.take_append_drop]

theorem streamEvents_nil (chunk : Nat) : streamEvents chunk [] = [] := by
  rw [streamEvents_eq_chunks, chunksOf_nil, List.flatMap_nil]

/-- The first frame of a stream, and those of what is left. -/
theorem streamEvents_of_ne_nil (hc : 1 ≤ chunk) {ps : List Colour} (hps : ps ≠ []) :
    streamEvents chunk ps = dataFrame (colourBytes (ps.take chunk)) ++ streamEvents chunk (ps.drop chunk) := by
  rw [streamEvents_eq_chunks, chunksOf_of_ne_nil hc hps, List.flatMap_cons, ← streamEvents_eq_chunks]

/-- The pins after a stream are those after its last byte. -/
theorem pinsRun_streamEvents (hc : 1 ≤ chunk) {v : Colour} (ps : List Colour) (h : ps.getLast? = some v) (p : Pins) :
    pinsRun (streamEvents chunk ps) p = pinsAfter p true (lo8 v) := by
  induction ps using chunks_induction hc generalizing p with
  | nil => cases h
  | step ps hps ih =>
    rw [streamEvents_of_ne_nil hc hps, pinsRun_append]
    by_cases hlen : ps.length ≤ chunk
    · rw [List.take_of_length_le hlen, List.drop_eq_nil_of_le hlen, streamEvents_nil, pinsRun_nil,
        pinsRun_dataFrame (colourBytes_getLast? h)]
    · have hrest : (ps.drop chunk).getLast? = some v := by rw [List.getLast?_drop, if_neg hlen, h]
      have hfirst : ps.take chunk ≠ [] := fun hnil => (List.take_eq_nil_iff.mp hnil).elim (by omega) hps
      rw [ih hrest, pinsRun_dataFrame (colourBytes_getLast? (List.getLast?_eq_some_getLast hfirst)), pinsAfter_pinsAfter]

/-! ### StreamFill (43_pixel_stream R186) -/

/-- The first bytes of the filled buffer are so many pixels of the colour. -/
theorem take_fillPattern (c : Colour) {k : Nat} (hk : k ≤ chunk) :
    (fillPattern chunk c).take (2 * k) = colourBytes (List.replicate k c) := by
  have hsplit : fillPattern chunk c = colourBytes (List.replicate k c) ++ colourBytes (List.replicate (chunk - k) c) := by
    rw [← colourBytes_append, List.replicate_append_replicate, Nat.add_sub_cancel' hk]
    rfl
  rw [hsplit]
  exact List.take_left' (by rw [colourBytes_length, List.length_replicate])

theorem eventsOf_fillChunks (hc : 1 ≤ chunk) (c : Colour) {fuel n : Nat} (hn : n ≤ fuel) (pre : List Xfer) :
    eventsOf (fillChunks (fillPattern chunk c) chunk pre fuel (2 * n)) = streamEvents chunk (List.replicate n c) := by
  induction fuel generalizing n pre with
  | zero =>
    obtain rfl : n = 0 := by omega
    exact (streamEvents_nil chunk).symm
  | succ fuel ih =>
    by_cases hzero : n = 0
    · subst hzero
      exact (streamEvents_nil chunk).symm
    · have hsent : min (2 * n) (2 * chunk) = 2 * min chunk n := by omega
      have hne : List.replicate n c ≠ [] := by simpa using hzero
      have hleft : 2 * n - 2 * min chunk n = 2 * (n - chunk) := by omega
      rw [fillChunks, if_neg (by omega), eventsOf_append, hsent, hleft, ih (by omega),
        streamEvents_of_ne_nil hc hne, List.take_replicate, List.drop_replicate, eventsOf_frameWith,
        take_fillPattern c (Nat.min_le_left _ _)]
      rfl

/-- StreamFill sends its pixels in chunks. -/
theorem eventsOf_streamFill (hc : 1 ≤ chunk) (c : Colour) (n : Nat) :
    eventsOf (streamFill chunk c n) = streamEvents chunk (List.replicate n c) :=
  eventsOf_fillChunks hc c le_rfl _

theorem fillChunks_zero (cb : List Byte) (chunk : Nat) (pre : List Xfer) (fuel : Nat) :
    fillChunks cb chunk pre fuel 0 = [] := by
  cases fuel <;> rfl

/-- After the chunks of a fill `CNT` is at 0, and no other working register has moved since the transfers before the first. -/
theorem applyXfers_fillChunks_work (hc : 1 ≤ chunk) (cb : List Byte) {fuel cnt : Nat} (hfuel : cnt ≤ 2 * fuel)
    {pre : List Xfer} (hpre : cnt = 0 → pre = []) {s : State} (hcnt : (applyXfers pre s).work.cnt = BitVec.ofNat 32 cnt) :
    (applyXfers (xfersOf (fillChunks cb chunk pre fuel cnt)) s).work = { (applyXfers pre s).work with cnt := 0 } := by
  by_cases hzero : cnt = 0
  · subst hzero
    obtain rfl := hpre rfl
    have hcnt0 : s.work.cnt = 0 := hcnt
    rw [fillChunks_zero, xfersOf_nil, applyXfers_nil, ← hcnt0]
  · cases fuel with
    | zero => omega
    | succ fuel =>
      rw [fillChunks, if_neg hzero, xfersOf_append, xfersOf_frameWith, applyXfers_append,
        applyXfers_fillChunks_work hc cb (by omega) (fun _ => rfl) (by rw [applyXfers_append]; rfl), applyXfers_append]
      rfl

/-- After a fill of at least one pixel `CNT` is at 0 and the chunk buffer is full of the colour. -/
theorem applyXfers_streamFill_work (hc : 1 ≤ chunk) (c : Colour) {n : Nat} (hn : 0 < n) (s : State) :
    (applyXfers (xfersOf (streamFill chunk c n)) s).work =
      { s.work with cnt := 0, cb := colourBytes (List.replicate s.cfg.chunkPixels c) } :=
  applyXfers_fillChunks_work hc _ le_rfl (by omega) rfl

end

/-! ### A stream of the window's area (20_memory R89) -/

section
variable {x0 x1 y0 y1 : Half}

/-- No two pixels of one filling of the window land at one place. -/
theorem stream_injective {k l : Nat} (hk : k < span x0 x1 * span y0 y1) (hl : l < span x0 x1 * span y0 y1)
    (hrow : streamRow x0 x1 y0 y1 k = streamRow x0 x1 y0 y1 l) (hcol : streamCol x0 x1 k = streamCol x0 x1 l) :
    k = l := by
  have hmod : k % span x0 x1 = l % span x0 x1 := Nat.add_left_cancel hcol
  have hdiv : k / span x0 x1 % span y0 y1 = l / span x0 x1 % span y0 y1 := Nat.add_left_cancel hrow
  rw [Nat.mod_eq_of_lt (Nat.div_lt_of_lt_mul hk), Nat.mod_eq_of_lt (Nat.div_lt_of_lt_mul hl)] at hdiv
  rw [← Nat.mod_add_div k (span x0 x1), ← Nat.mod_add_div l (span x0 x1), hmod, hdiv]

/-- Every pixel of a stream of the window's area stands where it lands. -/
theorem gramRead_landed_area (hx : x0.toNat ≤ x1.toNat) {ps : List Colour}
    (harea : ps.length = span x0 x1 * span y0 y1) {k : Nat} (hk : k < ps.length) (m : Memory) :
    gramRead (landed x0 x1 y0 y1 0 ps m) (streamRow x0 x1 y0 y1 k) (streamCol x0 x1 k) = ps[k]? := by
  have h := gramRead_landed (y0 := y0) (y1 := y1) hx ps 0 k hk
  simp only [Nat.zero_add] at h
  exact h (fun l hkl hl ⟨hrow, hcol⟩ => hkl.ne (stream_injective (harea ▸ hk) (harea ▸ hl) hrow hcol)) m

/-- A stream in chunks, of the area of the window set before it, leaves the cursor on the window's first pixel. -/
theorem rxRun_window_stream {cfg : Config} (hv : cfg.Valid)
    (hfits : WindowFits cfg x0.toNat y0.toNat x1.toNat y1.toNat) {ps : List Colour}
    (harea : ps.length = span x0 x1 * span y0 y1) (r : Rx) :
    Drawing cfg x0 x1 y0 y1 x0.toNat y0.toNat
        (rxRun cfg (windowEvents cfg x0 y0 x1 y1 ++ streamEvents cfg.chunkPixels ps) r) ∧
      (rxRun cfg (windowEvents cfg x0 y0 x1 y1 ++ streamEvents cfg.chunkPixels ps) r).gram =
        landed x0 x1 y0 y1 0 ps r.gram := by
  obtain ⟨hstream, hgram⟩ :=
    (streamAt_windowEvents hv hfits r).frames hv (chunksOf cfg.chunkPixels ps)
  obtain ⟨hcol, hrow⟩ := stream_area x0 x1 y0 y1
  rw [← streamEvents_eq_chunks, ← rxRun_append, chunksOf_flatten hv.2.2.1] at hstream hgram
  rw [rxRun_windowEvents_gram hv] at hgram
  rw [Nat.zero_add, harea] at hstream
  exact ⟨hcol ▸ hrow ▸ hstream.drawing, hgram⟩

end

end Sys2Proof.Proofs

/-! PROOF. FILL_SCREEN: what it sends, what it leaves behind, and the panel filled (42_controller_protocol R168, 43_pixel_stream R191). -/

namespace Sys2Proof.Proofs

open Sys2Proof.Machine Sys2Proof.Safety

/-- The last column, or row, of a panel side. -/
def lastOf (side : Nat) : Half := BitVec.ofNat 16 (side - 1)

section
variable {side : Nat}

theorem toNat_lastOf (h : side ≤ 32767) : (lastOf side).toNat = side - 1 := by
  rw [lastOf, BitVec.toNat_ofNat, Nat.mod_eq_of_lt (by omega)]

theorem coord_last (h : 1 ≤ side) : coord ((side : Int) - 1) = lastOf side := by
  rw [coord, ← Nat.cast_pred h, BitVec.ofInt_natCast]
  rfl

theorem span_lastOf (h : 1 ≤ side ∧ side ≤ 32767) : span 0 (lastOf side) = side := by
  rw [span, toNat_lastOf h.2]
  exact Nat.sub_add_cancel h.1

end

section
variable {cfg : Config}

/-- The whole panel is a window. -/
theorem windowFits_panel (hv : cfg.Valid) : WindowFits cfg 0 0 ((cfg.width : Int) - 1) ((cfg.height : Int) - 1) := by
  obtain ⟨⟨hw, -⟩, ⟨hh, -⟩, -⟩ := hv
  unfold WindowFits
  omega

theorem windowFits_lastOf (hv : cfg.Valid) :
    WindowFits cfg (0 : Half).toNat (0 : Half).toNat (lastOf cfg.width).toNat (lastOf cfg.height).toNat := by
  have ⟨⟨hw, hw'⟩, ⟨hh, hh'⟩, _⟩ := hv
  rw [toNat_lastOf hw', toNat_lastOf hh', Nat.cast_pred hw, Nat.cast_pred hh]
  exact windowFits_panel hv

/-- The beats of FILL_SCREEN. -/
def fillScreenBeats (cfg : Config) (c : Colour) : List Beat :=
  windowBeats cfg 0 0 ((cfg.width : Int) - 1) ((cfg.height : Int) - 1) ++
    streamFill cfg.chunkPixels c (cfg.width * cfg.height)

/-- The events of FILL_SCREEN. -/
def fillScreenEvents (cfg : Config) (c : Colour) : List Event :=
  windowEvents cfg 0 0 (lastOf cfg.width) (lastOf cfg.height) ++
    streamEvents cfg.chunkPixels (List.replicate (cfg.width * cfg.height) c)

theorem eventsOf_fillScreenBeats (hv : cfg.Valid) (c : Colour) :
    eventsOf (fillScreenBeats cfg c) = fillScreenEvents cfg c := by
  obtain ⟨⟨hw, -⟩, ⟨hh, -⟩, hchunk, -⟩ := hv
  rw [fillScreenBeats, eventsOf_append, eventsOf_windowBeats, eventsOf_streamFill hchunk, coord_last hw, coord_last hh]
  rfl

theorem initDone_notMem_fillScreenBeats (cfg : Config) (c : Colour) : .initDone ∉ xfersOf (fillScreenBeats cfg c) := by
  intro hmem
  have hok : BeatsOk (.fillScreen Ports.zero) 0 (fillScreenBeats cfg c) :=
    BeatsOk.append (beatsOk_windowBeats _ _ _ _ _) (beatsOk_streamFill _ _ _)
  obtain ⟨p, hp⟩ := hok _ hmem
  cases hp

end

section
variable {p : Ports} {s : State}

theorem jobOf_fillScreen_ready (hv : s.cfg.Valid) (h : s.initDone = true) :
    jobOf (.fillScreen p) s = ⟨some p, .run (fillScreenBeats s.cfg p.v)⟩ := by
  rw [jobOf, jobFillScreen, needInit_ready h, windowThen_fits (windowFits_panel hv)]
  rfl

theorem jobOf_fillScreen_uninit (h : s.initDone = false) :
    jobOf (.fillScreen p) s = ⟨some p, .fault .uninit 9⟩ := by
  rw [jobOf, jobFillScreen, needInit_uninit h]
  rfl

/-- FILL_SCREEN in mode READY: its events, the coordinates latched, and the chunk buffer full of the colour. -/
theorem exec_fillScreen_ready (hv : s.cfg.Valid) (hs : Ready s) :
    ∃ t, exec (.fillScreen p) s = .next t ∧ Completes p s t ∧ Emits (fillScreenEvents s.cfg p.v) s t ∧
      t.work = { s.work with
        wx0 := 0, wy0 := 0, wx1 := lastOf s.cfg.width, wy1 := lastOf s.cfg.height,
        cnt := 0, cb := colourBytes (List.replicate s.cfg.chunkPixels p.v) } ∧
      t.pins = pinsAfter s.pins true (lo8 p.v) := by
  have hexec := exec_eq_afterBeats hs.1 (jobOf_fillScreen_ready (p := p) hv hs.2)
  have hemits := afterBeats_emits p (fillScreenBeats s.cfg p.v) s
  have hpins := afterBeats_pins p (fillScreenBeats s.cfg p.v) s
  have hwork := afterBeats_work p (fillScreenBeats s.cfg p.v) s
  rw [eventsOf_fillScreenBeats hv] at hemits hpins
  obtain ⟨⟨hw, -⟩, ⟨hh, -⟩, hchunk, -⟩ := hv
  have harea : 0 < s.cfg.width * s.cfg.height := Nat.mul_pos hw hh
  have hlast : (List.replicate (s.cfg.width * s.cfg.height) p.v).getLast? = some p.v := by
    rw [List.getLast?_replicate, if_neg harea.ne']
  rw [fillScreenBeats, xfersOf_append, xfersOf_windowBeats, applyXfers_append,
    applyXfers_streamFill_work hchunk p.v harea, coord_last hw, coord_last hh] at hwork
  rw [fillScreenEvents, pinsRun_append, pinsRun_windowEvents, pinsRun_streamEvents hchunk _ hlast] at hpins
  exact ⟨_, hexec, afterBeats_completes (initDone_notMem_fillScreenBeats _ _) p s, hemits, hwork, hpins⟩

end

/-- Settles O36: the full-panel window always fits, so only the mode check can fail. -/
theorem fillScreenStreamsThePanel : Obligations.FillScreenStreamsThePanel :=
  ⟨hasOp_of_decodeRequest fun _ _ => rfl, fun _ _ hv =>
    ⟨exec_fillScreen_ready hv, fun hs => exec_raises hs.1 (jobOf_fillScreen_uninit hs.2)⟩⟩

/-- Every address of GRAM is the place of a pixel of the stream that fills the panel. -/
theorem stream_covers_panel {cfg : Config} (hv : cfg.Valid) {row col : Nat} (ha : gramAddress cfg row col = true) :
    ∃ k, k < cfg.width * cfg.height ∧ streamRow 0 (lastOf cfg.width) 0 (lastOf cfg.height) k = row ∧
      streamCol 0 (lastOf cfg.width) k = col := by
  obtain ⟨hrow, hcol⟩ := gramAddress_iff.mp ha
  obtain ⟨hw, hh, -⟩ := hv
  obtain ⟨hdiv, hmod⟩ : (col + cfg.width * row) / cfg.width = row ∧ (col + cfg.width * row) % cfg.width = col :=
    (Nat.div_mod_unique (by omega)).mpr ⟨rfl, hcol⟩
  have hlt : col + cfg.width * row < cfg.width * cfg.height :=
    calc col + cfg.width * row < cfg.width + cfg.width * row := by omega
      _ = cfg.width * (row + 1) := by ring
      _ ≤ cfg.width * cfg.height := Nat.mul_le_mul_left _ hrow
  refine ⟨col + cfg.width * row, hlt, ?_, ?_⟩
  · rw [streamRow, span_lastOf hw, span_lastOf hh, hdiv, Nat.mod_eq_of_lt hrow]
    exact Nat.zero_add row
  · rw [streamCol, span_lastOf hw, hmod]
    exact Nat.zero_add col

/-- Settles O49: the stream has the panel's area, so it fills every pixel and ends where it began. -/
theorem fillScreenLands : Obligations.FillScreenLands := by
  intro p s hv hs
  obtain ⟨t, ht, hcomplete, hemits, -⟩ := exec_fillScreen_ready (p := p) hv hs
  have hfits := windowFits_lastOf hv
  have harea : (List.replicate (s.cfg.width * s.cfg.height) p.v).length =
      span 0 (lastOf s.cfg.width) * span 0 (lastOf s.cfg.height) := by
    rw [List.length_replicate, span_lastOf hv.1, span_lastOf hv.2.1]
  obtain ⟨hdraw, hgram⟩ := rxRun_window_stream hv hfits harea s.rx
  rw [← fillScreenEvents, ← hemits.received] at hdraw hgram
  refine ⟨t, ht, fun row col ha => ?_, hdraw.drawable hs hcomplete, hdraw.col, hdraw.row⟩
  obtain ⟨k, hk, rfl, rfl⟩ := stream_covers_panel hv ha
  rw [hgram, gramRead_landed_area (Nat.zero_le _) harea (by simpa using hk), List.getElem?_replicate, if_pos hk]

end Sys2Proof.Proofs

/-! PROOF. COLOR565, the clip unit and the two stream engines (43_pixel_stream R181, R186, R187, R189). -/

namespace Sys2Proof.Proofs

open Sys2Proof.Machine Sys2Proof.Safety

/-! ### COLOR565 (43_pixel_stream R181) -/

/-- The channels of a colour as digits of its number (30_encoding R117). -/
theorem toNat_packColour (r : BitVec 5) (g : BitVec 6) (b : BitVec 5) :
    (packColour r g b).toNat = r.toNat * 2048 + g.toNat * 32 + b.toNat := by
  rw [packColour, BitVec.toNat_append, BitVec.toNat_append, ← Nat.shiftLeft_add_eq_or_of_lt g.isLt,
    ← Nat.shiftLeft_add_eq_or_of_lt b.isLt]
  simp only [Nat.shiftLeft_eq]
  ring

/-- The number COLOR565 answers: each channel's low byte cut to its width. -/
theorem toNat_color565 (a b c : Half) :
    (color565 (lowByte a) (lowByte b) (lowByte c)).toNat =
      a.toNat % 256 / 8 * 2048 + b.toNat % 256 / 4 * 32 + c.toNat % 256 / 8 := by
  simp only [color565, toNat_packColour, lowByte, lo8, BitVec.extractLsb'_toNat, Nat.shiftRight_eq_div_pow]
  omega

/-- A request that answers a value (30_encoding R105). -/
theorem exec_responds {i : Instr} {p : Ports} {v : Half} {s : State} (hs : Accepts s)
    (hj : jobOf i s = ⟨some p, .respond v⟩) : exec i s = .next { s with regs := p, rsp := v, done := true } := by
  rw [exec_eq_perform, hj, perform_settle _ hs.1 hs.2]
  rfl

/-- Settles O37: the answer's number has the truncated channels as its digits. -/
theorem color565TruncatesAndPacks : Obligations.Color565TruncatesAndPacks := by
  refine ⟨hasOp_of_decodeRequest fun _ _ => rfl, fun _ => refusedWhenFaulted _, fun p s hs =>
    ⟨_, exec_responds hs rfl, toNat_color565 .., ?_⟩⟩
  rw [toNat_color565]
  omega

/-! ### The clip unit (43_pixel_stream R189) -/

section
variable {cfg : Config} {x y w h : Int}

theorem onPanel_iff : onPanel cfg x y = true ↔ (0 ≤ x ∧ x < cfg.width) ∧ 0 ≤ y ∧ y < cfg.height := by
  simp [onPanel, and_assoc]

/-- A rectangle of which something is to be drawn: its origin on the panel and its extent not empty. -/
def Visible (cfg : Config) (x y w h : Int) : Prop := onPanel cfg x y = true ∧ 0 < w ∧ 0 < h

theorem visible_iff :
    Visible cfg x y w h ↔ ¬ (x < 0 ∨ x ≥ cfg.width ∨ y < 0 ∨ y ≥ cfg.height ∨ w ≤ 0 ∨ h ≤ 0) := by
  rw [Visible, onPanel_iff]
  omega

/-- The rectangle cut at the panel's far edges. -/
def cutRect (cfg : Config) (x y w h : Int) : Rect := ⟨x, y, min w (cfg.width - x), min h (cfg.height - y)⟩

theorem clipRect_visible (hvis : Visible cfg x y w h) : clipRect cfg x y w h = some (cutRect cfg x y w h) := by
  obtain ⟨hpanel, hw, hh⟩ := hvis
  have hextent : ¬ (w ≤ 0 ∨ h ≤ 0) := by omega
  rw [clipRect, if_neg (by simp [hpanel]), if_neg hextent]
  rfl

theorem clipRect_not_visible (hvis : ¬ Visible cfg x y w h) : clipRect cfg x y w h = none := by
  unfold clipRect
  split
  · rfl
  · next hpanel =>
    refine if_pos ?_
    by_contra hextent
    exact hvis ⟨by simpa using hpanel, by omega, by omega⟩

/-- What is left after clipping is not empty, and its window is on the panel. -/
theorem clipRect_fits {r : Rect} (hclip : clipRect cfg x y w h = some r) :
    1 ≤ r.w ∧ 1 ≤ r.h ∧ WindowFits cfg r.x r.y (r.x + r.w - 1) (r.y + r.h - 1) := by
  by_cases hvis : Visible cfg x y w h
  · obtain rfl : cutRect cfg x y w h = r := Option.some.inj ((clipRect_visible hvis).symm.trans hclip)
    rw [visible_iff] at hvis
    unfold WindowFits cutRect
    dsimp only
    omega
  · cases (clipRect_not_visible hvis).symm.trans hclip

end

/-- Settles O43: nothing is drawn unless the rectangle is visible, and then the cut rectangle. -/
theorem clipRectStaysOnThePanel : Obligations.ClipRectStaysOnThePanel := by
  refine fun cfg x y w h => ⟨fun hout => clipRect_not_visible fun hvis => visible_iff.mp hvis hout, fun hin => ?_⟩
  have hclip := clipRect_visible (visible_iff.mpr hin)
  exact ⟨hclip, clipRect_fits hclip⟩

/-! ### StreamPixels (43_pixel_stream R187) -/

section
variable {chunk : Nat}

theorem take_min_length (ps : List Colour) : ps.take (min ps.length chunk) = ps.take chunk :=
  List.take_eq_take_iff.mpr (by omega)

theorem drop_min_length (ps : List Colour) : ps.drop (min ps.length chunk) = ps.drop chunk :=
  List.drop_eq_drop_iff.mpr (by omega)

/-- One turn of StreamPixels: a chunk's transfers and frame, then what is left of the payload. -/
theorem pixelChunks_of_ne_nil {ps : List Colour} (hps : ps ≠ []) (pre : List Xfer) (fuel ptr : Nat) :
    pixelChunks chunk pre (fuel + 1) ptr ps =
      frameWith (pre ++ [.cbLoad (ps.take chunk)]) true (colourBytes (ps.take chunk))
          [.ptr (BitVec.ofNat 32 (ptr + (ps.take chunk).length)), .cnt (BitVec.ofNat 32 (2 * (ps.drop chunk).length))] ++
        pixelChunks chunk [] fuel (ptr + (ps.take chunk).length) (ps.drop chunk) := by
  have hleft : ps.length - min ps.length chunk = ps.length - chunk := by omega
  simp only [pixelChunks, if_neg hps, take_min_length, drop_min_length, List.length_take, List.length_drop, hleft,
    Nat.min_comm chunk]
  rfl

theorem pixelChunks_nil (pre : List Xfer) (fuel ptr : Nat) : pixelChunks chunk pre fuel ptr [] = [] := by
  cases fuel <;> rfl

/-- A bound on the payload left is not used up, and bounds what is left after the next chunk (log entry 30). -/
theorem fuel_of_ne_nil (hc : 1 ≤ chunk) {fuel : Nat} {ps : List Colour} (hps : ps ≠ []) (hfuel : ps.length ≤ fuel) :
    ∃ k, fuel = k + 1 ∧ (ps.drop chunk).length ≤ k := by
  have hlen : 0 < ps.length := List.length_pos_iff.mpr hps
  rw [List.length_drop]
  exact ⟨fuel - 1, by omega, by omega⟩

theorem eventsOf_pixelChunks (hc : 1 ≤ chunk) {fuel : Nat} {ps : List Colour} (hfuel : ps.length ≤ fuel)
    (pre : List Xfer) (ptr : Nat) : eventsOf (pixelChunks chunk pre fuel ptr ps) = streamEvents chunk ps := by
  induction ps using chunks_induction hc generalizing fuel pre ptr with
  | nil => rw [pixelChunks_nil, streamEvents_nil, eventsOf_nil]
  | step ps hps ih =>
    obtain ⟨fuel, rfl, hrest⟩ := fuel_of_ne_nil hc hps hfuel
    rw [pixelChunks_of_ne_nil hps, eventsOf_append, ih hrest, streamEvents_of_ne_nil hc hps, eventsOf_frameWith]
    rfl

/-- StreamPixels sends the payload in chunks. -/
theorem eventsOf_streamPixels (hc : 1 ≤ chunk) (ps : List Colour) :
    eventsOf (streamPixels chunk ps) = streamEvents chunk ps :=
  eventsOf_pixelChunks hc le_rfl _ _

/-- The transfers before the first chunk come first. -/
theorem xfersOf_pixelChunks (hc : 1 ≤ chunk) {ps : List Colour} (hps : ps ≠ []) (pre : List Xfer) {fuel : Nat}
    (hfuel : ps.length ≤ fuel) (ptr : Nat) :
    xfersOf (pixelChunks chunk pre fuel ptr ps) = pre ++ xfersOf (pixelChunks chunk [] fuel ptr ps) := by
  obtain ⟨fuel, rfl, -⟩ := fuel_of_ne_nil hc hps hfuel
  simp only [pixelChunks_of_ne_nil hps, xfersOf_append, xfersOf_frameWith, List.append_assoc, List.nil_append]

/-- After the chunks of a payload `CNT` is at 0, `PTR` at its end, and of the other working registers only the chunk buffer may
have moved. -/
theorem applyXfers_pixelChunks_work (hc : 1 ≤ chunk) {fuel ptr : Nat} {ps : List Colour} (hfuel : ps.length ≤ fuel)
    {s : State} (hptr : s.work.ptr = BitVec.ofNat 32 ptr) (hcnt : s.work.cnt = BitVec.ofNat 32 (2 * ps.length)) :
    ∃ cb, (applyXfers (xfersOf (pixelChunks chunk [] fuel ptr ps)) s).work =
      { s.work with cnt := 0, ptr := BitVec.ofNat 32 (ptr + ps.length), cb := cb } := by
  induction ps using chunks_induction hc generalizing fuel ptr s with
  | nil =>
    refine ⟨s.work.cb, ?_⟩
    change _ = { s.work with
      cnt := BitVec.ofNat 32 (2 * ([] : List Colour).length), ptr := BitVec.ofNat 32 ptr, cb := s.work.cb }
    rw [pixelChunks_nil, xfersOf_nil, applyXfers_nil, ← hptr, ← hcnt]
  | step ps hps ih =>
    obtain ⟨fuel, rfl, hrest⟩ := fuel_of_ne_nil hc hps hfuel
    have hend : ptr + (ps.take chunk).length + (ps.drop chunk).length = ptr + ps.length := by
      rw [Nat.add_assoc, ← List.length_append, List.take_append_drop]
    rw [pixelChunks_of_ne_nil hps, xfersOf_append, xfersOf_frameWith, applyXfers_append]
    refine (ih hrest ?_ ?_).imp fun cb hcb => hcb.trans ?_
    · rfl
    · rfl
    · rw [hend]
      rfl

/-- After a payload of at least one pixel `CNT` is at 0 and `PTR` at its length. -/
theorem applyXfers_streamPixels_work (hc : 1 ≤ chunk) {ps : List Colour} (hps : ps ≠ []) (s : State) :
    ∃ cb, (applyXfers (xfersOf (streamPixels chunk ps)) s).work =
      { s.work with cnt := 0, ptr := BitVec.ofNat 32 ps.length, cb := cb } := by
  rw [streamPixels, xfersOf_pixelChunks hc hps _ le_rfl, applyXfers_append]
  refine (applyXfers_pixelChunks_work hc le_rfl ?_ ?_).imp fun cb hcb => hcb.trans ?_
  · rfl
  · rfl
  · rw [Nat.zero_add]
    rfl

end

/-! ### The views of a stream (00_scope R14, 70_reset_and_hazards R281) -/

theorem logical_dataFrame (d : Bool) (bs : List Byte) (es : List Event) :
    logical d (dataFrame bs ++ es) = bs.map (.byte true) ++ logical true es := by
  change logical true (bs.map .tx ++ [.cs true] ++ es) = _
  induction bs with
  | nil => rfl
  | cons b bs ih => exact congrArg (LogEntry.byte true b :: ·) ih

theorem frameCount_dataFrame (bs : List Byte) (es : List Event) :
    frameCount (dataFrame bs ++ es) = frameCount es + 1 := by
  have hbytes : frameCount (bs.map .tx ++ [.cs true] ++ es) = frameCount es := by
    induction bs with
    | nil => rfl
    | cons b bs ih => exact ih
  exact congrArg (· + 1) hbytes

section
variable {chunk : Nat}

/-- The logical trace of a stream does not depend on how it is cut. -/
theorem logical_streamEvents (hc : 1 ≤ chunk) (d : Bool) (ps : List Colour) :
    logical d (streamEvents chunk ps) = (colourBytes ps).map (.byte true) := by
  induction ps using chunks_induction hc generalizing d with
  | nil => rw [streamEvents_nil]; rfl
  | step ps hps ih =>
    rw [streamEvents_of_ne_nil hc hps, logical_dataFrame, ih, ← List.map_append, ← colourBytes_append,
      List.take_append_drop]

theorem frameCount_streamEvents (hc : 1 ≤ chunk) (ps : List Colour) :
    frameCount (streamEvents chunk ps) = chunkCount chunk ps.length := by
  induction ps using chunks_induction hc with
  | nil => rw [streamEvents_nil, List.length_nil, chunkCount_zero]; rfl
  | step ps hps ih =>
    rw [streamEvents_of_ne_nil hc hps, frameCount_dataFrame, ih, List.length_drop,
      chunkCount_sub hc (List.length_pos_iff.mpr hps)]

end

/-- Settles O44, along the chunks of the stream. -/
theorem streamsAreChunked : Obligations.StreamsAreChunked := by
  refine fun chunk hc => ⟨eventsOf_streamFill hc, eventsOf_streamPixels hc, fun d ps =>
    ⟨logical_streamEvents hc d ps, ?_⟩⟩
  rw [frameCount_streamEvents hc, chunkCount]
  by_cases hrest : ps.length % chunk = 0
  · simp [hrest]
  · simp [hrest, Nat.pos_of_ne_zero hrest]

end Sys2Proof.Proofs

/-! PROOF. The drawing operations: what they send and what they leave behind (43_pixel_stream R184, R185, R188). -/

namespace Sys2Proof.Proofs

open Sys2Proof.Machine Sys2Proof.Safety

/-! ### Signed coordinates on the wire (30_encoding R104, 20_memory R61) -/

/-- A signed operand crosses the wire as it is. -/
@[simp] theorem coord_toInt (v : Half) : coord v.toInt = v := BitVec.ofInt_toInt

/-- The far bound of an extent, computed in integers or in 16 bits. -/
theorem coord_extent (v w : Half) : coord (v.toInt + w.toInt - 1) = v + w - 1 := by
  rw [coord, Int.sub_eq_add_neg, BitVec.ofInt_add, BitVec.ofInt_add, BitVec.ofInt_toInt, BitVec.ofInt_toInt,
    BitVec.sub_eq_add_neg]
  rfl

/-! ### A window and then pixels -/

section
variable {i : Instr} {p : Ports} {s : State}

/-- What an instruction's verdict says of its beats. -/
theorem beatsOk_of_jobOf {bs : List Beat} (hj : jobOf i s = ⟨some p, .run bs⟩) : BeatsOk i s.cfg.chunkPixels bs := by
  have hok := verdictOk_jobOf i s
  rw [hj] at hok
  exact hok

/-- No request but INIT asks for `INIT_DONE <- 1` (10_state R37). -/
theorem initDone_notMem_of_jobOf {bs : List Beat} (hj : jobOf i s = ⟨some p, .run bs⟩) (hi : ∀ q, i ≠ .init q) :
    .initDone ∉ xfersOf bs := by
  intro hmem
  obtain ⟨q, hq⟩ : ∃ q, i = .init q := beatsOk_of_jobOf hj _ hmem
  exact hi q hq

/-- A request completes with no event (43_pixel_stream R182). -/
theorem exec_noOp (hs : Accepts s) (hj : jobOf i s = ⟨some p, .run []⟩) : ∃ t, exec i s = .next t ∧ NoOp p s t :=
  ⟨_, exec_eq_afterBeats hs hj, rfl⟩

/-- A request that sends a window and then the beats of its pixels. -/
theorem exec_window_pixels {x0 y0 x1 y1 : Int} {rest : List Beat} (hs : Accepts s) (hi : ∀ q, i ≠ .init q)
    (hj : jobOf i s = ⟨some p, .run (windowBeats s.cfg x0 y0 x1 y1 ++ rest)⟩) :
    ∃ t, exec i s = .next t ∧ Completes p s t ∧
      Emits (windowEvents s.cfg (coord x0) (coord y0) (coord x1) (coord y1) ++ eventsOf rest) s t ∧
      t.work = (applyXfers (xfersOf rest)
        (applyXfer (.window (coord x0) (coord y0) (coord x1) (coord y1)) s)).work ∧
      t.pins = pinsRun (eventsOf rest) (pinsAfter s.pins false s.cfg.cmdRamwr) := by
  have hemits := afterBeats_emits p (windowBeats s.cfg x0 y0 x1 y1 ++ rest) s
  have hpins := afterBeats_pins p (windowBeats s.cfg x0 y0 x1 y1 ++ rest) s
  have hwork := afterBeats_work p (windowBeats s.cfg x0 y0 x1 y1 ++ rest) s
  rw [eventsOf_append, eventsOf_windowBeats] at hemits hpins
  rw [xfersOf_append, xfersOf_windowBeats, applyXfers_append] at hwork
  rw [pinsRun_append, pinsRun_windowEvents] at hpins
  exact ⟨_, exec_eq_afterBeats hs hj, afterBeats_completes (initDone_notMem_of_jobOf hj hi) p s, hemits, hwork, hpins⟩

end

/-! ### DRAW_PIXEL (43_pixel_stream R184) -/

section
variable {p : Ports} {s : State}

theorem eventsOf_frameP (v : Colour) : eventsOf (frameP v) = dataFrame (colourBytes [v]) := rfl

theorem windowFits_point {cfg : Config} {x y : Int} (h : onPanel cfg x y = true) : WindowFits cfg x y x y := by
  rw [onPanel_iff] at h
  unfold WindowFits
  omega

theorem jobOf_drawPixel_onPanel (hinit : s.initDone = true) (h : onPanel s.cfg p.a.toInt p.b.toInt = true) :
    jobOf (.drawPixel p) s =
      ⟨some p, .run (windowBeats s.cfg p.a.toInt p.b.toInt p.a.toInt p.b.toInt ++ frameP p.v)⟩ := by
  rw [jobOf, jobDrawPixel, needInit_ready hinit]
  exact congrArg (Job.mk (some p)) ((if_pos h).trans (windowThen_fits (windowFits_point h) _))

theorem jobOf_drawPixel_offPanel (hinit : s.initDone = true) (h : ¬ onPanel s.cfg p.a.toInt p.b.toInt = true) :
    jobOf (.drawPixel p) s = ⟨some p, .run []⟩ := by
  rw [jobOf, jobDrawPixel, needInit_ready hinit]
  exact congrArg (Job.mk (some p)) (if_neg h)

theorem jobOf_drawPixel_uninit (hinit : s.initDone = false) : jobOf (.drawPixel p) s = ⟨some p, .fault .uninit 10⟩ := by
  rw [jobOf, jobDrawPixel, needInit_uninit hinit]
  rfl

/-- DRAW_PIXEL on the panel: the one-pixel window and the colour. -/
theorem exec_drawPixel_onPanel (hs : Ready s) (h : onPanel s.cfg p.a.toInt p.b.toInt = true) :
    ∃ t, exec (.drawPixel p) s = .next t ∧ Completes p s t ∧
      Emits (windowEvents s.cfg p.a p.b p.a p.b ++ dataFrame (colourBytes [p.v])) s t ∧
      t.work = { s.work with wx0 := p.a, wy0 := p.b, wx1 := p.a, wy1 := p.b } ∧
      t.pins = pinsAfter s.pins true (lo8 p.v) := by
  obtain ⟨t, ht, hcomplete, hemits, hwork, hpins⟩ :=
    exec_window_pixels hs.1 (by simp) (jobOf_drawPixel_onPanel hs.2 h)
  simp only [coord_toInt] at hemits hwork
  rw [xfersOf_frameP] at hwork
  rw [eventsOf_frameP] at hemits hpins
  exact ⟨t, ht, hcomplete, hemits, hwork, hpins.trans (pinsRun_dataFrame (colourBytes_getLast? rfl) _)⟩

end

/-- Settles O38, by the mode check and whether the point is on the panel. -/
theorem drawPixelSendsOnePixel : Obligations.DrawPixelSendsOnePixel := by
  refine ⟨hasOp_of_decodeRequest fun _ _ => rfl, fun p s => ⟨fun hs hpoint => ?_, fun hs hpoint => ?_, fun hs =>
    exec_raises hs.1 (jobOf_drawPixel_uninit hs.2)⟩⟩
  · exact exec_drawPixel_onPanel hs (onPanel_iff.mpr (by omega))
  · exact exec_noOp hs.1 (jobOf_drawPixel_offPanel hs.2 (mt onPanel_iff.mp (by omega)))

/-! ### FILL_RECT (43_pixel_stream R185) -/

section
variable {p : Ports} {s : State}

theorem jobOf_fillRect_some {r : Rect} (hinit : s.initDone = true)
    (hclip : clipRect s.cfg p.a.toInt p.b.toInt p.c.toInt p.d.toInt = some r) :
    jobOf (.fillRect p) s =
      ⟨some p, .run (windowBeats s.cfg r.x r.y (r.x + r.w - 1) (r.y + r.h - 1) ++
        streamFill s.cfg.chunkPixels p.v (r.w * r.h).toNat)⟩ := by
  obtain ⟨-, -, hfits⟩ := clipRect_fits hclip
  simp only [jobOf, jobFillRect, needInit_ready hinit, signed16, hclip, windowThen_fits hfits]

theorem jobOf_fillRect_none (hinit : s.initDone = true)
    (hclip : clipRect s.cfg p.a.toInt p.b.toInt p.c.toInt p.d.toInt = none) :
    jobOf (.fillRect p) s = ⟨some p, .run []⟩ := by
  simp only [jobOf, jobFillRect, needInit_ready hinit, signed16, hclip]

theorem jobOf_fillRect_uninit (hinit : s.initDone = false) : jobOf (.fillRect p) s = ⟨some p, .fault .uninit 11⟩ := by
  rw [jobOf, jobFillRect, needInit_uninit hinit]
  rfl

/-- FILL_RECT with something left after clipping: the window of what is left and its pixels in chunks. -/
theorem exec_fillRect_some {r : Rect} (hv : s.cfg.Valid) (hs : Ready s)
    (hclip : clipRect s.cfg p.a.toInt p.b.toInt p.c.toInt p.d.toInt = some r) :
    ∃ t, exec (.fillRect p) s = .next t ∧ Completes p s t ∧
      Emits (windowEvents s.cfg (coord r.x) (coord r.y) (coord (r.x + r.w - 1)) (coord (r.y + r.h - 1)) ++
        streamEvents s.cfg.chunkPixels (List.replicate (r.w * r.h).toNat p.v)) s t ∧
      t.work = { s.work with
        wx0 := coord r.x, wy0 := coord r.y, wx1 := coord (r.x + r.w - 1), wy1 := coord (r.y + r.h - 1),
        cnt := 0, cb := colourBytes (List.replicate s.cfg.chunkPixels p.v) } ∧
      t.pins = pinsAfter s.pins true (lo8 p.v) := by
  obtain ⟨-, -, hchunk, -⟩ := hv
  obtain ⟨hw, hh, -⟩ := clipRect_fits hclip
  have harea : 0 < (r.w * r.h).toNat := Int.pos_iff_toNat_pos.mp (Int.mul_pos hw hh)
  have hlast : (List.replicate (r.w * r.h).toNat p.v).getLast? = some p.v := by
    rw [List.getLast?_replicate, if_neg harea.ne']
  obtain ⟨t, ht, hcomplete, hemits, hwork, hpins⟩ :=
    exec_window_pixels hs.1 (by simp) (jobOf_fillRect_some hs.2 hclip)
  rw [eventsOf_streamFill hchunk] at hemits hpins
  rw [applyXfers_streamFill_work hchunk p.v harea] at hwork
  rw [pinsRun_streamEvents hchunk _ hlast, pinsAfter_pinsAfter] at hpins
  exact ⟨t, ht, hcomplete, hemits, hwork, hpins⟩

end

/-- Settles O39, by the mode check and whether anything is left after clipping. -/
theorem fillRectClipsAndStreams : Obligations.FillRectClipsAndStreams := by
  refine ⟨hasOp_of_decodeRequest fun _ _ => rfl, fun p s hv => ⟨fun hs hvis => ?_, fun hs hvis =>
    exec_noOp hs.1 (jobOf_fillRect_none hs.2 (clipRect_not_visible hvis)), fun hs =>
    exec_raises hs.1 (jobOf_fillRect_uninit hs.2)⟩⟩
  obtain ⟨t, ht, hrest⟩ := exec_fillRect_some hv hs (clipRect_visible hvis)
  simp only [cutRect, coord_toInt] at hrest
  exact ⟨t, _, _, ht, rfl, rfl, hrest⟩

/-! ### DRAW_BITMAP (43_pixel_stream R188) -/

theorem needWindow_fits {cfg : Config} {x0 y0 x1 y1 : Int} (h : WindowFits cfg x0 y0 x1 y1) (v : Verdict) :
    needWindow cfg x0 y0 x1 y1 v = v :=
  if_pos (windowOK_iff.mpr h)

theorem needWindow_not_fits {cfg : Config} {x0 y0 x1 y1 : Int} (h : ¬ WindowFits cfg x0 y0 x1 y1) (v : Verdict) :
    needWindow cfg x0 y0 x1 y1 v = .fault .window (windowMask cfg x0 y0 x1 y1) :=
  if_neg (mt windowOK_iff.mp h)

/-- The extent of a DRAW_BITMAP lies on the panel. -/
def BitmapFits (p : Ports) (s : State) : Prop :=
  WindowFits s.cfg p.a.toInt p.b.toInt (p.a.toInt + p.c.toInt - 1) (p.b.toInt + p.d.toInt - 1)

section
variable {p : Ports} {pay : List Colour} {s : State}

theorem jobOf_drawBitmap_fits (hinit : s.initDone = true) (hfits : BitmapFits p s)
    (hlen : (pay.length : Int) = p.c.toInt * p.d.toInt) :
    jobOf (.drawBitmap p pay) s =
      ⟨some p, .run (windowBeats s.cfg p.a.toInt p.b.toInt (p.a.toInt + p.c.toInt - 1) (p.b.toInt + p.d.toInt - 1) ++
        streamPixels s.cfg.chunkPixels pay)⟩ := by
  rw [jobOf, jobDrawBitmap, needInit_ready hinit]
  exact congrArg (Job.mk (some p))
    ((needWindow_fits hfits _).trans ((if_pos hlen).trans (windowThen_fits hfits _)))

theorem jobOf_drawBitmap_not_fits (hinit : s.initDone = true) (hfits : ¬ BitmapFits p s) :
    jobOf (.drawBitmap p pay) s = ⟨some p, .fault .window
      (windowMask s.cfg p.a.toInt p.b.toInt (p.a.toInt + p.c.toInt - 1) (p.b.toInt + p.d.toInt - 1))⟩ := by
  rw [jobOf, jobDrawBitmap, needInit_ready hinit]
  exact congrArg (Job.mk (some p)) (needWindow_not_fits hfits _)

theorem jobOf_drawBitmap_length_ne (hinit : s.initDone = true) (hfits : BitmapFits p s)
    (hlen : (pay.length : Int) ≠ p.c.toInt * p.d.toInt) :
    jobOf (.drawBitmap p pay) s = ⟨some p, .fault .length (BitVec.ofNat 32 pay.length)⟩ := by
  rw [jobOf, jobDrawBitmap, needInit_ready hinit]
  exact congrArg (Job.mk (some p)) ((needWindow_fits hfits _).trans (if_neg hlen))

theorem jobOf_drawBitmap_uninit (hinit : s.initDone = false) :
    jobOf (.drawBitmap p pay) s = ⟨some p, .fault .uninit 12⟩ := by
  rw [jobOf, jobDrawBitmap, needInit_uninit hinit]
  rfl

/-- An extent that fits is not empty, so neither is its payload. -/
theorem payload_ne_nil (hfits : BitmapFits p s) (hlen : (pay.length : Int) = p.c.toInt * p.d.toInt) : pay ≠ [] := by
  rintro rfl
  unfold BitmapFits WindowFits at hfits
  have hpos : 0 < p.c.toInt * p.d.toInt := Int.mul_pos (by omega) (by omega)
  rw [← hlen] at hpos
  exact absurd hpos (lt_irrefl _)

/-- DRAW_BITMAP that fits with its payload: the window of the extent and the colours in chunks. -/
theorem exec_drawBitmap_fits (hv : s.cfg.Valid) (hs : Ready s) (hfits : BitmapFits p s)
    (hlen : (pay.length : Int) = p.c.toInt * p.d.toInt) :
    ∃ t, exec (.drawBitmap p pay) s = .next t ∧ Completes p s t ∧
      Emits (windowEvents s.cfg p.a p.b (p.a + p.c - 1) (p.b + p.d - 1) ++ streamEvents s.cfg.chunkPixels pay) s t ∧
      t.work = { s.work with
        wx0 := p.a, wy0 := p.b, wx1 := p.a + p.c - 1, wy1 := p.b + p.d - 1,
        cnt := 0, ptr := BitVec.ofNat 32 pay.length, cb := t.work.cb } ∧
      (s.work.cb.length = 2 * s.cfg.chunkPixels → t.work.cb.length = s.work.cb.length) ∧
      ∀ v, pay.getLast? = some v → t.pins = pinsAfter s.pins true (lo8 v) := by
  obtain ⟨-, -, hchunk, -⟩ := hv
  obtain ⟨t, ht, hcomplete, hemits, hwork, hpins⟩ :=
    exec_window_pixels hs.1 (by simp) (jobOf_drawBitmap_fits hs.2 hfits hlen)
  simp only [coord_toInt, coord_extent] at hemits hwork
  rw [eventsOf_streamPixels hchunk] at hemits hpins
  refine ⟨t, ht, hcomplete, hemits, ?_, fun hbuffer => ?_, fun v hlast => ?_⟩
  · obtain ⟨cb, hcb⟩ := applyXfers_streamPixels_work hchunk (payload_ne_nil hfits hlen)
      (applyXfer (.window p.a p.b (p.a + p.c - 1) (p.b + p.d - 1)) s)
    rw [hwork, hcb]
    rfl
  · have hsized : BufferSized (applyXfer (.window p.a p.b (p.a + p.c - 1) (p.b + p.d - 1)) s) := hbuffer
    have hrefills : RefillsFit s.cfg.chunkPixels (xfersOf (streamPixels s.cfg.chunkPixels pay)) :=
      (beatsOk_streamPixels (i := .drawBitmap p pay) pay).refillsFit
    have hkept := hsized.applyXfers hrefills
    rw [BufferSized, ← hwork, applyXfers_cfg] at hkept
    exact hkept.trans hbuffer.symm
  · rw [hpins, pinsRun_streamEvents hchunk _ hlast, pinsAfter_pinsAfter]

end

/-- Settles O40, by the mode check, the window check and the length check in that order. -/
theorem drawBitmapStreamsThePayload : Obligations.DrawBitmapStreamsThePayload :=
  ⟨fun _ _ hop => congrArg Except.ok (decodeRequest_bitmap hop), fun _ _ _ hv =>
    ⟨exec_drawBitmap_fits hv,
      fun hs hfits =>
        have ⟨t, ht, hraises⟩ := exec_raises hs.1 (jobOf_drawBitmap_not_fits hs.2 hfits)
        ⟨t, _, ht, hraises, windowInfo_windowMask hfits⟩,
      fun hs hfits hlen => exec_raises hs.1 (jobOf_drawBitmap_length_ne hs.2 hfits hlen),
      fun hs => exec_raises hs.1 (jobOf_drawBitmap_uninit hs.2)⟩⟩

end Sys2Proof.Proofs

/-! PROOF. Where the pixels of the drawing operations land (43_pixel_stream R191, 20_memory R82, R89). -/

namespace Sys2Proof.Proofs

open Sys2Proof.Machine Sys2Proof.Safety

/-! ### The bounds of a window, in integers and on the wire -/

/-- A coordinate of the panel keeps its value on the wire. -/
theorem toNat_coord {x : Int} (h0 : 0 ≤ x) (h : x < 65536) : ((coord x).toNat : Int) = x := by
  rw [coord, BitVec.toNat_ofInt]
  omega

theorem toNat_toInt {v : Half} (h : 0 ≤ v.toInt) : v.toInt.toNat = v.toNat := by
  rw [BitVec.toInt_eq_toNat_cond] at h ⊢
  omega

/-! ### Pixels row by row -/

/-- The pixels stand row by row in an extent `w` wide at column `x` and row `y`, and no other byte of GRAM has changed. -/
structure Lands (w x y : Nat) (ps : List Colour) (before after : Memory) : Prop where
  pixels : ∀ k, k < ps.length → gramRead after (y + k / w) (x + k % w) = ps[k]?
  others : ∀ a, (∀ k, k < ps.length →
      a ≠ pixelKey (y + k / w) (x + k % w) ∧ a ≠ pixelKey (y + k / w) (x + k % w) + 1) →
    memRead a after = memRead a before

/-- Pixel `k` of an extent stands in it. -/
theorem raster_mem {w h k : Nat} (hk : k < w * h) : k / w < h ∧ k % w < w :=
  ⟨Nat.div_lt_of_lt_mul hk, Nat.mod_lt k (Nat.pos_of_mul_pos_right (Nat.zero_lt_of_lt hk))⟩

/-- Every place of an extent is that of a pixel. -/
theorem raster_surjective {w h row col : Nat} (hrow : row < h) (hcol : col < w) :
    ∃ k < w * h, k / w = row ∧ k % w = col := by
  have hlt : col + w * row < w * h :=
    calc col + w * row < w + w * row := by omega
      _ = w * (row + 1) := by ring
      _ ≤ w * h := Nat.mul_le_mul_left _ hrow
  exact ⟨col + w * row, hlt, (Nat.div_mod_unique (by omega)).mpr ⟨rfl, hcol⟩⟩

section
variable {x0 x1 y0 y1 : Half}

/-- A byte of no pixel of the run reads as before. -/
theorem memRead_landed_of_not_hit {a : Nat} (ps : List Colour) (i : Nat)
    (hmiss : ∀ k < ps.length, a ≠ pixelKey (streamRow x0 x1 y0 y1 (i + k)) (streamCol x0 x1 (i + k)) ∧
      a ≠ pixelKey (streamRow x0 x1 y0 y1 (i + k)) (streamCol x0 x1 (i + k)) + 1) (m : Memory) :
    memRead a (landed x0 x1 y0 y1 i ps m) = memRead a m := by
  induction ps generalizing i m with
  | nil => rfl
  | cons v ps ih =>
    obtain ⟨hhigh, hlow⟩ := hmiss 0 (Nat.succ_pos _)
    refine (ih (i + 1) (fun k hk => ?_) _).trans (memRead_gramWrite_ne hhigh hlow v m)
    rw [Nat.add_assoc, Nat.add_comm 1 k]
    exact hmiss (k + 1) (Nat.succ_lt_succ hk)

/-- Before the window is full the stream has not come back to its first row. -/
theorem streamRow_of_lt {k : Nat} (hk : k < span x0 x1 * span y0 y1) :
    streamRow x0 x1 y0 y1 k = y0.toNat + k / span x0 x1 := by
  rw [streamRow, Nat.mod_eq_of_lt (raster_mem hk).1]

/-- A stream of the window's area lands row by row. -/
theorem lands_landed (hx : x0.toNat ≤ x1.toNat) {ps : List Colour} (harea : ps.length = span x0 x1 * span y0 y1)
    (m : Memory) : Lands (span x0 x1) x0.toNat y0.toNat ps m (landed x0 x1 y0 y1 0 ps m) := by
  refine ⟨fun k hk => ?_, fun a ha => memRead_landed_of_not_hit ps 0 (fun k hk => ?_) m⟩
  · rw [← streamRow_of_lt (harea ▸ hk)]
    exact gramRead_landed_area hx harea hk m
  · rw [Nat.zero_add, streamRow_of_lt (harea ▸ hk)]
    exact ha k hk

end

/-- A request in mode READY that has sent the window of an extent and then as many pixels as the extent has. -/
theorem window_stream_lands {p : Ports} {s t : State} {x y w h : Int} {ps : List Colour} (hv : s.cfg.Valid) (hs : Ready s)
    (hfits : WindowFits s.cfg x y (x + w - 1) (y + h - 1)) (harea : (ps.length : Int) = w * h) (ht : Completes p s t)
    (hemits : Emits (windowEvents s.cfg (coord x) (coord y) (coord (x + w - 1)) (coord (y + h - 1)) ++
      streamEvents s.cfg.chunkPixels ps) s t) :
    Lands w.toNat x.toNat y.toNat ps s.rx.gram t.rx.gram ∧ Drawable t ∧ t.rx.col = some x.toNat ∧
      t.rx.row = some y.toNat := by
  obtain ⟨⟨-, hwidth⟩, ⟨-, hheight⟩, -⟩ := id hv
  have hbounds := hfits
  unfold WindowFits at hbounds
  have hx0 : ((coord x).toNat : Int) = x := toNat_coord (by omega) (by omega)
  have hy0 : ((coord y).toNat : Int) = y := toNat_coord (by omega) (by omega)
  have hx1 : ((coord (x + w - 1)).toNat : Int) = x + w - 1 := toNat_coord (by omega) (by omega)
  have hy1 : ((coord (y + h - 1)).toNat : Int) = y + h - 1 := toNat_coord (by omega) (by omega)
  have hspan : span (coord x) (coord (x + w - 1)) = w.toNat := by unfold span; omega
  have hspan' : span (coord y) (coord (y + h - 1)) = h.toNat := by unfold span; omega
  have harea' : ps.length = w.toNat * h.toNat := by
    zify
    rw [Int.toNat_of_nonneg (by omega), Int.toNat_of_nonneg (by omega), harea]
  have hwire : WindowFits s.cfg (coord x).toNat (coord y).toNat (coord (x + w - 1)).toNat (coord (y + h - 1)).toNat := by
    rw [hx0, hy0, hx1, hy1]
    exact hfits
  rw [← hspan, ← hspan'] at harea'
  obtain ⟨hdraw, hgram⟩ := rxRun_window_stream hv hwire harea' s.rx
  rw [← hemits.received] at hdraw hgram
  have hlands := lands_landed (x0 := coord x) (x1 := coord (x + w - 1)) (by omega) harea' s.rx.gram
  have hcol : (coord x).toNat = x.toNat := by omega
  have hrow : (coord y).toNat = y.toNat := by omega
  rw [← hgram, hspan, hcol, hrow] at hlands
  exact ⟨hlands, hdraw.drawable hs ht, hcol ▸ hdraw.col, hrow ▸ hdraw.row⟩

/-- One pixel is a stream of one chunk. -/
theorem streamEvents_singleton {chunk : Nat} (hc : 1 ≤ chunk) (v : Colour) :
    streamEvents chunk [v] = dataFrame (colourBytes [v]) := by
  rw [streamEvents_of_ne_nil hc (by simp), List.take_of_length_le hc, List.drop_eq_nil_of_le hc, streamEvents_nil,
    List.append_nil]

/-- Settles O46: the one pixel of a one-pixel window. -/
theorem drawPixelLands : Obligations.DrawPixelLands := by
  intro p s hv hs hpanel
  obtain ⟨t, ht, hcomplete, hemits, -⟩ := exec_drawPixel_onPanel hs hpanel
  obtain ⟨⟨hx, -⟩, hy, -⟩ := onPanel_iff.mp hpanel
  have hfar : ∀ v : Half, v.toInt + 1 - 1 = v.toInt := fun v => by omega
  obtain ⟨hlands, hdrawable, hcol, hrow⟩ := window_stream_lands (x := p.a.toInt) (y := p.b.toInt) (w := 1) (h := 1)
    (ps := [p.v]) hv hs (by simpa only [hfar] using windowFits_point hpanel) rfl hcomplete
    (by simpa only [hfar, coord_toInt, streamEvents_singleton hv.2.2.1] using hemits)
  rw [toNat_toInt hx] at hlands hcol
  rw [toNat_toInt hy] at hlands hrow
  refine ⟨t, ht, hlands.pixels 0 Nat.one_pos, fun a hhigh hlow => hlands.others a fun k hk => ?_, hdrawable, hcol, hrow⟩
  obtain rfl : k = 0 := Nat.lt_one_iff.mp hk
  exact ⟨hhigh, hlow⟩

/-- An extent filled with one colour, place by place. -/
theorem Lands.fill {w h x y : Nat} {v : Colour} {before after : Memory}
    (hl : Lands w x y (List.replicate (w * h) v) before after) :
    (∀ row col, y ≤ row → row < y + h → x ≤ col → col < x + w → gramRead after row col = some v) ∧
      (∀ a, (∀ row col, y ≤ row → row < y + h → x ≤ col → col < x + w →
          a ≠ pixelKey row col ∧ a ≠ pixelKey row col + 1) →
        memRead a after = memRead a before) := by
  refine ⟨fun row col hy hy' hx hx' => ?_, fun a ha => hl.others a fun k hk => ?_⟩
  · obtain ⟨k, hk, hdiv, hmod⟩ := raster_surjective (w := w) (h := h) (row := row - y) (col := col - x)
      (by omega) (by omega)
    have hread := hl.pixels k (by rwa [List.length_replicate])
    rwa [hdiv, hmod, Nat.add_sub_cancel' hy, Nat.add_sub_cancel' hx, List.getElem?_replicate, if_pos hk] at hread
  · rw [List.length_replicate] at hk
    obtain ⟨hdiv, hmod⟩ := raster_mem hk
    exact ha _ _ (Nat.le_add_right _ _) (Nat.add_lt_add_left hdiv y) (Nat.le_add_right _ _) (Nat.add_lt_add_left hmod x)

/-- Settles O47: a pixel of the colour for every place of the cut rectangle. -/
theorem fillRectLands : Obligations.FillRectLands := by
  intro p s r hv hs hclip
  obtain ⟨t, ht, hcomplete, hemits, -⟩ := exec_fillRect_some hv hs hclip
  obtain ⟨hw, hh, hfits⟩ := clipRect_fits hclip
  have harea : (List.replicate (r.w * r.h).toNat p.v).length = r.w * r.h := by
    rw [List.length_replicate, Int.toNat_of_nonneg (Int.mul_nonneg (by omega) (by omega))]
  obtain ⟨hlands, hdrawable, hcol, hrow⟩ := window_stream_lands hv hs hfits harea hcomplete hemits
  rw [Int.toNat_mul (by omega) (by omega)] at hlands
  obtain ⟨hpixels, hothers⟩ := hlands.fill
  unfold WindowFits at hfits
  refine ⟨t, ht, fun row col hy hy' hx hx' => ?_, fun a ha => hothers a fun row col hy hy' hx hx' => ?_, hdrawable,
    hcol, hrow⟩
  · exact hpixels row col (by omega) (by omega) (by omega) (by omega)
  · exact ha row col (by omega) (by omega) (by omega) (by omega)

/-- Settles O48: a payload of as many colours as its extent has places. -/
theorem drawBitmapLands : Obligations.DrawBitmapLands := by
  intro p pay s hv hs hfits hlen
  obtain ⟨t, ht, hcomplete, hemits, -⟩ := exec_drawBitmap_fits hv hs hfits hlen
  obtain ⟨hlands, hdrawable, hcol, hrow⟩ := window_stream_lands hv hs hfits hlen hcomplete
    (by simpa only [coord_toInt, coord_extent] using hemits)
  unfold WindowFits at hfits
  rw [toNat_toInt (by omega)] at hcol hrow
  rw [toNat_toInt (by omega), toNat_toInt (by omega), toNat_toInt (by omega)] at hlands
  exact ⟨t, ht, hlands.pixels, hlands.others, hdrawable, hcol, hrow⟩

end Sys2Proof.Proofs

/-! PROOF. Which requests `fill_circle`, `draw_char` and `draw_string` issue (44_client_layer R214, R215, R216, R217). -/

namespace Sys2Proof.Proofs

open Sys2Proof.Machine

/-! ### The disc -/

@[simp] theorem mem_spanInts {r d : Int} : d ∈ spanInts r ↔ -r ≤ d ∧ d ≤ r := by
  simp only [spanInts, List.mem_map, List.mem_range]
  constructor
  · rintro ⟨k, hk, rfl⟩
    omega
  · exact fun h => ⟨(d + r).toNat, by omega, by omega⟩

theorem nodup_spanInts (r : Int) : (spanInts r).Nodup :=
  List.nodup_range.map fun _ _ h => Int.natCast_inj.mp (sub_left_inj.mp h)

/-- A request of `fill_circle` is the one at an offset of the bounding square within the radius (R214). -/
theorem mem_fillCircle {x0 y0 r : Int} {c : Colour} {q : ClientReq} :
    q ∈ fillCircle x0 y0 r c ↔ ∃ dx dy : Int, -r ≤ dx ∧ dx ≤ r ∧ -r ≤ dy ∧ dy ≤ r ∧ dx * dx + dy * dy ≤ r * r ∧
      q = .pixel (x0 + dx) (y0 + dy) c := by
  simp only [fillCircle, List.mem_flatMap, List.mem_map, List.mem_filter, mem_spanInts, decide_eq_true_eq]
  constructor
  · rintro ⟨dy, ⟨hy, hy'⟩, dx, ⟨⟨hx, hx'⟩, hdisc⟩, rfl⟩
    exact ⟨dx, dy, hx, hx', hy, hy', hdisc, rfl⟩
  · rintro ⟨dx, dy, hx, hx', hy, hy', hdisc, rfl⟩
    exact ⟨dy, ⟨hy, hy'⟩, dx, ⟨⟨hx, hx'⟩, hdisc⟩, rfl⟩

/-- Requests at different offsets are different requests. -/
theorem pixel_offset_inj {x0 y0 dx dy dx' dy' : Int} {c : Colour}
    (h : ClientReq.pixel (x0 + dx) (y0 + dy) c = .pixel (x0 + dx') (y0 + dy') c) : dx = dx' ∧ dy = dy' := by
  obtain ⟨hx, hy, -⟩ := ClientReq.pixel.inj h
  exact ⟨Int.add_left_cancel hx, Int.add_left_cancel hy⟩

/-- Within a scan line the horizontal offsets differ, between two scan lines the vertical ones (R214). -/
theorem nodup_fillCircle (x0 y0 r : Int) (c : Colour) : (fillCircle x0 y0 r c).Nodup := by
  refine List.nodup_flatMap.mpr ⟨fun dy _ => ?_, (nodup_spanInts r).imp fun {dy dy'} hne q hq hq' => ?_⟩
  · exact ((nodup_spanInts r).filter _).map fun _ _ h => (pixel_offset_inj h).1
  · obtain ⟨dx, -, rfl⟩ := List.mem_map.mp hq
    obtain ⟨dx', -, h⟩ := List.mem_map.mp hq'
    exact hne (pixel_offset_inj h).2.symm

/-- Settles O59: the scan visits every offset of the bounding square once and keeps those within the radius. -/
theorem fillCircleIssuesTheDisc : Obligations.FillCircleIssuesTheDisc :=
  fun x0 y0 r c => ⟨fun _ => mem_fillCircle, nodup_fillCircle x0 y0 r c⟩

/-! ### Characters and strings -/

/-- The 40 bits of a glyph, column by column as `drawChar` visits them (R215, log entry 23). -/
def glyphBits (g : GlyphTable) (code : Nat) : List Bool :=
  (List.range 5).flatMap fun i => (List.range 8).map fun j => g code i j

/-- A cell issues its one request unless its bit is clear and the colours are equal (R216). -/
theorem length_drawCell (x y : Int) (bit : Bool) (fg bg : Colour) (scale i j : Nat) :
    (drawCell x y bit fg bg scale i j).length = if bit || bg != fg then 1 else 0 := by
  have hskip : (!bit && bg == fg) = !(bit || bg != fg) := by simp [bne]
  rw [drawCell, hskip]
  cases bit || bg != fg with
  | false => rfl
  | true => simp [apply_ite List.length]

/-- Where every element contributes one item or none, the items are as many as the elements that contribute one. -/
theorem length_flatMap_eq_countP {α β : Type} {f : α → List β} {p : α → Bool}
    (hf : ∀ a, (f a).length = if p a then 1 else 0) (l : List α) : (l.flatMap f).length = l.countP p := by
  induction l with
  | nil => rfl
  | cons a l ih => rw [List.flatMap_cons, List.length_append, List.countP_cons, ih, hf, Nat.add_comm]

/-- A character issues as many requests as its glyph has bits that are set or stand on a background of another colour (R216). -/
theorem length_drawChar (g : GlyphTable) (x y : Int) (ch : Nat) (fg bg : Colour) (scale : Nat) :
    (drawChar g x y ch fg bg scale).length = (glyphBits g (glyphCode ch)).countP fun bit => bit || bg != fg := by
  rw [drawChar, List.length_flatMap, glyphBits, List.countP_flatMap]
  congr 2
  funext i
  rw [Function.comp_apply, List.countP_map]
  exact length_flatMap_eq_countP (fun j => length_drawCell x y _ fg bg scale i j) _

theorem length_glyphBits (g : GlyphTable) (code : Nat) : (glyphBits g code).length = 40 := rfl

/-- Outside 32 to 126 the glyph drawn is that of `?` (R215). -/
theorem glyphCode_fallback {ch : Nat} (h : ch < 32 ∨ 126 < ch) : glyphCode ch = glyphCode 63 := by
  rw [glyphCode, if_neg (by omega)]
  rfl

theorem drawChar_fallback (g : GlyphTable) (x y : Int) {ch : Nat} (fg bg : Colour) (scale : Nat) (h : ch < 32 ∨ 126 < ch) :
    drawChar g x y ch fg bg scale = drawChar g x y 63 fg bg scale := by
  simp only [drawChar, glyphCode_fallback h]

/-- Character `k` of a string stands `6*scale*k` right of its start (R217). -/
theorem drawString_eq_flatMap (g : GlyphTable) (x y : Int) (fg bg : Colour) (scale : Nat) (text : List Nat) :
    drawString g x y fg bg scale text =
      (List.range text.length).flatMap fun (k : Nat) =>
        drawChar g (x + 6 * scale * k) y (text.getD k 63) fg bg scale := by
  induction text generalizing x with
  | nil => rfl
  | cons ch text ih =>
    have hadvance : ∀ k : Nat, x + 6 * scale + 6 * scale * k = x + 6 * scale * ((k + 1 : Nat) : Int) :=
      fun k => by push_cast; ring
    simp only [drawString, ih, hadvance, List.length_cons, List.range_succ_eq_map, List.flatMap_cons, List.flatMap_map,
      List.getD_cons_zero, List.getD_cons_succ, Nat.cast_zero, mul_zero, add_zero, Nat.succ_eq_add_one]

/-- Settles O60: the requests of a character counted bit by bit, the characters of a string one after another. -/
theorem textIssuesCells : Obligations.TextIssuesCells := by
  intro g x y ch fg bg scale text _
  refine ⟨fun hne => ?_, ?_, drawChar_fallback g x y fg bg scale, drawString_eq_flatMap g x y fg bg scale text⟩
  · rw [length_drawChar, ← length_glyphBits g (glyphCode ch), List.countP_eq_length]
    simp [hne]
  · simp only [length_drawChar, bne_self_eq_false, Bool.or_false, List.countP_eq_length_filter]
    rfl

end Sys2Proof.Proofs

/-! PROOF. The faults: what raises one, what it leaves alone, and how long it lasts; and the modes (30_encoding R120, 60_exceptions R231
to R240). -/

namespace Sys2Proof.Proofs

open Sys2Proof.Machine Sys2Proof.Safety

/-! ### Requests that always fault (60_exceptions R231, R232) -/

/-- Settles O41: the verdict of a reserved number is its fault, with no check before it. -/
theorem reservedOperationsRaiseOpcodeFault : Obligations.ReservedOperationsRaiseOpcodeFault :=
  ⟨hasOp_of_decodeRequest fun _ _ => rfl, hasOp_of_decodeRequest fun _ _ => rfl, fun p _ hs =>
    ⟨exec_raises (i := .reserved14 p) (c := .opcode) (info := 14) hs rfl,
      exec_raises (i := .reserved15 p) (c := .opcode) (info := 15) hs rfl⟩⟩

/-- Settles O42: the mode check of each draw-class operation comes before any other. -/
theorem drawingBeforeInitRaisesUninit : Obligations.DrawingBeforeInitRaisesUninit :=
  fun _ _ _ ⟨hs, hinit⟩ =>
    ⟨exec_raises hs (jobOf_setWindow_uninit hinit), exec_raises hs (jobOf_fillScreen_uninit hinit),
      exec_raises hs (jobOf_drawPixel_uninit hinit), exec_raises hs (jobOf_fillRect_uninit hinit),
      exec_raises hs (jobOf_drawBitmap_uninit hinit)⟩

/-! ### A fault stands (60_exceptions R237) -/

/-- A request taken whole changes no fault that stands. -/
theorem perform_fault_stands {j : Job} {s t : State} (h : perform j s = .next t) (hf : s.fault ≠ 0) :
    t.fault = s.fault ∧ t.finfo = s.finfo := by
  obtain ⟨-, rfl⟩ | ⟨-, -, rfl⟩ | ⟨-, hzero, -⟩ := perform_inv h
  · exact ⟨rfl, rfl⟩
  · exact ⟨rfl, rfl⟩
  · exact absurd hzero hf

/-- Settles O18: a beat writes neither `FAULT` nor `FINFO`, and a faulted block takes no request that could. -/
theorem faultIsSticky : Obligations.FaultIsSticky := by
  refine ⟨refusedWhenFaulted, fun s t h hf => ?_⟩
  obtain ⟨-, ht⟩ | ⟨-, rfl⟩ | ⟨i, rest, -, hperf⟩ | ⟨i, rest, b, bs, -, hzero, -⟩ := step_inv h
  · obtain ⟨b, _, _, _, _, rfl⟩ := tick_runs_beat ht
    obtain ⟨-, -, -, -, hfault, hfinfo, -⟩ := runBeat_frame b s
    exact ⟨hfault, hfinfo⟩
  · exact ⟨rfl, rfl⟩
  · exact perform_fault_stands (s := takeItem rest s) hperf hf
  · exact absurd hzero hf

/-! ### A fault is precise (60_exceptions R236) -/

section
variable {i : Instr} {s t : State}

/-- A fault after an instruction is its verdict, written over the loaded operand registers. -/
theorem exec_faults (hs : Accepts s) (h : exec i s = .next t) (hf : t.fault ≠ 0) :
    ∃ c info, (jobOf i s).verdict = .fault c info ∧
      t = { raiseFault c info (loadPorts i.ports? s) with done := true } := by
  obtain ⟨hidle, hzero⟩ := hs
  rw [exec_eq_perform, perform_settle _ hidle hzero, jobOf_ports] at h
  cases h
  cases hv : (jobOf i s).verdict with
  | fault c info => exact ⟨c, info, rfl, rfl⟩
  | respond v =>
    rw [hv] at hf
    exact absurd ((loadPorts_fault i.ports? s).trans hzero) hf
  | run bs =>
    rw [hv] at hf
    obtain ⟨-, -, -, -, hfault, -⟩ := runBeats_frame bs (loadPorts i.ports? s)
    exact absurd (hfault.trans ((loadPorts_fault i.ports? s).trans hzero)) hf

/-- No check of a wire instruction can fail: only a request's can. -/
theorem ports_of_verdict_fault {c : FaultCode} {info : Word} (h : (jobOf i s).verdict = .fault c info) :
    ∃ p, i.ports? = some p := by
  cases i with
  | sendCmd p | sendData p | sendData16 p | sendStream p _ | rstAssert p | rstRelease p | resetSeq p | init p
  | setWindow p | fillScreen p | drawPixel p | fillRect p | drawBitmap p _ | color565 p | reserved14 p
  | reserved15 p => exact ⟨p, rfl⟩
  | slpout | dispon | caset _ _ | paset _ _ | ramwr | madctl _ | pixfmt _ | tableEntry _ _ | rawCmd _
  | pixel _ _ _ => cases h

end

/-- Settles O19: what faults is a request whose verdict is the fault. -/
theorem faultsArePrecise : Obligations.FaultsArePrecise := by
  intro i s t hs h hf
  obtain ⟨c, info, hv, rfl⟩ := exec_faults hs h hf
  obtain ⟨p, hp⟩ := ports_of_verdict_fault hv
  exact ⟨p, hp, by rw [hp]; rfl⟩

/-! ### Which instruction raises which fault (60_exceptions R239) -/

/-- The instructions that can raise a fault of this cause. -/
def MayRaise (i : Instr) : FaultCode → Prop
  | .opcode => (∃ p, i = .reserved14 p) ∨ ∃ p, i = .reserved15 p
  | .uninit => (∃ p, i = .setWindow p) ∨ (∃ p, i = .fillScreen p) ∨ (∃ p, i = .drawPixel p) ∨
      (∃ p, i = .fillRect p) ∨ ∃ p pay, i = .drawBitmap p pay
  | .reinit => ∃ p, i = .init p
  | .window => (∃ p, i = .setWindow p) ∨ ∃ p pay, i = .drawBitmap p pay
  | .length => (∃ p pay, i = .sendStream p pay) ∨ ∃ p pay, i = .drawBitmap p pay

/-- If the verdict is a fault, its cause is one the instruction can raise. -/
def FaultOk (i : Instr) : Verdict → Prop
  | .fault c _ => MayRaise i c
  | .respond _ => True
  | .run _ => True

section
variable {i : Instr} {v : Verdict}

theorem FaultOk.needInit (h : FaultOk i v) (hi : MayRaise i .uninit) (op : BitVec 4) (s : State) :
    FaultOk i (needInit op s v) := by
  unfold Machine.needInit; split
  · exact h
  · exact hi

theorem FaultOk.needWindow (h : FaultOk i v) (hi : MayRaise i .window) (cfg : Config) (x0 y0 x1 y1 : Int) :
    FaultOk i (needWindow cfg x0 y0 x1 y1 v) := by
  unfold Machine.needWindow; split
  · exact h
  · exact hi

theorem FaultOk.needLength (h : FaultOk i v) (hi : MayRaise i .length) (paylen : Nat) (count : Int) :
    FaultOk i (needLength paylen count v) := by
  unfold Machine.needLength; split
  · exact h
  · exact hi

/-- A window that fits raises nothing (42_controller_protocol R166). -/
theorem faultOk_windowThen {cfg : Config} {x0 y0 x1 y1 : Int} (h : WindowFits cfg x0 y0 x1 y1) (rest : List Beat) :
    FaultOk i (windowThen cfg x0 y0 x1 y1 rest) := by
  rw [windowThen_fits h]
  trivial

end

theorem faultOk_jobInit (p : Ports) (s : State) : FaultOk (.init p) (jobInit p s).verdict := by
  unfold jobInit; dsimp only; split
  · exact ⟨p, rfl⟩
  · trivial

theorem faultOk_jobSetWindow (p : Ports) (s : State) : FaultOk (.setWindow p) (jobSetWindow p s).verdict :=
  (FaultOk.needWindow (v := .run _) trivial (.inl ⟨p, rfl⟩) _ _ _ _ _).needInit (.inl ⟨p, rfl⟩) 8 s

/-- The window of the whole panel fits. -/
theorem faultOk_jobFillScreen (p : Ports) {s : State} (hv : s.cfg.Valid) :
    FaultOk (.fillScreen p) (jobFillScreen p s).verdict :=
  (faultOk_windowThen (windowFits_panel hv) _).needInit (.inr (.inl ⟨p, rfl⟩)) 9 s

/-- A point that is drawn lies on the panel. -/
theorem faultOk_jobDrawPixel (p : Ports) (s : State) : FaultOk (.drawPixel p) (jobDrawPixel p s).verdict := by
  refine FaultOk.needInit ?_ (.inr (.inr (.inl ⟨p, rfl⟩))) 10 s
  split
  · next hpoint => exact faultOk_windowThen (windowFits_point hpoint) _
  · trivial

/-- A rectangle that is drawn has been clipped to the panel. -/
theorem faultOk_jobFillRect (p : Ports) (s : State) : FaultOk (.fillRect p) (jobFillRect p s).verdict := by
  refine FaultOk.needInit ?_ (.inr (.inr (.inr (.inl ⟨p, rfl⟩)))) 11 s
  split
  · trivial
  · next r hclip =>
    obtain ⟨-, -, hfits⟩ := clipRect_fits hclip
    exact faultOk_windowThen hfits _

theorem faultOk_jobDrawBitmap (p : Ports) (pay : List Colour) (s : State) :
    FaultOk (.drawBitmap p pay) (jobDrawBitmap p pay s).verdict := by
  have hwindow : MayRaise (.drawBitmap p pay) .window := .inr ⟨p, pay, rfl⟩
  exact (((FaultOk.needWindow (v := .run _) trivial hwindow _ _ _ _ _).needLength (.inr ⟨p, pay, rfl⟩) _ _).needWindow
    hwindow _ _ _ _ _).needInit (.inr (.inr (.inr (.inr ⟨p, pay, rfl⟩)))) 12 s

/-- Every instruction's verdict raises only what the instruction can raise. -/
theorem faultOk_jobOf (i : Instr) {s : State} (hv : s.cfg.Valid) : FaultOk i (jobOf i s).verdict := by
  cases i with
  | sendStream p pay => exact FaultOk.needLength (v := .run _) trivial (.inl ⟨p, pay, rfl⟩) _ _
  | init p => exact faultOk_jobInit p s
  | setWindow p => exact faultOk_jobSetWindow p s
  | fillScreen p => exact faultOk_jobFillScreen p hv
  | drawPixel p => exact faultOk_jobDrawPixel p s
  | fillRect p => exact faultOk_jobFillRect p s
  | drawBitmap p pay => exact faultOk_jobDrawBitmap p pay s
  | reserved14 p => exact .inl ⟨p, rfl⟩
  | reserved15 p => exact .inr ⟨p, rfl⟩
  | sendCmd _ | sendData _ | sendData16 _ | rstAssert _ | rstRelease _ | resetSeq _ | color565 _ | slpout | dispon
  | caset _ _ | paset _ _ | ramwr | madctl _ | pixfmt _ | tableEntry _ _ | rawCmd _ | pixel _ _ _ => trivial

/-- Settles O20: the code in `FAULT` is that of the verdict's cause. -/
theorem whichFaultsEachOperationRaises : Obligations.WhichFaultsEachOperationRaises := by
  intro i s t hv hs h hf
  obtain ⟨c, info, hverdict, rfl⟩ := exec_faults hs h hf
  have hmay := faultOk_jobOf i hv
  rw [hverdict] at hmay
  cases c with
  | opcode => exact .inl ⟨rfl, hmay⟩
  | uninit => exact .inr (.inl ⟨rfl, hmay⟩)
  | reinit => exact .inr (.inr (.inl ⟨rfl, hmay⟩))
  | window => exact .inr (.inr (.inr (.inl ⟨rfl, hmay⟩)))
  | length => exact .inr (.inr (.inr (.inr ⟨rfl, hmay⟩)))

/-! ### The modes (60_exceptions R240) -/

section
variable {s : State}

theorem modeOf_eq_faulted : modeOf s = .faulted ↔ s.fault ≠ 0 := by
  unfold modeOf; split_ifs <;> simp_all

theorem modeOf_eq_ready : modeOf s = .ready ↔ s.fault = 0 ∧ s.initDone = true := by
  unfold modeOf; split_ifs <;> simp_all

theorem modeOf_eq_uninit : modeOf s = .uninit ↔ s.fault = 0 ∧ s.initDone = false := by
  unfold modeOf; split_ifs <;> simp_all

end

/-- An instruction never clears `INIT_DONE`. -/
theorem exec_initDone_mono {i : Instr} {s t : State} (h : exec i s = .next t) (hs : s.initDone = true) :
    t.initDone = true := by
  rw [exec_eq_perform] at h
  obtain hsame | ⟨hset, -⟩ := perform_initDone h
  · exact hsame.trans hs
  · exact hset

/-- Settles O21: `INIT_DONE` rises only by INIT and never falls, and a fault stands. -/
theorem modeChanges : Obligations.ModeChanges := by
  intro i s t h
  simp only [modeOf_eq_faulted, modeOf_eq_ready, modeOf_eq_uninit, ne_eq]
  refine ⟨fun ⟨_, hs⟩ ⟨_, ht⟩ => ?_, fun ⟨_, hs⟩ ⟨_, ht⟩ => ?_, fun hf => ?_⟩
  · obtain ⟨-, -, hinit⟩ := initDoneRisesOnlyByInit.1 i s t h (by simp [hs, ht])
    exact hinit
  · simp [exec_initDone_mono h hs] at ht
  · rw [exec_eq_perform] at h
    obtain ⟨hsame, -⟩ := perform_fault_stands h hf
    rwa [hsame]

end Sys2Proof.Proofs

/-! PROOF. Block reset and the hazards: the idle step, what INIT leaves of the panel, and the counts of what every operation sends
(70_reset_and_hazards R260, R266, R281). -/

namespace Sys2Proof.Proofs

open Sys2Proof.Machine Sys2Proof.Safety

/-! ### Waiting (70_reset_and_hazards R260) -/

/-- Settles O7: an idle block with an empty input waits. -/
theorem stepWaitsForARequest : Obligations.StepWaitsForARequest := by
  intro s hb hi
  simp [step, waitForItem, hb, hi]

/-! ### A window is touched by an address command's parameters only (20_memory R79 to R85) -/

/-- An address command is in effect. -/
def Addressed (cfg : Config) (r : Rx) : Prop := ∃ c, r.cmd = some c ∧ (c = cfg.cmdCaset ∨ c = cfg.cmdPaset)

section
variable {cfg : Config} {r : Rx}

theorem boundsOf_rxData (ha : ¬ Addressed cfg r) (b : Byte) : boundsOf (rxData cfg b r) = boundsOf r := by
  cases hc : r.cmd with
  | none => rw [rxData_none hc]
  | some c =>
    by_cases hw : c = cfg.cmdRamwr
    · obtain ⟨_, _, _, _, hq⟩ := rxPixelByte_writes cfg b r
      rw [rxData_ramwr (hw ▸ hc), hq]
      rfl
    · rw [rxData_other hc hw fun h => ha ⟨c, hc, h⟩]
      rfl

theorem boundsOf_rxBytes (hv : cfg.Valid) (ha : ¬ Addressed cfg r) (bs : List Byte) :
    boundsOf (rxBytes cfg bs r) = boundsOf r := by
  induction bs generalizing r with
  | nil => rfl
  | cons b bs ih =>
    have hcmd : (rxData cfg b r).cmd = r.cmd := (rxData_keeps hv).2.2
    rw [rxBytes_cons, ih (by rwa [Addressed, hcmd]), boundsOf_rxData ha]

theorem rxResyncParam_unaddressed (ha : ¬ Addressed cfg r) : rxResyncParam cfg r = r := by
  cases hc : r.cmd with
  | none => simp [rxResyncParam, hc]
  | some c => exact rxResyncParam_other hc fun h => ha ⟨c, hc, h⟩

theorem boundsOf_release (ha : ¬ Addressed cfg r) : boundsOf (rxEvent cfg (.cs true) r) = boundsOf r := by
  by_cases hh : r.hold = none
  · rw [rxEvent_release hh, rxResyncParam_unaddressed (r := { r with cs := true }) ha]
    rfl
  · obtain ⟨b, hh⟩ := Option.ne_none_iff_exists'.mp hh
    rw [rxEvent_release_half hh,
      rxResyncParam_unaddressed (r := rxLoseCursor { r with cs := true, hold := none }) ha]
    rfl

/-- With no address command in effect a data frame leaves the window alone. -/
theorem boundsOf_dataFrame (hv : cfg.Valid) (ha : ¬ Addressed cfg r) (bs : List Byte) :
    boundsOf (rxRun cfg (dataFrame bs) r) = boundsOf r := by
  have hcmd : (rxBytes cfg bs (rxLevels false true r)).cmd = r.cmd := rxBytes_cmd hv bs
  rw [rxRun_dataFrame hv, boundsOf_release (by rwa [Addressed, hcmd]),
    boundsOf_rxBytes (r := rxLevels false true r) hv ha]
  rfl

/-! ### A controller that knows nothing of its panel -/

theorem RxInv.rxRun (h : RxInv cfg r) (hv : cfg.Valid) (es : List Event) : RxInv cfg (rxRun cfg es r) := by
  induction es generalizing r with
  | nil => exact h
  | cons e es ih => exact ih (h.rxEvent hv e)

/-- No bound is known. -/
def unknownBounds : Bounds := (none, none, none, none)

theorem withRange_unknownBounds (cfg : Config) (c : Byte) : withRange cfg c none none unknownBounds = unknownBounds :=
  ite_self _

/-- Every pixel and the whole window are unknown, and no command in effect can set a range by frames of one byte: its parameters are
counted from the start of a coordinate that such a frame breaks off, or all taken (20_memory R85). -/
structure Blank (cfg : Config) (r : Rx) : Prop where
  inv : RxInv cfg r
  gram : r.gram = memForget
  bounds : boundsOf r = unknownBounds
  aligned : Addressed cfg r → r.pn = 0 ∨ 4 ≤ r.pn

theorem blank_rxForget (cfg : Config) (r : Rx) : Blank cfg (rxForget r) :=
  ⟨rxInv_of_cursor_none (gramOk_memForget cfg) rfl rfl rfl, rfl, rfl, fun _ => .inl rfl⟩

/-- With the window unknown there is no cursor to write at under memory-write. -/
theorem Blank.cursor_none (h : Blank cfg r) (hc : r.cmd = some cfg.cmdRamwr) : r.col = none ∨ r.row = none := by
  by_contra hknown
  obtain ⟨⟨col, hcol⟩, row, hrow⟩ :=
    (not_or.mp hknown).imp Option.ne_none_iff_exists'.mp Option.ne_none_iff_exists'.mp
  obtain ⟨sc, -, -, -, hsc, -⟩ := h.inv.inWindow hc hcol hrow
  obtain ⟨hnone, -⟩ := boundsOf_eq.mp h.bounds
  cases hsc.symm.trans hnone

/-- A command finds no valid window, and counts its parameters from the start. -/
theorem Blank.command (h : Blank cfg r) (hv : cfg.Valid) (c : Byte) :
    Blank cfg (rxRun cfg (commandFrame c) r) where
  inv := h.inv.rxRun hv _
  gram := (rxRun_commandFrame_gram cfg c r).trans h.gram
  bounds := by
    rw [rxRun_commandFrame]
    obtain ⟨-, -, hq⟩ | ⟨-, -, hq⟩ | ⟨-, -, hq⟩ | ⟨-, -, hq⟩ := rxCommand_cases cfg c (rxLevels false false r) <;> rw [hq]
    · exact h.bounds
    · exact h.bounds
    · exact h.bounds
    · rfl
  aligned _ := .inl (by simp [rxRun_commandFrame])

/-- A byte in a frame of its own breaks off a coordinate, or comes after the last. -/
theorem Blank.addressed_byteFrame (h : Blank cfg r) (hv : cfg.Valid) (ha : Addressed cfg r) (b : Byte) :
    boundsOf (rxRun cfg (dataFrame [b]) r) = unknownBounds ∧
      4 ≤ (rxRun cfg (dataFrame [b]) r).pn := by
  obtain ⟨c, hc, haddress⟩ := id ha
  obtain ⟨hcw, hpw, -⟩ := addressBytes_distinct hv
  have hw : r.cmd ≠ some cfg.cmdRamwr := by
    rw [hc, ne_eq, Option.some_inj]
    exact haddress.elim (· ▸ hcw) (· ▸ hpw)
  have haddr : Addressing cfg c r.pn unknownBounds r := ⟨haddress, hc, rfl, h.inv.hold_none hw, h.bounds⟩
  obtain hzero | hfour := h.aligned ha
  · have hlost := haddr.halfFrame hv (.inl hzero) b
    exact ⟨hlost.bounds.trans (withRange_unknownBounds cfg c), hlost.pn.ge⟩
  · have hpast := haddr.furtherFrame hv hfour [b]
    exact ⟨hpast.bounds, by rw [hpast.pn]; omega⟩

/-- A frame of one byte makes nothing known. -/
theorem Blank.byteFrame (h : Blank cfg r) (hv : cfg.Valid) (b : Byte) :
    Blank cfg (rxRun cfg (dataFrame [b]) r) where
  inv := h.inv.rxRun hv _
  gram := by
    by_cases hw : r.cmd = some cfg.cmdRamwr
    · exact rxRun_dataFrame_lost hv hw (h.cursor_none hw) b []
    · exact (rxRun_dataFrame_gram hv hw [b]).trans h.gram
  bounds := by
    by_cases ha : Addressed cfg r
    · exact (h.addressed_byteFrame hv ha b).1
    · exact (boundsOf_dataFrame hv ha [b]).trans h.bounds
  aligned ha := by
    rw [Addressed, rxRun_dataFrame_cmd hv] at ha
    exact .inr (h.addressed_byteFrame hv ha b).2

/-- A command and its parameters, each byte a frame of its own (30_encoding R112). -/
def entryEvents (c : Byte) (ps : List Byte) : List Event := commandFrame c ++ ps.flatMap fun b => dataFrame [b]

theorem Blank.flatMap {α : Type} {f : α → List Event} (hf : ∀ a q, Blank cfg q → Blank cfg (rxRun cfg (f a) q))
    (h : Blank cfg r) (l : List α) : Blank cfg (rxRun cfg (l.flatMap f) r) := by
  induction l generalizing r with
  | nil => exact h
  | cons a l ih =>
    rw [List.flatMap_cons, rxRun_append]
    exact ih (hf a r h)

theorem Blank.entry (h : Blank cfg r) (hv : cfg.Valid) (c : Byte) (ps : List Byte) :
    Blank cfg (rxRun cfg (entryEvents c ps) r) := by
  rw [entryEvents, rxRun_append]
  exact Blank.flatMap (fun b _ hq => hq.byteFrame hv b) (h.command hv c) ps

/-! ### INIT (42_controller_protocol R161) -/

/-- The events of INIT: the reset, entry after entry, then display-on. -/
theorem initEvents_eq (cfg : Config) :
    initEvents cfg =
      resetEvents ++ cfg.initTable.flatMap (fun e => entryEvents e.cmd e.params) ++
        entryEvents cfg.cmdPixfmt [cfg.pixfmt16bpp] ++ entryEvents cfg.cmdMadctl [cfg.madctlValue] ++
        entryEvents cfg.cmdSlpout [] ++ [.wait 120] ++ commandFrame cfg.cmdDispon := rfl

/-- Up to display-on INIT leaves nothing known, whatever the table holds. -/
theorem rxRun_initEvents_blank (hv : cfg.Valid) (r : Rx) :
    ∃ q, Blank cfg q ∧ rxRun cfg (initEvents cfg) r = rxRun cfg (commandFrame cfg.cmdDispon) q := by
  have htable := Blank.flatMap (fun (e : InitEntry) _ hq => hq.entry hv e.cmd e.params) (blank_rxForget cfg r) cfg.initTable
  have hentries := ((htable.entry hv cfg.cmdPixfmt [cfg.pixfmt16bpp]).entry hv cfg.cmdMadctl [cfg.madctlValue]).entry hv
    cfg.cmdSlpout []
  refine ⟨_, hentries, ?_⟩
  have hreset : rxRun cfg resetEvents r = rxForget r := rfl
  have hwait (q : Rx) : rxRun cfg [.wait 120] q = q := rfl
  simp only [initEvents_eq, rxRun_append, hreset, hwait]

theorem dispon_distinct (hv : cfg.Valid) :
    cfg.cmdDispon ≠ cfg.cmdRamwr ∧ ¬ (cfg.cmdDispon = cfg.cmdCaset ∨ cfg.cmdDispon = cfg.cmdPaset) := by
  obtain ⟨-, -, -, -, -, hbytes⟩ := hv
  simp only [Config.commands, List.nodup_cons, List.mem_cons, not_or] at hbytes
  obtain ⟨-, ⟨hcaset, hpaset, hramwr, -⟩, -⟩ := hbytes
  exact ⟨hramwr, not_or.mpr ⟨hcaset, hpaset⟩⟩

end

/-- A request that runs its beats emits their events. -/
theorem exec_emits {i : Instr} {p : Ports} {bs : List Beat} {s t : State} (hs : Accepts s)
    (hj : jobOf i s = ⟨some p, .run bs⟩) (h : exec i s = .next t) : Emits (eventsOf bs) s t := by
  rw [exec_eq_afterBeats hs hj] at h
  cases h
  exact afterBeats_emits p bs s

/-- Settles O33: before display-on nothing is known, since frames of one byte complete no range; display-on then loses what is left. -/
theorem initLeavesThePanelUnknown : Obligations.InitLeavesThePanelUnknown := by
  intro p s t hv hs h
  obtain ⟨q, hblank, hq⟩ := rxRun_initEvents_blank hv s.rx
  obtain ⟨hramwr, haddress⟩ := dispon_distinct hv
  have hrx := (exec_emits hs.1 (jobOf_init_uninit hs.2 p) h).received
  rw [eventsOf_initBeats, hq, rxRun_commandFrame, rxCommand_other hramwr haddress] at hrx
  rw [hrx]
  exact ⟨fun a => congrArg (memRead a) hblank.gram, rfl, rfl, rfl, rfl, rfl, rfl, rfl, rfl⟩

/-! ### Counting events, bytes and delays (70_reset_and_hazards R281) -/

@[simp] theorem txCount_append (as bs : List Event) : txCount (as ++ bs) = txCount as + txCount bs := by
  induction as with
  | nil => exact (Nat.zero_add _).symm
  | cons e as ih => cases e <;> simp only [List.cons_append, txCount, ih, Nat.add_right_comm]

@[simp] theorem waitTotal_append (as bs : List Event) : waitTotal (as ++ bs) = waitTotal as + waitTotal bs := by
  induction as with
  | nil => exact (Nat.zero_add _).symm
  | cons e as ih => cases e <;> simp only [List.cons_append, waitTotal, ih, Nat.add_right_comm]

/-- A list of `n` events that sends `k` bytes and requests `w` milliseconds of delay. -/
def Counts (es : List Event) (n k w : Nat) : Prop := es.length = n ∧ txCount es = k ∧ waitTotal es = w

section
variable {as bs : List Event} {n k w n' k' w' : Nat}

theorem Counts.append (ha : Counts as n k w) (hb : Counts bs n' k' w') : Counts (as ++ bs) (n + n') (k + k') (w + w') := by
  obtain ⟨rfl, rfl, rfl⟩ := ha
  obtain ⟨rfl, rfl, rfl⟩ := hb
  exact ⟨List.length_append, txCount_append as bs, waitTotal_append as bs⟩

theorem Counts.congr (h : Counts as n k w) (hn : n = n' := by omega) (hk : k = k' := by omega)
    (hw : w = w' := by omega) : Counts as n' k' w' := hn ▸ hk ▸ hw ▸ h

/-- Lists laid end to end, none of which requests a delay. -/
theorem Counts.flatMap {α : Type} {f : α → List Event} {n k : α → Nat} (h : ∀ a, Counts (f a) (n a) (k a) 0) (l : List α) :
    Counts (l.flatMap f) (l.map n).sum (l.map k).sum 0 := by
  induction l with
  | nil => exact ⟨rfl, rfl, rfl⟩
  | cons a l ih => simpa using (h a).append ih

end

theorem counts_commandFrame (c : Byte) : Counts (commandFrame c) 4 1 0 := ⟨rfl, rfl, rfl⟩

theorem counts_tx (bs : List Byte) : Counts (bs.map .tx) bs.length bs.length 0 := by
  induction bs with
  | nil => exact ⟨rfl, rfl, rfl⟩
  | cons b bs ih =>
    have hfirst : Counts [.tx b] 1 1 0 := ⟨rfl, rfl, rfl⟩
    rw [List.length_cons]
    exact (hfirst.append ih).congr

theorem counts_dataFrame (bs : List Byte) : Counts (dataFrame bs) (3 + bs.length) bs.length 0 := by
  have hbefore : Counts [.dc true, .cs false] 2 0 0 := ⟨rfl, rfl, rfl⟩
  have hafter : Counts [.cs true] 1 0 0 := ⟨rfl, rfl, rfl⟩
  exact ((hbefore.append (counts_tx bs)).append hafter).congr

theorem counts_windowEvents (cfg : Config) (x0 y0 x1 y1 : Half) : Counts (windowEvents cfg x0 y0 x1 y1) 32 11 0 :=
  ⟨rfl, rfl, rfl⟩

/-- A stream: two bytes a pixel, and three events more a chunk. -/
theorem counts_streamEvents {chunk : Nat} (hc : 1 ≤ chunk) (ps : List Colour) :
    Counts (streamEvents chunk ps) (3 * chunkCount chunk ps.length + 2 * ps.length) (2 * ps.length) 0 := by
  induction ps using chunks_induction hc with
  | nil =>
    rw [streamEvents_nil, List.length_nil, chunkCount_zero]
    exact ⟨rfl, rfl, rfl⟩
  | step ps hps ih =>
    have hlen : (ps.take chunk).length + (ps.drop chunk).length = ps.length := by
      rw [← List.length_append, List.take_append_drop]
    have hchunks : chunkCount chunk ps.length = chunkCount chunk (ps.drop chunk).length + 1 := by
      rw [List.length_drop, chunkCount_sub hc (List.length_pos_iff.mpr hps)]
    have hfirst := counts_dataFrame (colourBytes (ps.take chunk))
    rw [colourBytes_length] at hfirst
    rw [streamEvents_of_ne_nil hc hps, hchunks]
    exact (hfirst.append ih).congr

/-- A window and then its pixels. -/
theorem counts_window_stream {chunk : Nat} (hc : 1 ≤ chunk) (cfg : Config) (x0 y0 x1 y1 : Half) (ps : List Colour) :
    Counts (windowEvents cfg x0 y0 x1 y1 ++ streamEvents chunk ps)
      (32 + 3 * chunkCount chunk ps.length + 2 * ps.length) (11 + 2 * ps.length) 0 :=
  ((counts_windowEvents cfg x0 y0 x1 y1).append (counts_streamEvents hc ps)).congr

/-- An entry of the table: four events and a byte for the command, and as many for each parameter. -/
theorem counts_entryEvents (c : Byte) (ps : List Byte) :
    Counts (entryEvents c ps) (4 + 4 * ps.length) (1 + ps.length) 0 := by
  have hparams := Counts.flatMap (fun b => counts_dataFrame [b]) ps
  simp only [List.length_singleton, List.map_const', List.sum_replicate_nat] at hparams
  exact ((counts_commandFrame c).append hparams).congr

theorem counts_initEvents (cfg : Config) :
    Counts (initEvents cfg) (31 + tableEvents cfg.initTable) (6 + tableBytes cfg.initTable) 295 := by
  have hreset : Counts resetEvents 6 0 175 := ⟨rfl, rfl, rfl⟩
  have htable : Counts (cfg.initTable.flatMap fun e => entryEvents e.cmd e.params) (tableEvents cfg.initTable)
      (tableBytes cfg.initTable) 0 := Counts.flatMap (fun e => counts_entryEvents e.cmd e.params) cfg.initTable
  have hpixfmt : Counts (entryEvents cfg.cmdPixfmt [cfg.pixfmt16bpp]) 8 2 0 := counts_entryEvents _ _
  have hmadctl : Counts (entryEvents cfg.cmdMadctl [cfg.madctlValue]) 8 2 0 := counts_entryEvents _ _
  have hslpout : Counts (entryEvents cfg.cmdSlpout []) 4 1 0 := counts_entryEvents _ _
  have hwait : Counts [.wait 120] 1 0 120 := ⟨rfl, rfl, rfl⟩
  have hdispon := counts_commandFrame cfg.cmdDispon
  rw [initEvents_eq]
  exact ((((((hreset.append htable).append hpixfmt).append hmadctl).append hslpout).append hwait).append hdispon).congr

/-! ### What an operation sends, counted -/

theorem emits_unique {as bs : List Event} {s t : State} (ha : Emits as s t) (hb : Emits bs s t) : as = bs :=
  List.append_cancel_left (ha.trace.symm.trans hb.trace)

section
variable {i : Instr} {p : Ports} {s t : State} {es : List Event}

/-- What a request that runs its beats appends counts as their events do. -/
theorem counts_of_jobOf {bs : List Beat} {n k w : Nat} (hs : Accepts s) (hj : jobOf i s = ⟨some p, .run bs⟩)
    (h : exec i s = .next t) (he : Emits es s t) (hc : Counts (eventsOf bs) n k w) : Counts es n k w :=
  emits_unique he (exec_emits hs hj h) ▸ hc

theorem faultCode_ne_zero (c : FaultCode) : faultCode c ≠ 0 := by cases c <;> decide

/-- A request whose check fails does not leave `FAULT` at 0. -/
theorem fault_ne_zero_of_jobOf {c : FaultCode} {info : Word} (hs : Accepts s) (hj : jobOf i s = ⟨some p, .fault c info⟩)
    (h : exec i s = .next t) : t.fault ≠ 0 := by
  obtain ⟨u, hu, hraises⟩ := exec_raises hs hj
  obtain rfl : t = u := Host.Outcome.next.inj (h.symm.trans hu)
  rw [hraises]
  exact faultCode_ne_zero c

theorem counts_transport {n k w : Nat}
    (hi : (i, n, k, w) ∈ [(Instr.sendCmd p, 4, 1, 0), (.sendData p, 4, 1, 0), (.sendData16 p, 5, 2, 0),
      (.rstAssert p, 1, 0, 0), (.rstRelease p, 1, 0, 0), (.resetSeq p, 6, 0, 175)])
    (hs : Accepts s) (h : exec i s = .next t) (he : Emits es s t) : Counts es n k w := by
  simp only [List.mem_cons, List.not_mem_nil, or_false, Prod.mk.injEq] at hi
  obtain ⟨rfl, rfl, rfl, rfl⟩ | ⟨rfl, rfl, rfl, rfl⟩ | ⟨rfl, rfl, rfl, rfl⟩ | ⟨rfl, rfl, rfl, rfl⟩ | ⟨rfl, rfl, rfl, rfl⟩ |
    ⟨rfl, rfl, rfl, rfl⟩ := hi
  · exact counts_of_jobOf (bs := frameK (lowByte p.v)) hs rfl h he (counts_commandFrame (lowByte p.v))
  · exact counts_of_jobOf (bs := frameQ (lowByte p.v)) hs rfl h he (counts_dataFrame [lowByte p.v])
  · exact counts_of_jobOf (bs := frameP p.v) hs rfl h he (counts_dataFrame [hi8 p.v, lo8 p.v])
  · exact counts_of_jobOf hs rfl h he ⟨rfl, rfl, rfl⟩
  · exact counts_of_jobOf hs rfl h he ⟨rfl, rfl, rfl⟩
  · exact counts_of_jobOf hs rfl h he ⟨rfl, rfl, rfl⟩

theorem counts_drawPixel (hs : Ready s) (hpoint : onPanel s.cfg p.a.toInt p.b.toInt = true)
    (h : exec (.drawPixel p) s = .next t) (he : Emits es s t) : Counts es 37 13 0 := by
  refine counts_of_jobOf hs.1 (jobOf_drawPixel_onPanel hs.2 hpoint) h he ?_
  rw [eventsOf_append, eventsOf_windowBeats, eventsOf_frameP]
  exact (counts_windowEvents ..).append (counts_dataFrame _)

theorem counts_fillScreen (hv : s.cfg.Valid) (hs : Ready s) (h : exec (.fillScreen p) s = .next t) (he : Emits es s t) :
    Counts es (32 + 3 * chunkCount s.cfg.chunkPixels (s.cfg.width * s.cfg.height) + 2 * (s.cfg.width * s.cfg.height))
      (11 + 2 * (s.cfg.width * s.cfg.height)) 0 := by
  refine counts_of_jobOf hs.1 (jobOf_fillScreen_ready hv hs.2) h he ?_
  have ⟨_, _, hchunk, _⟩ := hv
  rw [eventsOf_fillScreenBeats hv, fillScreenEvents]
  simpa only [List.length_replicate] using counts_window_stream hchunk s.cfg 0 0 (lastOf s.cfg.width) (lastOf s.cfg.height)
    (List.replicate (s.cfg.width * s.cfg.height) p.v)

theorem counts_init (hs : Uninit s) (h : exec (.init p) s = .next t) (he : Emits es s t) :
    Counts es (31 + tableEvents s.cfg.initTable) (6 + tableBytes s.cfg.initTable) 295 :=
  counts_of_jobOf hs.1 (jobOf_init_uninit hs.2 p) h he (eventsOf_initBeats s.cfg ▸ counts_initEvents s.cfg)

theorem counts_setWindow (hs : Ready s) (h : exec (.setWindow p) s = .next t) (hf : t.fault = 0) (he : Emits es s t) :
    Counts es 32 11 0 := by
  by_cases hfits : WindowFits s.cfg (unsigned16 p.a) (unsigned16 p.b) (unsigned16 p.c) (unsigned16 p.d)
  · exact counts_of_jobOf hs.1 (jobOf_setWindow_fits hs.2 hfits) h he (counts_windowEvents ..)
  · exact absurd hf (fault_ne_zero_of_jobOf hs.1 (jobOf_setWindow_not_fits hs.2 hfits) h)

theorem counts_fillRect {r : Rect} (hv : s.cfg.Valid) (hs : Ready s)
    (hclip : clipRect s.cfg p.a.toInt p.b.toInt p.c.toInt p.d.toInt = some r) (h : exec (.fillRect p) s = .next t)
    (he : Emits es s t) :
    Counts es (32 + 3 * chunkCount s.cfg.chunkPixels (r.w * r.h).toNat + 2 * (r.w * r.h).toNat)
      (11 + 2 * (r.w * r.h).toNat) 0 := by
  refine counts_of_jobOf hs.1 (jobOf_fillRect_some hs.2 hclip) h he ?_
  obtain ⟨-, -, hchunk, -⟩ := hv
  rw [eventsOf_append, eventsOf_windowBeats, eventsOf_streamFill hchunk]
  simpa only [List.length_replicate] using counts_window_stream hchunk s.cfg (coord r.x) (coord r.y)
    (coord (r.x + r.w - 1)) (coord (r.y + r.h - 1)) (List.replicate (r.w * r.h).toNat p.v)

theorem counts_drawBitmap {pay : List Colour} (hv : s.cfg.Valid) (hs : Ready s) (h : exec (.drawBitmap p pay) s = .next t)
    (hf : t.fault = 0) (he : Emits es s t) :
    Counts es (32 + 3 * chunkCount s.cfg.chunkPixels pay.length + 2 * pay.length) (11 + 2 * pay.length) 0 := by
  by_cases hfits : BitmapFits p s
  · by_cases hlen : (pay.length : Int) = p.c.toInt * p.d.toInt
    · refine counts_of_jobOf hs.1 (jobOf_drawBitmap_fits hs.2 hfits hlen) h he ?_
      obtain ⟨-, -, hchunk, -⟩ := hv
      rw [eventsOf_append, eventsOf_windowBeats, eventsOf_streamPixels hchunk]
      exact counts_window_stream hchunk ..
    · exact absurd hf (fault_ne_zero_of_jobOf hs.1 (jobOf_drawBitmap_length_ne hs.2 hfits hlen) h)
  · exact absurd hf (fault_ne_zero_of_jobOf hs.1 (jobOf_drawBitmap_not_fits hs.2 hfits) h)

theorem counts_sendStream {pay : List Byte} (hs : Accepts s) (h : exec (.sendStream p pay) s = .next t) (hf : t.fault = 0)
    (he : Emits es s t) : Counts es (3 + p.n.toNat) p.n.toNat 0 := by
  by_cases hlen : pay.length = p.n.toNat
  · refine counts_of_jobOf hs (jobOf_sendStream_of_length hlen s) h he ?_
    rw [eventsOf_streamFrame, ← hlen]
    exact counts_dataFrame pay
  · exact absurd hf (fault_ne_zero_of_jobOf hs (jobOf_sendStream_of_length_ne hlen s) h)

end

/-- Settles O45, operation by operation: what each appends is its event list, counted frame by frame. -/
theorem eventCounts : Obligations.EventCounts := by
  intro s p es hv
  exact ⟨fun _ _ _ _ _ hi => counts_transport hi, fun _ hs hpoint => counts_drawPixel hs hpoint,
    fun _ hs => counts_fillScreen hv hs, fun _ hs => counts_init hs, fun _ hs => counts_setWindow hs,
    fun _ _ hs hclip => counts_fillRect hv hs hclip, fun _ _ hs => counts_drawBitmap hv hs,
    fun _ _ hs => counts_sendStream hs⟩

end Sys2Proof.Proofs
